-- ==== Sys2Proof/Word.lean ====
section
/-! DEFINITION. The machine word of DUSK-CORE: every register, program word, sample word and table entry is
32 bits (spec 00_scope.md R9, 20_memory.md R83); a byte lane is 8. -/

namespace Sys2Proof

/-- One byte lane of a word (20_memory.md R83). -/
abbrev Byte := BitVec 8

/-- One 32-bit word: a register, an instruction, a binary32 pattern (00_scope.md R9, R10). -/
abbrev Word := BitVec 32

end Sys2Proof
end

