-- ==== Sys2Proof/Machine/Binary32.lean ====
section
/-! DEFINITION. Binary32 arithmetic (00_scope.md R10 to R14): operands become exact integers with a power of two, the
exact result is formed, and it is rounded once, to nearest, ties to even. Subnormals are kept, no flag exists, and
every NaN result is the canonical one (R12). Behaviour on special operands is IEEE 754-2008's (R11, log entry 16). -/

namespace Sys2Proof.Machine

/-- What a binary32 pattern stands for: a NaN, an infinity, or (-1)^neg * m * 2^e. -/
inductive FVal where
  /-- Any NaN; the payload plays no part in arithmetic (00_scope.md R12). -/
  | nan
  /-- An infinity. -/
  | inf (neg : Bool)
  /-- A finite number; `m = 0` is the zero of that sign. -/
  | fin (neg : Bool) (m : Nat) (e : Int)
deriving DecidableEq, Repr

/-- The sign, bit 31 (R10). -/
def f32Sign (a : Word) : Bool := decide (2 ^ 31 ≤ a.toNat)

/-- The biased exponent, bits 30:23 (R10). -/
def f32Exp (a : Word) : Nat := a.toNat / 2 ^ 23 % 2 ^ 8

/-- The fraction, bits 22:0 (R10). -/
def f32Frac (a : Word) : Nat := a.toNat % 2 ^ 23

/-- Bits 30:0: on finite patterns this orders the magnitudes. -/
def f32Mag (a : Word) : Nat := a.toNat % 2 ^ 31

/-- Whether a pattern is a NaN. -/
def f32IsNaN (a : Word) : Bool := decide (0x7F800000 < f32Mag a)

/-- Whether a pattern is neither a NaN nor an infinity. -/
def f32IsFinite (a : Word) : Bool := decide (f32Mag a < 0x7F800000)

/-- The canonical quiet NaN (R12). -/
def canonicalNaN : Word := 0x7FC00000#32

/-- What a pattern stands for (R10). -/
def f32Unpack (a : Word) : FVal :=
  if f32Exp a = 255 then
    if f32Frac a = 0 then .inf (f32Sign a) else .nan
  else if f32Exp a = 0 then .fin (f32Sign a) (f32Frac a) (-149)
  else .fin (f32Sign a) (2 ^ 23 + f32Frac a) ((f32Exp a : Int) - 150)

/-- The pattern with this sign and these bits 30:0. -/
def f32OfMag (neg : Bool) (mag : Nat) : Word := BitVec.ofNat 32 ((if neg then 2 ^ 31 else 0) + mag)

/-- The infinity of a sign. -/
def f32Inf (neg : Bool) : Word := f32OfMag neg 0x7F800000

/-- `m / 2^sh` rounded to the nearest integer, ties to even. -/
def roundShift (m sh : Nat) : Nat :=
  let q := m / 2 ^ sh
  let rem := m % 2 ^ sh
  if 2 * rem < 2 ^ sh then q
  else if 2 ^ sh < 2 * rem then q + 1
  else q + q % 2

/-- The exponent of the last place of the binary32 numbers around m * 2^e (m > 0): 24 significant bits, but never below
the subnormals' 2^-149. -/
def ulpExp (m : Nat) (e : Int) : Int := max ((Nat.log2 m : Int) + e - 23) (-149)

/-- m * 2^e as an integer number of last places, rounded to nearest even. -/
def roundMant (m : Nat) (e : Int) : Nat :=
  let q := ulpExp m e
  if q ≤ e then m * 2 ^ (e - q).toNat else roundShift m (q - e).toNat

/-- Bits 30:0 of m * 2^e rounded (m > 0): the last place's exponent and the rounded significand add up to the pattern,
a carry out of the significand included; from 2^128 up, infinity. -/
def roundMag (m : Nat) (e : Int) : Nat :=
  min ((ulpExp m e + 149).toNat * 2 ^ 23 + roundMant m e) 0x7F800000

/-- RNE32 of (-1)^neg * m * 2^e (R11); zero keeps its sign. -/
def f32Round (neg : Bool) (m : Nat) (e : Int) : Word :=
  f32OfMag neg (if m = 0 then 0 else roundMag m e)

/-- The integer (-1)^neg * m * 2^(e - g), for e ≥ g. -/
def scaled (neg : Bool) (m : Nat) (e g : Int) : Int :=
  let n : Int := ((m * 2 ^ (e - g).toNat : Nat) : Int)
  if neg then -n else n

/-- IEEE addition of finite numbers: the exact sum, rounded; an exact zero sum is +0 unless both operands are
negative zeros (R11; 41_arith.md R160 corner cases). -/
def addFin (s : Bool) (m : Nat) (e : Int) (t : Bool) (n : Nat) (f : Int) : Word :=
  let g := min e f
  let z := scaled s m e g + scaled t n f g
  if z = 0 then f32OfMag (s && t) 0 else f32Round (decide (z < 0)) z.natAbs g

/-- IEEE addition of two values. -/
def addVal : FVal → FVal → Word
  | .nan, _ => canonicalNaN
  | _, .nan => canonicalNaN
  | .inf s, .inf t => if s = t then f32Inf s else canonicalNaN
  | .inf s, .fin _ _ _ => f32Inf s
  | .fin _ _ _, .inf t => f32Inf t
  | .fin s m e, .fin t n f => addFin s m e t n f

/-- The value with its sign changed. -/
def FVal.neg : FVal → FVal
  | .nan => .nan
  | .inf s => .inf (!s)
  | .fin s m e => .fin (!s) m e

/-- IEEE multiplication of two values. -/
def mulVal : FVal → FVal → Word
  | .nan, _ => canonicalNaN
  | _, .nan => canonicalNaN
  | .inf s, .inf t => f32Inf (s != t)
  | .inf s, .fin t n _ => if n = 0 then canonicalNaN else f32Inf (s != t)
  | .fin s m _, .inf t => if m = 0 then canonicalNaN else f32Inf (s != t)
  | .fin s m e, .fin t n f => f32Round (s != t) (m * n) (e + f)

/-- IEEE division of finite numbers: a quotient of at least 26 significant bits with every lower bit folded into one
sticky bit rounds as the exact quotient does. -/
def divFin (s : Bool) (m : Nat) (e : Int) (t : Bool) (n : Nat) (f : Int) : Word :=
  if n = 0 then
    if m = 0 then canonicalNaN else f32Inf (s != t)
  else
    let q := m * 2 ^ 50 / n
    let sticky := if m * 2 ^ 50 % n = 0 then 0 else 1
    f32Round (s != t) (2 * q + sticky) (e - f - 51)

/-- IEEE division of two values. -/
def divVal : FVal → FVal → Word
  | .nan, _ => canonicalNaN
  | _, .nan => canonicalNaN
  | .inf _, .inf _ => canonicalNaN
  | .inf s, .fin t _ _ => f32Inf (s != t)
  | .fin s _ _, .inf t => f32OfMag (s != t) 0
  | .fin s m e, .fin t n f => divFin s m e t n f

/-- `fadd(a, b)` (00_scope.md R11, R12). -/
def fadd (a b : Word) : Word := addVal (f32Unpack a) (f32Unpack b)

/-- `fsub(a, b)` (00_scope.md R11, R12). -/
def fsub (a b : Word) : Word := addVal (f32Unpack a) (f32Unpack b).neg

/-- `fmul(a, b)` (00_scope.md R11, R12). -/
def fmul (a b : Word) : Word := mulVal (f32Unpack a) (f32Unpack b)

/-- `fdiv(a, b)` (00_scope.md R11, R12). -/
def fdiv (a b : Word) : Word := divVal (f32Unpack a) (f32Unpack b)

/-- `fneg(a)`: flips bit 31 and nothing else (R11). -/
def fneg (a : Word) : Word := a ^^^ 0x80000000#32

/-- A signed integer that orders non-NaN patterns as their values; both zeros are 0. -/
def f32Key (a : Word) : Int := if f32Sign a then -(f32Mag a : Int) else (f32Mag a : Int)

/-- The ordered comparison `a < b`: false when either is a NaN (R11). -/
def flt (a b : Word) : Bool := !f32IsNaN a && !f32IsNaN b && decide (f32Key a < f32Key b)

/-- `I2F(n)`: exact for n < 2^24 (R14). -/
def i2f (n : Nat) : Word := f32Round false n 0

/-- `floor(d)` for d at least 0 (R14; used on 2 <= d < 2^24). -/
def f32Floor (d : Word) : Nat :=
  match f32Unpack d with
  | .fin _ m e => if 0 ≤ e then m * 2 ^ e.toNat else m / 2 ^ (-e).toNat
  | .nan => 0
  | .inf _ => 0

/-- 0.5 (R13). -/
def fHalf : Word := 0x3F000000#32
/-- 0.25 = 1/sqrt(16) (R13). -/
def fQuarter : Word := 0x3E800000#32
/-- 2.0 (R13). -/
def fTwo : Word := 0x40000000#32
/-- 3.0 (R13). -/
def fThree : Word := 0x40400000#32
/-- -3.0 (R13). -/
def fNegThree : Word := 0xC0400000#32
/-- 4.0 (R13). -/
def fFour : Word := 0x40800000#32
/-- 5.0 (R13). -/
def fFive : Word := 0x40A00000#32
/-- 9.0 (R13). -/
def fNine : Word := 0x41100000#32
/-- 27.0 (R13). -/
def f27 : Word := 0x41D80000#32
/-- OUTNORM = RNE32(1/sqrt(8)) (R13). -/
def outNorm : Word := 0x3EB504F3#32
/-- 2^-22 (R13). -/
def frac22 : Word := 0x34800000#32

end Sys2Proof.Machine
end

