-- ==== Sys2Proof/Syntax.lean ====
section
/-! DEFINITION. The instructions of DUSK-CORE: one constructor per row of the opcode map, 30_encoding.md R115
(spec/opcode_table.json), with the operand fields of R112. -/

namespace Sys2Proof

/-- A sample register index, 0..15 (30_encoding.md R112). -/
abbrev XReg := BitVec 4

/-- A channel index, 0..31 (30_encoding.md R112). -/
abbrev Chan := BitVec 5

/-- A damper index, 0..15 (30_encoding.md R112). -/
abbrev DampIx := BitVec 4

/-- A DC-blocker index, 0..1 (30_encoding.md R112). -/
abbrev DcbIx := BitVec 1

/-- One instruction of 30_encoding.md R115. -/
inductive Instr where
  /-- NOP, 40_control.md R144. -/
  | nop
  /-- END, 40_control.md R142. -/
  | endFrame
  /-- SKIP, SKIP.F, SKIP.NF (cond 0, 1, 2), 40_control.md R143. -/
  | skip (cond : BitVec 2) (n8 : BitVec 8)
  /-- MOV Xd, Xs, 40_control.md R145. -/
  | mov (xd xs : XReg)
  /-- LDKH Xd, #imm16, 40_control.md R146. -/
  | ldkh (xd : XReg) (imm16 : BitVec 16)
  /-- FADD Xd, Xs, Xt, 41_arith.md R160. -/
  | fadd (xd xs xt : XReg)
  /-- FSUB Xd, Xs, Xt, 41_arith.md R161. -/
  | fsub (xd xs xt : XReg)
  /-- FMUL Xd, Xs, Xt, 41_arith.md R162. -/
  | fmul (xd xs xt : XReg)
  /-- DLWR Cc, Xs, 42_delay.md R175. -/
  | dlwr (ch : Chan) (xs : XReg)
  /-- DLRD Xd, Cc, Xs, 42_delay.md R176. -/
  | dlrd (xd : XReg) (ch : Chan) (xs : XReg)
  /-- DLRDM Xd, Cc, 42_delay.md R177. -/
  | dlrdm (xd : XReg) (ch : Chan)
  /-- LFO Xd, Cc, 43_lfo.md R193. -/
  | lfo (xd : XReg) (ch : Chan)
  /-- AP Xd, Cc, Xs, 44_allpass.md R201. -/
  | ap (xd : XReg) (ch : Chan) (xs : XReg)
  /-- APC Xd, Cc, Xs, #(n + 1), 44_allpass.md R202. -/
  | apc (xd : XReg) (ch : Chan) (xs : XReg) (n : BitVec 3)
  /-- DAMP Xd, Uu, Xs, 45_damper.md R211. -/
  | damp (xd : XReg) (u : DampIx) (xs : XReg)
  /-- HAD16, 46_hadamard.md R221. -/
  | had16
  /-- SCLIP Xd, Xs, 47_output.md R231. -/
  | sclip (xd xs : XReg)
  /-- WIDTH Xl, Xr, 47_output.md R235. -/
  | width (xl xr : XReg)
  /-- DCB Xd, Uu, Xs, 47_output.md R241. -/
  | dcb (xd : XReg) (u : DcbIx) (xs : XReg)
  /-- FDN Xd, Xs, 48_fdn.md R250. -/
  | fdn (xd xs : XReg)
deriving DecidableEq, Repr

end Sys2Proof
end

