-- ==== Sys2Proof/WellFormed.lean ====
section
/-! DEFINITION. Which terms of Instr are instructions of the machine: the two extra conditions of 30_encoding.md R115. -/

namespace Sys2Proof

/-- The extra conditions of 30_encoding.md R113 and R115: SKIP has cond != 3, APC has ch + n <= 31. -/
def Instr.wellFormed : Instr → Bool
  | .skip cond _ => cond != 3#2
  | .apc _ ch _ n => decide (ch.toNat + n.toNat ≤ 31)
  | .nop | .endFrame | .mov _ _ | .ldkh _ _ | .fadd _ _ _ | .fsub _ _ _ | .fmul _ _ _ | .dlwr _ _ | .dlrd _ _ _
  | .dlrdm _ _ | .lfo _ _ | .ap _ _ _ | .damp _ _ _ | .had16 | .sclip _ _ | .width _ _ | .dcb _ _ _ | .fdn _ _ => true

end Sys2Proof
end

