-- ==== Sys2Proof/Decode.lean ====
section
/-! DEFINITION. Decoding and encoding, from 30_encoding.md: the formats R111, the fields R112, the opcode map R115
and the illegal words R113, R116. Decoding is total and rejects by name. -/

namespace Sys2Proof

/-- Why a word or a list of bytes is no instruction (30_encoding.md R113, R116). -/
inductive Reject where
  /-- Opcode 0x14 to 0x3F. -/
  | reservedOpcode
  /-- A bit that the row's mask requires to be 0 is 1. -/
  | mustBeZero
  /-- SKIP with cond = 3. -/
  | skipCond
  /-- APC with ch + n > 31. -/
  | apcRange
  /-- Fewer than four bytes. -/
  | short
deriving DecidableEq, Repr

/-- The `n` bits of `w` from bit `lo` upwards (00_scope.md R7: `w[lo+n-1 : lo]`). -/
def wordField (w : Word) (lo n : Nat) : BitVec n := w.extractLsb' lo n

/-- `xd = w[25:22]` (30_encoding.md R112). -/
def fieldXd (w : Word) : XReg := wordField w 22 4
/-- `xs = w[21:18]` (30_encoding.md R112). -/
def fieldXs (w : Word) : XReg := wordField w 18 4
/-- `xt = w[17:14]` (30_encoding.md R112). -/
def fieldXt (w : Word) : XReg := wordField w 14 4
/-- `ch = w[13:9]` (30_encoding.md R112). -/
def fieldCh (w : Word) : Chan := wordField w 9 5

/-- The fields of `w` read as its opcode `w[31:26]` says; nothing for a reserved opcode (30_encoding.md R111, R112). -/
def readFields (w : Word) : Option Instr :=
  match (wordField w 26 6).toNat with
  | 0x00 => some .nop
  | 0x01 => some .endFrame
  | 0x02 => some (.skip (wordField w 24 2) (wordField w 0 8))
  | 0x03 => some (.mov (fieldXd w) (fieldXs w))
  | 0x04 => some (.ldkh (fieldXd w) (wordField w 0 16))
  | 0x05 => some (.fadd (fieldXd w) (fieldXs w) (fieldXt w))
  | 0x06 => some (.fsub (fieldXd w) (fieldXs w) (fieldXt w))
  | 0x07 => some (.fmul (fieldXd w) (fieldXs w) (fieldXt w))
  | 0x08 => some (.dlwr (fieldCh w) (fieldXs w))
  | 0x09 => some (.dlrd (fieldXd w) (fieldCh w) (fieldXs w))
  | 0x0A => some (.dlrdm (fieldXd w) (fieldCh w))
  | 0x0B => some (.lfo (fieldXd w) (fieldCh w))
  | 0x0C => some (.ap (fieldXd w) (fieldCh w) (fieldXs w))
  | 0x0D => some (.apc (fieldXd w) (fieldCh w) (fieldXs w) (wordField w 6 3))
  | 0x0E => some (.damp (fieldXd w) (wordField w 9 4) (fieldXs w))
  | 0x0F => some .had16
  | 0x10 => some (.sclip (fieldXd w) (fieldXs w))
  | 0x11 => some (.width (fieldXd w) (fieldXs w))
  | 0x12 => some (.dcb (fieldXd w) (wordField w 9 1) (fieldXs w))
  | 0x13 => some (.fdn (fieldXd w) (fieldXs w))
  | _ => none

/-- The `mask` column of 30_encoding.md R115 for an instruction's row. -/
def rowMask : Instr → Word
  | .nop | .endFrame | .had16 => 0xFFFFFFFF#32
  | .skip _ _ => 0xFCFFFF00#32
  | .mov _ _ | .sclip _ _ | .width _ _ | .fdn _ _ => 0xFC03FFFF#32
  | .ldkh _ _ => 0xFC3F0000#32
  | .fadd _ _ _ | .fsub _ _ _ | .fmul _ _ _ => 0xFC003FFF#32
  | .dlwr _ _ => 0xFFC3C1FF#32
  | .dlrd _ _ _ | .ap _ _ _ => 0xFC03C1FF#32
  | .dlrdm _ _ | .lfo _ _ => 0xFC3FC1FF#32
  | .apc _ _ _ _ => 0xFC03C03F#32
  | .damp _ _ _ => 0xFC03E1FF#32
  | .dcb _ _ _ => 0xFC03FDFF#32

/-- The `match` column of 30_encoding.md R115 for an instruction's row. -/
def rowMatch : Instr → Word
  | .nop => 0x00000000#32
  | .endFrame => 0x04000000#32
  | .skip _ _ => 0x08000000#32
  | .mov _ _ => 0x0C000000#32
  | .ldkh _ _ => 0x10000000#32
  | .fadd _ _ _ => 0x14000000#32
  | .fsub _ _ _ => 0x18000000#32
  | .fmul _ _ _ => 0x1C000000#32
  | .dlwr _ _ => 0x20000000#32
  | .dlrd _ _ _ => 0x24000000#32
  | .dlrdm _ _ => 0x28000000#32
  | .lfo _ _ => 0x2C000000#32
  | .ap _ _ _ => 0x30000000#32
  | .apc _ _ _ _ => 0x34000000#32
  | .damp _ _ _ => 0x38000000#32
  | .had16 => 0x3C000000#32
  | .sclip _ _ => 0x40000000#32
  | .width _ _ => 0x44000000#32
  | .dcb _ _ _ => 0x48000000#32
  | .fdn _ _ => 0x4C000000#32

/-- The name of the extra condition an ill-formed term breaks (30_encoding.md R113). -/
def brokenCondition : Instr → Reject
  | .apc _ _ _ _ => .apcRange
  | _ => .skipCond

/-- Decode one instruction word (30_encoding.md R110, R113, R115, R116). -/
def decodeWord (w : Word) : Except Reject Instr :=
  match readFields w with
  | none => .error .reservedOpcode
  | some i =>
    if w &&& rowMask i = rowMatch i then
      if i.wellFormed then .ok i else .error (brokenCondition i)
    else .error .mustBeZero

/-- The word whose byte lanes, from the lowest address up, are these (20_memory.md R83). -/
def wordOfBytes (b0 b1 b2 b3 : Byte) : Word := b3 ++ b2 ++ b1 ++ b0

/-- Byte lane `k` of a word: bits `8k+7 : 8k` (20_memory.md R83). -/
def byteLane (w : Word) (k : Nat) : Byte := wordField w (8 * k) 8

/-- Decode an instruction from bytes in address order, with the bytes that follow it. -/
def decodeBytes : List Byte → Except Reject (Instr × List Byte)
  | b0 :: b1 :: b2 :: b3 :: rest =>
    match decodeWord (wordOfBytes b0 b1 b2 b3) with
    | .ok i => .ok (i, rest)
    | .error e => .error e
  | _ => .error .short

/-- The word of a format A instruction (30_encoding.md R111). -/
def formatA (op : BitVec 6) (xd xs xt : XReg) (ch : BitVec 5) (n : BitVec 3) : Word :=
  op ++ xd ++ xs ++ xt ++ ch ++ n ++ 0#6

/-- The word of a format S instruction (30_encoding.md R111). -/
def formatS (op : BitVec 6) (cond : BitVec 2) (n8 : BitVec 8) : Word := op ++ cond ++ 0#16 ++ n8

/-- The word of a format K instruction (30_encoding.md R111). -/
def formatK (op : BitVec 6) (xd : XReg) (imm16 : BitVec 16) : Word := op ++ xd ++ 0#6 ++ imm16

/-- The word of an instruction, from the formats and fields of 30_encoding.md R111, R112 and the opcodes of R115.
It is defined on ill-formed terms too: their words are the illegal words of R113. -/
def encode : Instr → Word
  | .nop => formatA 0x00#6 0#4 0#4 0#4 0#5 0#3
  | .endFrame => formatA 0x01#6 0#4 0#4 0#4 0#5 0#3
  | .skip cond n8 => formatS 0x02#6 cond n8
  | .mov xd xs => formatA 0x03#6 xd xs 0#4 0#5 0#3
  | .ldkh xd imm16 => formatK 0x04#6 xd imm16
  | .fadd xd xs xt => formatA 0x05#6 xd xs xt 0#5 0#3
  | .fsub xd xs xt => formatA 0x06#6 xd xs xt 0#5 0#3
  | .fmul xd xs xt => formatA 0x07#6 xd xs xt 0#5 0#3
  | .dlwr ch xs => formatA 0x08#6 0#4 xs 0#4 ch 0#3
  | .dlrd xd ch xs => formatA 0x09#6 xd xs 0#4 ch 0#3
  | .dlrdm xd ch => formatA 0x0A#6 xd 0#4 0#4 ch 0#3
  | .lfo xd ch => formatA 0x0B#6 xd 0#4 0#4 ch 0#3
  | .ap xd ch xs => formatA 0x0C#6 xd xs 0#4 ch 0#3
  | .apc xd ch xs n => formatA 0x0D#6 xd xs 0#4 ch n
  | .damp xd u xs => formatA 0x0E#6 xd xs 0#4 (0#1 ++ u) 0#3
  | .had16 => formatA 0x0F#6 0#4 0#4 0#4 0#5 0#3
  | .sclip xd xs => formatA 0x10#6 xd xs 0#4 0#5 0#3
  | .width xl xr => formatA 0x11#6 xl xr 0#4 0#5 0#3
  | .dcb xd u xs => formatA 0x12#6 xd xs 0#4 (0#4 ++ u) 0#3
  | .fdn xd xs => formatA 0x13#6 xd xs 0#4 0#5 0#3

/-- The four bytes of an instruction in address order (20_memory.md R83). -/
def encodeBytes (i : Instr) : List Byte :=
  [byteLane (encode i) 0, byteLane (encode i) 1, byteLane (encode i) 2, byteLane (encode i) 3]

/-- The instruction word of the opcode table's numbering: the low `nbits` bits of `w`, the rest 0. -/
def tableWord (nbits w : Nat) : Word := BitVec.ofNat 32 (w % 2 ^ nbits)

/-- What the decoder reads from the four bytes that hold `tableWord nbits w`. -/
def decodeTableWord (nbits w : Nat) : Option Instr :=
  let v := tableWord nbits w
  match decodeBytes [byteLane v 0, byteLane v 1, byteLane v 2, byteLane v 3] with
  | .ok (i, _) => some i
  | .error _ => none

end Sys2Proof
end

