-- ==== Sys2Proof/Config.lean ====
section
/-! DEFINITION. What an implementation fixes, the layout of the host address map, and the one free value. -/

namespace Sys2Proof

/-- The default of the OPEN parameter SRAM_LOG2 (00_scope.md R6): the value State.reset starts from. The value in
force is the field `sramLog2` of State, so a statement over all states covers every size (log entry 3, DESIGN CHOICE). -/
def Config.sramLog2 : Nat := 20

/-- PROG_WORDS (00_scope.md R6). -/
def Config.progWords : Nat := 256

/-- Host byte address of program word 0 (20_memory.md R82). -/
def Config.progBase : Nat := 0x1000

/-- Host byte address of sine table entry 0 (20_memory.md R82). -/
def Config.sineBase : Nat := 0x2000

/-- Host byte address of sample word 0 (20_memory.md R82). -/
def Config.sramBase : Nat := 0x400000

/-- FREE VALUE: what a RAM word that nothing has written since the `resets`-th reset holds, at a host byte address
(70_reset_and_hazards.md R302, "an arbitrary value"). No body: nothing can be proved of it (log entries 4 and 5). -/
opaque Config.unwrittenWord (resets addr : Nat) : Word

end Sys2Proof
end

