-- ==== Sys2Proof/Machine/State.lean ====
section
/-! DEFINITION. The state of DUSK-CORE, complete as 10_state.md R30 lists it, as plain data, with the host's side of
the bus beside it; the reasons a step can stop; the state after reset (70_reset_and_hazards.md R300). -/

namespace Sys2Proof.Machine

/-- Why the machine stops. -/
inductive Fault where
  /-- Raised by the fetch of a program word that nothing has written since the last reset: "a fault of the model"
  (70_reset_and_hazards.md R302, 40_control.md R140). Safe: the model stops where the hardware would go on. -/
  | fetchUnwritten (pc : Nat)
deriving DecidableEq, Repr

/-- Why an instruction is refused. -/
inductive Refusal where
  /-- Raised by an arm of exec whose instruction has no meaning yet. Safe: nothing is claimed of it. No arm does so now. -/
  | notModelled (mnemonic : String)
deriving DecidableEq, Repr

/-- What the frame sequencer is doing. STATUS.BUSY (10_state.md R36) is 1 exactly when this is not `idle`. -/
inductive Seq where
  /-- Nothing: BUSY = 0. -/
  | idle
  /-- A PREPARE sequence (70_reset_and_hazards.md R303); `thenGo` when the same CTRL write also set GO (10_state.md R35). -/
  | preparing (thenGo : Bool)
  /-- A frame (40_control.md R140). -/
  | running
deriving DecidableEq, Repr

/-- What the outside world does to the block (80_host_interface.md R330, 70_reset_and_hazards.md R300). Log entry 1. -/
inductive HostEvent where
  /-- A bus read of `bits` bits at a byte address (20_memory.md R81). -/
  | read (addr : Word) (bits : Nat)
  /-- A bus write of `bits` bits at a byte address (20_memory.md R81). -/
  | write (addr : Word) (bits : Nat) (data : Word)
  /-- Reset, asynchronous to everything the block does (70_reset_and_hazards.md R300). -/
  | reset
  /-- The host does nothing for the moment: the block takes one step. -/
  | pass
deriving DecidableEq, Repr

/-- One channel block CH[j] (10_state.md R50 to R58). -/
structure Channel where
  /-- DL_BASE, R51. -/
  dlBase : Word
  /-- DL_LOG2, R52. -/
  dlLog2 : BitVec 5
  /-- DL_CUR, R53. -/
  dlCur : Word
  /-- DLEN, R54. -/
  dlen : Word
  /-- LFO_PH, R55. -/
  lfoPh : Word
  /-- LFO_INC, R56. -/
  lfoInc : Word
  /-- LFO_DEPTH, R57. -/
  lfoDepth : Word
  /-- AP_G, R58. -/
  apG : Word
deriving DecidableEq, Repr

/-- One damper block DMP[u] (10_state.md R60 to R64). -/
structure Damper where
  /-- GLOW, R61. -/
  glow : Word
  /-- GHIGH, R62. -/
  ghigh : Word
  /-- XC, R63. -/
  xc : Word
  /-- LP, R64. -/
  lp : Word
deriving DecidableEq, Repr

/-- One DC-blocker block DCB[u] (10_state.md R65 to R68). -/
structure DcBlocker where
  /-- R, R66. -/
  r : Word
  /-- X1, R67. -/
  x1 : Word
  /-- Y1, R68. -/
  y1 : Word
deriving DecidableEq, Repr

/-- The bytes of the program RAM and the sample RAM that hold something to list, each at its host byte address
(20_memory.md R82, R83), addresses rising. `Memory.wf` (Machine/Memory.lean) is the canonical form. -/
abbrev Memory := List Host.Cell

/-- The architectural state (10_state.md R30), and after it the model's own three fields. -/
structure State where
  /-- X0..X15, R31. -/
  x : Vector Word 16
  /-- The frame sequencer's pc, an integer, R32. -/
  pc : Nat
  /-- What the sequencer does; STATUS.BUSY, R36. -/
  seq : Seq
  /-- CTRL.FREEZE, R35. -/
  freeze : Bool
  /-- STATUS.PREPARED, R36. -/
  prepared : Bool
  /-- STATUS.DONE, R36. -/
  done : Bool
  /-- STATUS.ILL, R36. -/
  ill : Bool
  /-- STATUS.BUSERR, R36. -/
  buserr : Bool
  /-- IRQEN.DONE_IE, R37. -/
  doneIe : Bool
  /-- IRQEN.ILL_IE, R37. -/
  illIe : Bool
  /-- IRQEN.BUSERR_IE, R37. -/
  buserrIe : Bool
  /-- FRAMES, R38. -/
  frames : Word
  /-- ILL_PC, R39. -/
  illPc : BitVec 8
  /-- ILL_WORD, R39. -/
  illWord : Word
  /-- BUSERR_ADDR, R40. -/
  buserrAddr : Word
  /-- WIDTH, R42. -/
  width : Word
  /-- BIAS, R43. -/
  bias : Word
  /-- MAKEUP, R44. -/
  makeup : Word
  /-- TAP_IDX_L, R45. -/
  tapIdxL : Word
  /-- TAP_IDX_R, R45. -/
  tapIdxR : Word
  /-- TAP_SGN bits 15:0, R46. -/
  tapSgn : BitVec 16
  /-- BSIGN bit 0, R47. -/
  bsign : Bool
  /-- CH[0..31], R50. -/
  ch : Vector Channel 32
  /-- DMP[0..15], R60. -/
  dmp : Vector Damper 16
  /-- DCB[0..1], R65. -/
  dcb : Vector DcBlocker 2
  /-- The program RAM, R70, and the sample RAM, R71. -/
  mem : Memory
  /-- SRAM_LOG2 (00_scope.md R6), read in PARAMS bits 4:0 (R41). No step changes it. Log entry 3. -/
  sramLog2 : Nat
  /-- The model's own: the host events not yet taken, oldest first. Log entry 1. -/
  inbox : List HostEvent
  /-- The model's own: the words returned to host reads, oldest first. Log entry 14. -/
  replies : List Word
  /-- The model's own: how many resets there have been, which names the RAMs' unspecified contents. Log entry 4. -/
  resets : Nat
deriving DecidableEq, Repr

/-- A channel block after reset (10_state.md R51 to R58): the reset layout is 32 equal disjoint regions (R301). -/
def Channel.reset (sramLog2 j : Nat) : Channel where
  dlBase := BitVec.ofNat 32 (j * 2 ^ (sramLog2 - 5))
  dlLog2 := BitVec.ofNat 5 (sramLog2 - 5)
  dlCur := 0#32
  dlen := 0#32
  lfoPh := 0#32
  lfoInc := 0#32
  lfoDepth := 0#32
  apG := 0#32

/-- A damper block after reset (10_state.md R61 to R64). -/
def Damper.reset : Damper := { glow := 0#32, ghigh := 0#32, xc := 0#32, lp := 0#32 }

/-- A DC-blocker block after reset (10_state.md R66 to R68): R = RNE32(0.995). -/
def DcBlocker.reset : DcBlocker := { r := 0x3F7EB852#32, x1 := 0#32, y1 := 0#32 }

/-- The state after reset (70_reset_and_hazards.md R300) of a block whose sample RAM has 2^sramLog2 words. The RAMs
are unspecified (R302): nothing is listed. The model's own fields start empty (log entries 1, 4, 14). -/
def State.resetWith (sramLog2 : Nat) : State where
  x := Vector.replicate 16 0#32
  pc := 0
  seq := .idle
  freeze := false
  prepared := false
  done := false
  ill := false
  buserr := false
  doneIe := false
  illIe := false
  buserrIe := false
  frames := 0#32
  illPc := 0#8
  illWord := 0#32
  buserrAddr := 0#32
  width := 0x3F800000#32
  bias := 0x21800000#32
  makeup := 0x3F800000#32
  tapIdxL := 0x76543210#32
  tapIdxR := 0xFEDCBA98#32
  tapSgn := 0#16
  bsign := false
  ch := Vector.ofFn fun j => Channel.reset sramLog2 j.val
  dmp := Vector.replicate 16 Damper.reset
  dcb := Vector.replicate 2 DcBlocker.reset
  mem := []
  sramLog2 := sramLog2
  inbox := []
  replies := []
  resets := 0

/-- The state after reset with the default SRAM_LOG2 (00_scope.md R6). -/
def State.reset : State := State.resetWith Config.sramLog2

end Sys2Proof.Machine
end

