-- ==== Sys2Proof/Machine/Memory.lean ====
section
/-! DEFINITION. Memory: the canonical list of bytes at host addresses, what an unlisted address reads as, and reading
and writing bytes and little-endian words (20_memory.md R82, R83; 70_reset_and_hazards.md R302, R303). -/

namespace Sys2Proof.Machine

/-- What a byte no cell lists reads as. Sample RAM after a PREPARE: zero (R303). Otherwise nothing has written it since
reset and it has no value (R302, log entry 4). -/
def Memory.unlisted (prepared : Bool) (a : Nat) : Option Byte :=
  if prepared = true ∧ Config.sramBase ≤ a then some 0#8 else none

/-- The byte at host address `a`; nothing when it has not been written since reset. -/
def Memory.read (prepared : Bool) : Memory → Nat → Option Byte
  | [], a => Memory.unlisted prepared a
  | c :: m, a => if a = c.1 then some c.2 else Memory.read prepared m a

/-- List byte `v` at address `a`, keeping the addresses rising. -/
def Memory.insert (a : Nat) (v : Byte) : Memory → Memory
  | [] => [(a, v)]
  | c :: m => if a < c.1 then (a, v) :: c :: m else if a = c.1 then (a, v) :: m else c :: Memory.insert a v m

/-- Take address `a` off the list. -/
def Memory.erase (a : Nat) : Memory → Memory
  | [] => []
  | c :: m => if a = c.1 then Memory.erase a m else c :: Memory.erase a m

/-- Write one byte: a byte equal to what the unlisted address reads as is not listed. -/
def Memory.write (prepared : Bool) (m : Memory) (a : Nat) (v : Byte) : Memory :=
  if Memory.unlisted prepared a = some v then Memory.erase a m else Memory.insert a v m

/-- The word whose lowest byte is at `a`; nothing when one of its bytes has no value. -/
def Memory.readWord (prepared : Bool) (m : Memory) (a : Nat) : Option Word :=
  match Memory.read prepared m a, Memory.read prepared m (a + 1), Memory.read prepared m (a + 2),
    Memory.read prepared m (a + 3) with
  | some b0, some b1, some b2, some b3 => some (wordOfBytes b0 b1 b2 b3)
  | _, _, _, _ => none

/-- Write the four byte lanes of a word. -/
def Memory.writeWord (prepared : Bool) (m : Memory) (a : Nat) (v : Word) : Memory :=
  Memory.write prepared
    (Memory.write prepared
      (Memory.write prepared (Memory.write prepared m a (byteLane v 0)) (a + 1) (byteLane v 1))
      (a + 2) (byteLane v 2))
    (a + 3) (byteLane v 3)

/-- What is left when PREPARE clears the sample RAM (R303): the program RAM's bytes. -/
def Memory.clearSamples (m : Memory) : Memory := m.filter fun c => decide (c.1 < Config.sramBase)

/-- The canonical form: addresses strictly rising, and no byte listed that an unlisted address reads as. -/
def Memory.wf (prepared : Bool) (m : Memory) : Bool :=
  decide ((m.map Prod.fst).Pairwise (· < ·)) && m.all fun c => decide (Memory.unlisted prepared c.1 ≠ some c.2)

/-- Whether a host byte address lies in the program RAM or the sample RAM (20_memory.md R82). -/
def Memory.inRam (sramLog2 a : Nat) : Bool :=
  (decide (Config.progBase ≤ a) && decide (a < Config.progBase + 4 * Config.progWords)) ||
    (decide (Config.sramBase ≤ a) && decide (a < Config.sramBase + 4 * 2 ^ sramLog2))

end Sys2Proof.Machine
end

