-- ==== Sys2Proof/Machine/Ops.lean ====
section
/-! DEFINITION. The named operations over registers and memory, the end of a frame, the illegal instruction (the one
exception of the block, 60_exceptions.md R272) and the frame start that is the only way on after it (R275), and what
PREPARE clears (70_reset_and_hazards.md R303). -/

namespace Sys2Proof.Machine

/-- What executing an instruction answers. -/
abbrev Answer := Host.Outcome State Fault Refusal

/-! ## Registers -/

/-- `X[r]` (00_scope.md R8, 10_state.md R31). -/
def State.getX (s : State) (r : XReg) : Word := s.x[r.toNat]

/-- `X[r] <- v` (00_scope.md R8, 10_state.md R31: none is hardwired). -/
def State.setX (s : State) (r : XReg) (v : Word) : State := { s with x := s.x.set r.toNat v }

/-- `CH[j]` (10_state.md R50). -/
def State.getCh (s : State) (j : Chan) : Channel := s.ch[j.toNat]

/-- Replace the block `CH[j]`. -/
def State.setCh (s : State) (j : Chan) (c : Channel) : State := { s with ch := s.ch.set j.toNat c }

/-- `DMP[u]` (10_state.md R60). -/
def State.getDmp (s : State) (u : DampIx) : Damper := s.dmp[u.toNat]

/-- Replace the block `DMP[u]`. -/
def State.setDmp (s : State) (u : DampIx) (d : Damper) : State := { s with dmp := s.dmp.set u.toNat d }

/-- `DCB[u]` (10_state.md R65). -/
def State.getDcb (s : State) (u : DcbIx) : DcBlocker := s.dcb[u.toNat]

/-- Replace the block `DCB[u]`. -/
def State.setDcb (s : State) (u : DcbIx) (d : DcBlocker) : State := { s with dcb := s.dcb.set u.toNat d }

/-- `pc <- pc + 1` (10_state.md R32). -/
def State.advance (s : State) : State := { s with pc := s.pc + 1 }

/-- STATUS.BUSY (10_state.md R36). -/
def State.busy (s : State) : Bool := decide (s.seq ≠ .idle)

/-! ## Memory -/

/-- The byte at a host byte address of the program RAM or the sample RAM; nothing when it has not been written. -/
def State.readByte (s : State) (a : Nat) : Option Byte := Memory.read s.prepared s.mem a

/-- The word at a host byte address of one of the RAMs; nothing when it has not been written. -/
def State.readWord (s : State) (a : Nat) : Option Word := Memory.readWord s.prepared s.mem a

/-- The word at a host byte address of one of the RAMs; a free value when it has not been written since reset
(70_reset_and_hazards.md R302, log entries 4 to 6). -/
def State.ramWord (s : State) (a : Nat) : Word := (s.readWord a).getD (Config.unwrittenWord s.resets a)

/-- Store a word at a host byte address of one of the RAMs. -/
def State.writeWord (s : State) (a : Nat) (v : Word) : State :=
  { s with mem := Memory.writeWord s.prepared s.mem a v }

/-- The host byte address of program word `i` (20_memory.md R82). -/
def progAddr (i : Nat) : Nat := Config.progBase + 4 * i

/-- The host byte address of sample word `w mod SRAM_WORDS` (20_memory.md R82, R89; 00_scope.md R9). -/
def State.sramAddr (s : State) (w : Nat) : Nat := Config.sramBase + 4 * (w % 2 ^ s.sramLog2)

/-- `PRead(i)` (00_scope.md R9); nothing when the word has not been written since reset. -/
def State.pRead (s : State) (i : Nat) : Option Word := s.readWord (progAddr i)

/-- `SRead(w)` (00_scope.md R9). -/
def State.sRead (s : State) (w : Nat) : Word := s.ramWord (s.sramAddr w)

/-- `SWrite(w, v)` (00_scope.md R9). -/
def State.sWrite (s : State) (w : Nat) (v : Word) : State := s.writeWord (s.sramAddr w) v

/-! ## Frames -/

/-- The end of a frame, normal or by abort (40_control.md R141): FRAMES counts, DONE is set, BUSY falls. -/
def State.endFrame (s : State) : State := { s with frames := s.frames + 1#32, done := true, seq := .idle }

/-- `raise IllegalInstruction(pc, w)` (60_exceptions.md R272): the first error is recorded, ILL is set, the frame ends. -/
def State.raiseIllegal (s : State) (w : Word) : State :=
  { s with
    illPc := if s.ill then s.illPc else BitVec.ofNat 8 s.pc
    illWord := if s.ill then s.illWord else w
    ill := true }.endFrame

/-- A frame starts at word 0 (40_control.md R140); after an abort this is the only return (60_exceptions.md R275). -/
def State.startFrame (s : State) : State := { s with seq := .running, pc := 0 }

/-- GO: a frame, or nothing at all while PREPARED = 0 (40_control.md R140). -/
def State.go (s : State) : State := if s.prepared then s.startFrame else s

/-! ## PREPARE -/

/-- Apply a function to every element. -/
def vecMap {α β : Type} {n : Nat} (f : α → β) (v : Vector α n) : Vector β n := Vector.ofFn fun i => f v[i.val]

/-- What the PREPARE sequence clears and sets, BUSY apart (70_reset_and_hazards.md R303). -/
def State.clearAudio (s : State) : State :=
  { s with
    mem := Memory.clearSamples s.mem
    ch := vecMap (fun c => { c with dlCur := 0#32 }) s.ch
    dmp := vecMap (fun d => { d with lp := 0#32 }) s.dmp
    dcb := vecMap (fun d => { d with x1 := 0#32, y1 := 0#32 }) s.dcb
    x := Vector.replicate 16 0#32
    bsign := false
    prepared := true }

/-- The whole PREPARE sequence, and then the frame when the same CTRL write set GO (R303; 10_state.md R35). -/
def State.finishPrepare (s : State) (thenGo : Bool) : State :=
  if thenGo then s.clearAudio.go else { s.clearAudio with seq := .idle }

end Sys2Proof.Machine
end

