-- ==== Sys2Proof/Machine/Lfo.lean ====
section
/-! DEFINITION. The oscillator: LfoSin, LfoStep and the instruction LFO (43_lfo.md R191 to R193). -/

namespace Sys2Proof.Machine

/-- `LfoSin(p)` (43_lfo.md R191): table index p[31:22], linear interpolation by p[21:0] / 2^22. -/
def lfoSin (p : Word) : Word :=
  let i0 := p.toNat / 2 ^ 22
  let i1 := (i0 + 1) % 1024
  let fr := fmul (i2f (p.toNat % 2 ^ 22)) frac22
  fadd (sineT i0) (fmul fr (fsub (sineT i1) (sineT i0)))

/-- The value `LfoStep(j)` returns (43_lfo.md R192). -/
def State.lfoOut (s : State) (j : Chan) : Word := fmul (lfoSin (s.getCh j).lfoPh) (s.getCh j).lfoDepth

/-- What `LfoStep(j)` leaves: the phase advanced mod 2^32 (43_lfo.md R192). -/
def State.lfoAdvance (s : State) (j : Chan) : State :=
  s.setCh j { s.getCh j with lfoPh := (s.getCh j).lfoPh + (s.getCh j).lfoInc }

/-- LFO (43_lfo.md R193): the phase is read, then advanced. -/
def execLfo (xd : XReg) (ch : Chan) (s : State) : Answer :=
  .next ((s.lfoAdvance ch).setX xd (s.lfoOut ch)).advance

end Sys2Proof.Machine
end

