-- ==== Sys2Proof/Machine/Delay.lean ====
section
/-! DEFINITION. The fractional delay lines: ring addressing, ring write, delay legalisation, the Catmull-Rom read, and
DLWR, DLRD, DLRDM (42_delay.md R170 to R177). -/

namespace Sys2Proof.Machine

/-- The ring size 2^k (10_state.md R52). -/
def Channel.size (c : Channel) : Nat := 2 ^ c.dlLog2.toNat

/-- The effective cursor `DL_CUR & mask` (10_state.md R53). -/
def Channel.cursor (c : Channel) : Nat := c.dlCur.toNat % c.size

/-- `(cur - m) & mask`, for every integer m (42_delay.md R170). -/
def Channel.slot (c : Channel) (m : Int) : Nat := (((c.cursor : Int) - m) % (c.size : Int)).toNat

/-- `Y(j, m)` (42_delay.md R170). -/
def State.tap (s : State) (j : Chan) (m : Int) : Word :=
  s.sRead ((s.getCh j).dlBase.toNat + (s.getCh j).slot m)

/-- The sample word index `DL_BASE + cur` that `DLWrite(j, v)` stores to, before the reduction mod SRAM_WORDS
(42_delay.md R171). -/
def State.ringWord (s : State) (j : Chan) : Nat := (s.getCh j).dlBase.toNat + (s.getCh j).cursor

/-- The channel with its cursor moved on, `(cur + 1) & mask` (42_delay.md R171). -/
def Channel.stepCursor (c : Channel) : Channel := { c with dlCur := BitVec.ofNat 32 ((c.cursor + 1) % c.size) }

/-- `DLWrite(j, v)` (42_delay.md R171): the pattern is stored unchanged and the cursor advances. -/
def State.dlWrite (s : State) (j : Chan) (v : Word) : State :=
  (s.sWrite (s.ringWord j) v).setCh j (s.getCh j).stepCursor

/-- DMAX = I2F(2^k - 3) (42_delay.md R172). -/
def Channel.dmax (c : Channel) : Word := i2f (c.size - 3)

/-- The delay clamped to [2.0, DMAX]; a NaN reads at 2.0 (42_delay.md R172). -/
def Channel.clampDelay (c : Channel) (d : Word) : Word :=
  if f32IsNaN d || flt d fTwo then fTwo else if flt c.dmax d then c.dmax else d

/-- The 4-point Catmull-Rom cubic in the order of 42_delay.md R173. DESIGN CHOICE (log entry 27): where R174's derived
properties do not follow from that order (a constant signal p where 5p rounds; a coefficient that overflows), R173 is
followed. -/
def catmullRom (p0 p1 p2 p3 t : Word) : Word :=
  let a := fsub p2 p0
  let b := fsub (fadd (fsub (fmul fTwo p0) (fmul fFive p1)) (fmul fFour p2)) p3
  let c := fadd (fmul fThree (fsub p1 p2)) (fsub p3 p0)
  let h := fmul c t
  let h := fadd b h
  let h := fmul h t
  let h := fadd a h
  let h := fmul h t
  let h := fmul fHalf h
  fadd p1 h

/-- `DLRead(j, d)` (42_delay.md R173). It writes no state. -/
def State.dlRead (s : State) (j : Chan) (d : Word) : Word :=
  let d' := (s.getCh j).clampDelay d
  let i : Nat := f32Floor d'
  let t := fsub d' (i2f i)
  catmullRom (s.tap j ((i : Int) - 1)) (s.tap j i) (s.tap j ((i : Int) + 1)) (s.tap j ((i : Int) + 2)) t

/-- The modulated read of DLRDM, AP and FDN: `DLRead(j, fadd(DLEN, m))` with m what LfoStep returns
(42_delay.md R177, 48_fdn.md R251). LfoStep changes no register the read uses. -/
def State.modRead (s : State) (j : Chan) : Word := s.dlRead j (fadd (s.getCh j).dlen (s.lfoOut j))

/-- DLWR (42_delay.md R175). -/
def execDlwr (ch : Chan) (xs : XReg) (s : State) : Answer := .next (s.dlWrite ch (s.getX xs)).advance

/-- DLRD (42_delay.md R176). -/
def execDlrd (xd : XReg) (ch : Chan) (xs : XReg) (s : State) : Answer :=
  .next (s.setX xd (s.dlRead ch (s.getX xs))).advance

/-- DLRDM (42_delay.md R177). -/
def execDlrdm (xd : XReg) (ch : Chan) (s : State) : Answer :=
  .next ((s.lfoAdvance ch).setX xd (s.modRead ch)).advance

end Sys2Proof.Machine
end

