-- ==== Sys2Proof/Machine/Operands.lean ====
section
/-! DEFINITION. The operand forms beyond a plain register, channel, damper or DC-blocker index: the SKIP condition
and distance, the LDKH constant, the channels of an APC, FDN's second output register (30_encoding.md R112). -/

namespace Sys2Proof.Machine

/-- Whether a SKIP with this condition is taken (30_encoding.md R112, 40_control.md R143); cond 3 is illegal. -/
def skipTaken (cond : BitVec 2) (freeze : Bool) : Bool :=
  match cond.toNat with
  | 0 => true
  | 1 => freeze
  | 2 => !freeze
  | _ => false

/-- The pc after a SKIP (40_control.md R143). -/
def skipTarget (pc : Nat) (n8 : BitVec 8) (taken : Bool) : Nat := if taken then pc + 1 + n8.toNat else pc + 1

/-- `{imm16, 0x0000}` (30_encoding.md R112, 40_control.md R146). -/
def highHalf (imm16 : BitVec 16) : Word := imm16 ++ 0#16

/-- The channels ch, ch + 1, .., ch + n of an APC, in increasing order (44_allpass.md R202). -/
def apcChannels (ch : Chan) (n : BitVec 3) : List Chan :=
  (List.range (n.toNat + 1)).map fun k => ch + BitVec.ofNat 5 k

/-- FDN's right output register, (xd + 1) mod 16 (48_fdn.md R250). -/
def fdnRight (xd : XReg) : XReg := xd + 1#4

end Sys2Proof.Machine
end

