-- ==== Sys2Proof/Machine/Allpass.lean ====
section
/-! DEFINITION. The modulated Schroeder allpass section and AP, APC (44_allpass.md R200 to R202). -/

namespace Sys2Proof.Machine

/-- `v = x + g * dly`, the value an allpass section stores (44_allpass.md R200). -/
def State.apStored (s : State) (j : Chan) (x : Word) : Word := fadd x (fmul (s.getCh j).apG (s.modRead j))

/-- `y = dly - g * v`, the value an allpass section returns (44_allpass.md R200; with g = +0: log entry 29). -/
def State.apOut (s : State) (j : Chan) (x : Word) : Word :=
  fsub (s.modRead j) (fmul (s.getCh j).apG (s.apStored j x))

/-- What `APSect(j, x)` leaves: the phase advanced, then v stored and the cursor advanced (44_allpass.md R200). -/
def State.apNext (s : State) (j : Chan) (x : Word) : State := (s.lfoAdvance j).dlWrite j (s.apStored j x)

/-- The sections of a cascade in order, the output of one the input of the next (44_allpass.md R202). -/
def State.apCascade (s : State) : List Chan → Word → Word × State
  | [], x => (x, s)
  | j :: js, x => (s.apNext j x).apCascade js (s.apOut j x)

/-- AP (44_allpass.md R201). -/
def execAp (xd : XReg) (ch : Chan) (xs : XReg) (s : State) : Answer :=
  .next ((s.apNext ch (s.getX xs)).setX xd (s.apOut ch (s.getX xs))).advance

/-- APC (44_allpass.md R202); a term with ch + n > 31 stands for an illegal word, which aborts the frame
(30_encoding.md R113, R116). -/
def execApc (xd : XReg) (ch : Chan) (xs : XReg) (n : BitVec 3) (s : State) : Answer :=
  if ch.toNat + n.toNat ≤ 31 then
    let r := s.apCascade (apcChannels ch n) (s.getX xs)
    .next (r.2.setX xd r.1).advance
  else .next (s.raiseIllegal (encode (.apc xd ch xs n)))

end Sys2Proof.Machine
end

