-- ==== Sys2Proof/Machine/Arith.lean ====
section
/-! DEFINITION. FADD, FSUB, FMUL (41_arith.md R160 to R162). -/

namespace Sys2Proof.Machine

/-- `X[xd] <- f(X[xs], X[xt])`, both sources read first; then pc + 1 (30_encoding.md R114). -/
def State.binary (s : State) (f : Word → Word → Word) (xd xs xt : XReg) : State :=
  (s.setX xd (f (s.getX xs) (s.getX xt))).advance

/-- FADD (41_arith.md R160). -/
def execFadd (xd xs xt : XReg) (s : State) : Answer := .next (s.binary fadd xd xs xt)

/-- FSUB (41_arith.md R161). -/
def execFsub (xd xs xt : XReg) (s : State) : Answer := .next (s.binary fsub xd xs xt)

/-- FMUL (41_arith.md R162). -/
def execFmul (xd xs xt : XReg) (s : State) : Answer := .next (s.binary fmul xd xs xt)

end Sys2Proof.Machine
end

