-- ==== Sys2Proof/Machine/Control.lean ====
section
/-! DEFINITION. The control instructions and moves: NOP, END, SKIP, MOV, LDKH (40_control.md R142 to R146). -/

namespace Sys2Proof.Machine

/-- NOP (40_control.md R144). -/
def execNop (s : State) : Answer := .next s.advance

/-- END: the frame ends normally, pc is not advanced (40_control.md R142). -/
def execEnd (s : State) : Answer := .next s.endFrame

/-- SKIP, SKIP.F, SKIP.NF (40_control.md R143); the term with cond = 3 stands for an illegal word, which aborts the
frame (30_encoding.md R116). -/
def execSkip (cond : BitVec 2) (n8 : BitVec 8) (s : State) : Answer :=
  if cond = 3#2 then .next (s.raiseIllegal (encode (.skip cond n8)))
  else .next { s with pc := skipTarget s.pc n8 (skipTaken cond s.freeze) }

/-- MOV: all 32 bits, unchanged (40_control.md R145). -/
def execMov (xd xs : XReg) (s : State) : Answer := .next (s.setX xd (s.getX xs)).advance

/-- LDKH (40_control.md R146). -/
def execLdkh (xd : XReg) (imm16 : BitVec 16) (s : State) : Answer := .next (s.setX xd (highHalf imm16)).advance

end Sys2Proof.Machine
end

