-- ==== Sys2Proof/Machine/Damp.lean ====
section
/-! DEFINITION. The two-band damper and DAMP (45_damper.md R210, R211). -/

namespace Sys2Proof.Machine

/-- `lp`, the one-pole crossover lowpass (45_damper.md R210; with XC = 1 or 0: log entry 29). -/
def Damper.low (d : Damper) (x : Word) : Word := fadd d.lp (fmul d.xc (fsub x d.lp))

/-- `y`, the two bands weighted by their gains (45_damper.md R210). -/
def Damper.out (d : Damper) (x : Word) : Word :=
  fadd (fmul d.glow (d.low x)) (fmul d.ghigh (fsub x (d.low x)))

/-- The damper after the input x: LP <- lp (45_damper.md R210). -/
def Damper.step (d : Damper) (x : Word) : Damper := { d with lp := d.low x }

/-- DAMP (45_damper.md R211). -/
def execDamp (xd : XReg) (u : DampIx) (xs : XReg) (s : State) : Answer :=
  .next ((s.setDmp u ((s.getDmp u).step (s.getX xs))).setX xd ((s.getDmp u).out (s.getX xs))).advance

end Sys2Proof.Machine
end

