-- ==== Sys2Proof/Machine/Hadamard.lean ====
section
/-! DEFINITION. The 16-point Walsh-Hadamard mixer FWHT16 and HAD16 (46_hadamard.md R220, R221). -/

namespace Sys2Proof.Machine

/-- Element `i` (indices are below 16 wherever it is used). -/
def at16 (v : Vector Word 16) (i : Nat) : Word := v[i % 16]'(Nat.mod_lt i (by decide))

/-- Replace element `i` (indices are below 16 wherever it is used). -/
def set16 (v : Vector Word 16) (i : Nat) (w : Word) : Vector Word 16 := v.set (i % 16) w (Nat.mod_lt i (by decide))

/-- The 1/sqrt(16) folded into the last stage, h = 8 (46_hadamard.md R220). -/
def foldScale (h : Nat) (w : Word) : Word := if h = 8 then fmul w fQuarter else w

/-- One butterfly, in place: elements i and i + h become their scaled sum and difference (46_hadamard.md R220). -/
def butterfly (h : Nat) (v : Vector Word 16) (i : Nat) : Vector Word 16 :=
  let a := at16 v i
  let b := at16 v (i + h)
  set16 (set16 v i (foldScale h (fadd a b))) (i + h) (foldScale h (fsub a b))

/-- The 8 butterflies of stage h: those i with i & h = 0 (46_hadamard.md R220). -/
def fwhtStage (v : Vector Word 16) (h : Nat) : Vector Word 16 :=
  ((List.range 16).filter fun i => i &&& h == 0).foldl (butterfly h) v

/-- `FWHT16(v)`: the stages h = 1, 2, 4, 8 in this order (46_hadamard.md R220). -/
def fwht16 (v : Vector Word 16) : Vector Word 16 := [1, 2, 4, 8].foldl fwhtStage v

/-- HAD16: the whole register file (46_hadamard.md R221). -/
def execHad16 (s : State) : Answer := .next { s with x := fwht16 s.x }.advance

end Sys2Proof.Machine
end

