-- ==== Sys2Proof/Machine/Output.lean ====
section
/-! DEFINITION. The output stage: SoftClip and SCLIP, Width and WIDTH, DCBlock and DCB (47_output.md R230 to R241). -/

namespace Sys2Proof.Machine

/-- The clamp of the soft clipper's input to [-3, 3]; a NaN passes (47_output.md R230). -/
def clipInput (x : Word) : Word := if flt fThree x then fThree else if flt x fNegThree then fNegThree else x

/-- `SoftClip(x)` (47_output.md R230). -/
def softClip (x : Word) : Word :=
  let c := clipInput x
  let x2 := fmul c c
  let num := fmul c (fadd f27 x2)
  let den := fadd f27 (fmul fNine x2)
  fdiv num den

/-- The mid signal M (47_output.md R234). -/
def widthMid (l r : Word) : Word := fmul (fadd l r) fHalf

/-- The scaled side signal S' (47_output.md R234). -/
def widthSide (w l r : Word) : Word := fmul (fmul (fsub l r) fHalf) w

/-- `y` of DCBlock (47_output.md R240; with R = +0: log entry 29). -/
def DcBlocker.out (d : DcBlocker) (x : Word) : Word := fadd (fsub x d.x1) (fmul d.r d.y1)

/-- The block after the input x: X1 <- x (bits unchanged), Y1 <- y (47_output.md R240). -/
def DcBlocker.step (d : DcBlocker) (x : Word) : DcBlocker := { d with x1 := x, y1 := d.out x }

/-- SCLIP (47_output.md R231). -/
def execSclip (xd xs : XReg) (s : State) : Answer := .next (s.setX xd (softClip (s.getX xs))).advance

/-- WIDTH (47_output.md R235): both read first, X[xd] written first, X[xs] second. DESIGN CHOICE (log entry 28): where
R235's corner case for xd = xs does not follow from its pseudocode (WIDTH an infinity; L + L overflowing; the sign of a
zero), the pseudocode is followed. -/
def execWidth (xl xr : XReg) (s : State) : Answer :=
  let m := widthMid (s.getX xl) (s.getX xr)
  let d := widthSide s.width (s.getX xl) (s.getX xr)
  .next ((s.setX xl (fadd m d)).setX xr (fsub m d)).advance

/-- DCB (47_output.md R241). -/
def execDcb (xd : XReg) (u : DcbIx) (xs : XReg) (s : State) : Answer :=
  .next ((s.setDcb u ((s.getDcb u).step (s.getX xs))).setX xd ((s.getDcb u).out (s.getX xs))).advance

end Sys2Proof.Machine
end

