-- ==== Sys2Proof/Machine/Fdn.lean ====
section
/-! DEFINITION. The FDN step (48_fdn.md R250 to R254). -/

namespace Sys2Proof.Machine

/-- An FDN line, 0..15; line i uses channel i and damper i (48_fdn.md R250). -/
abbrev Line := BitVec 4

/-- The lines in the order 0..15. -/
def fdnLines : List Line := (List.range 16).map (BitVec.ofNat 4)

/-- Line i's channel. -/
def lineChan (i : Line) : Chan := i.setWidth 5

/-- Step 1 for one line (48_fdn.md R251): the modulated read is kept in o, then the line's phase advances. -/
def fdnRead (p : Vector Word 16 × State) (i : Line) : Vector Word 16 × State :=
  (p.1.set i.toNat (p.2.modRead (lineChan i)), p.2.lfoAdvance (lineChan i))

/-- Step 1: the 16 modulated reads o, and the state with the 16 phases advanced (48_fdn.md R250). -/
def State.fdnReads (s : State) : Vector Word 16 × State :=
  fdnLines.foldl fdnRead (Vector.replicate 16 0#32, s)

/-- The bias of line i: +BIAS when (i & 1) XOR BSIGN = 0, else -BIAS (48_fdn.md R253). -/
def State.fdnBias (s : State) (i : Line) : Word := if i.getLsbD 0 = s.bsign then s.bias else fneg s.bias

/-- The value line i feeds back before the bias (48_fdn.md R252): the mixed value itself when frozen; else damped, with
the injection added on even lines and subtracted on odd ones. -/
def State.fdnFeedback (s : State) (inj : Word) (m : Vector Word 16) (i : Line) : Word :=
  if s.freeze then m[i.toNat]
  else
    let d := (s.getDmp i).out m[i.toNat]
    if i.getLsbD 0 then fsub d inj else fadd d inj

/-- The damper update of line i: none when frozen (48_fdn.md R252). -/
def State.fdnDamp (s : State) (m : Vector Word 16) (i : Line) : State :=
  if s.freeze then s else s.setDmp i ((s.getDmp i).step m[i.toNat])

/-- Step 3 for one line (48_fdn.md R250). -/
def fdnWrite (inj : Word) (m : Vector Word 16) (s : State) (i : Line) : State :=
  (s.fdnDamp m i).dlWrite (lineChan i) (fadd (s.fdnFeedback inj m i) (s.fdnBias i))

/-- Step 3: damping, injection, bias and write-back of the 16 lines in order (48_fdn.md R250). -/
def State.fdnWrites (s : State) (inj : Word) (m : Vector Word 16) : State := fdnLines.foldl (fdnWrite inj m) s

/-- The line of output tap k: `TAPS[4k+3 : 4k]` (10_state.md R45, 48_fdn.md R254). -/
def tapLine (taps : Word) (k : Nat) : Line := wordField taps (4 * k) 4

/-- One tap added to or subtracted from the sum (48_fdn.md R254). -/
def State.tapAdd (s : State) (o : Vector Word 16) (taps : Word) (base : Nat) (acc : Word) (k : Nat) : Word :=
  if s.tapSgn.getLsbD (base + k) then fsub acc o[(tapLine taps k).toNat] else fadd acc o[(tapLine taps k).toNat]

/-- One output of step 4: the 8 taps in increasing k, 1/sqrt(8), the soft clipper, the makeup gain (48_fdn.md R254;
its bound: log entry 29). -/
def State.fdnOutput (s : State) (o : Vector Word 16) (taps : Word) (base : Nat) : Word :=
  fmul (softClip (fmul ((List.range 8).foldl (s.tapAdd o taps base) 0#32) outNorm)) s.makeup

/-- FDN (48_fdn.md R250). -/
def execFdn (xd xs : XReg) (s : State) : Answer :=
  let inj := fmul (s.getX xs) fQuarter
  let r := s.fdnReads
  let t := r.2.fdnWrites inj (fwht16 r.1)
  let outL := s.fdnOutput r.1 s.tapIdxL 0
  let outR := s.fdnOutput r.1 s.tapIdxR 8
  .next { ((t.setX xd outL).setX (fdnRight xd) outR) with bsign := !s.bsign }.advance

end Sys2Proof.Machine
end

