-- ==== Sys2Proof/Machine/Dispatch.lean ====
section
/-! DEFINITION. One arm per instruction of 30_encoding.md R115. -/

namespace Sys2Proof.Machine

def exec (i : Instr) (s : State) : Host.Outcome State Fault Refusal :=
  match i with
  | .nop => Sys2Proof.Machine.execNop s
  | .endFrame => Sys2Proof.Machine.execEnd s
  | .skip cond n8 => Sys2Proof.Machine.execSkip cond n8 s
  | .mov xd xs => Sys2Proof.Machine.execMov xd xs s
  | .ldkh xd imm16 => Sys2Proof.Machine.execLdkh xd imm16 s
  | .fadd xd xs xt => Sys2Proof.Machine.execFadd xd xs xt s
  | .fsub xd xs xt => Sys2Proof.Machine.execFsub xd xs xt s
  | .fmul xd xs xt => Sys2Proof.Machine.execFmul xd xs xt s
  | .dlwr ch xs => Sys2Proof.Machine.execDlwr ch xs s
  | .dlrd xd ch xs => Sys2Proof.Machine.execDlrd xd ch xs s
  | .dlrdm xd ch => Sys2Proof.Machine.execDlrdm xd ch s
  | .lfo xd ch => Sys2Proof.Machine.execLfo xd ch s
  | .ap xd ch xs => Sys2Proof.Machine.execAp xd ch xs s
  | .apc xd ch xs n => Sys2Proof.Machine.execApc xd ch xs n s
  | .damp xd u xs => Sys2Proof.Machine.execDamp xd u xs s
  | .had16 => Sys2Proof.Machine.execHad16 s
  | .sclip xd xs => Sys2Proof.Machine.execSclip xd xs s
  | .width xl xr => Sys2Proof.Machine.execWidth xl xr s
  | .dcb xd u xs => Sys2Proof.Machine.execDcb xd u xs s
  | .fdn xd xs => Sys2Proof.Machine.execFdn xd xs s

end Sys2Proof.Machine
end

