-- ==== Sys2Proof/Machine/Flags.lean ====
section
/-! DEFINITION. The status and control bits as the host sees them. DUSK-CORE has no condition codes and no
floating-point flags (10_state.md R33); its bits are those of CTRL, STATUS and IRQEN (R35 to R37), and the interrupt
line computed from them (60_exceptions.md R276). -/

namespace Sys2Proof.Machine

/-- A word with bit `k` set to `b` and the rest 0. -/
def bitAt (k : Nat) (b : Bool) : Word := if b then BitVec.ofNat 32 (2 ^ k) else 0#32

/-- CTRL as read: FREEZE; PREPARE and GO read 0 (10_state.md R35). -/
def State.ctrlWord (s : State) : Word := bitAt 0 s.freeze

/-- STATUS as read (10_state.md R36). -/
def State.statusWord (s : State) : Word :=
  bitAt 0 s.busy ||| bitAt 1 s.prepared ||| bitAt 2 s.done ||| bitAt 3 s.ill ||| bitAt 4 s.buserr

/-- IRQEN as read (10_state.md R37). -/
def State.irqenWord (s : State) : Word := bitAt 2 s.doneIe ||| bitAt 3 s.illIe ||| bitAt 4 s.buserrIe

/-- A STATUS write: a 1 clears DONE, ILL, BUSERR; BUSY and PREPARED ignore it (10_state.md R36). -/
def State.writeStatus (s : State) (v : Word) : State :=
  { s with
    done := s.done && !v.getLsbD 2
    ill := s.ill && !v.getLsbD 3
    buserr := s.buserr && !v.getLsbD 4 }

/-- An IRQEN write (10_state.md R37). -/
def State.writeIrqen (s : State) (v : Word) : State :=
  { s with doneIe := v.getLsbD 2, illIe := v.getLsbD 3, buserrIe := v.getLsbD 4 }

/-- A CTRL write: FREEZE takes bit 0; bit 1 starts PREPARE, which runs before the frame bit 2 asks for
(10_state.md R35, 40_control.md R140; log entry 12). -/
def State.writeCtrl (s : State) (v : Word) : State :=
  let t := { s with freeze := v.getLsbD 0 }
  if v.getLsbD 1 then { t with seq := .preparing (v.getLsbD 2) }
  else if v.getLsbD 2 then t.go
  else t

/-- The interrupt line IRQ, a level (60_exceptions.md R276). -/
def State.irq (s : State) : Bool := (s.done && s.doneIe) || (s.ill && s.illIe) || (s.buserr && s.buserrIe)

/-- ID (10_state.md R41). -/
def idWord : Word := 0x44555301#32

/-- PARAMS: architecture version 1, log2 NCH = 5, log2 PROG_WORDS = 8, SRAM_LOG2 (10_state.md R41). -/
def State.paramsWord (s : State) : Word := 0x01050800#32 ||| (BitVec.ofNat 5 s.sramLog2).setWidth 32

end Sys2Proof.Machine
end

