-- ==== Sys2Proof/Machine/HostBus.lean ====
section
/-! DEFINITION. The host bus: the address map (20_memory.md R82), reads and writes of every register and RAM word, and
refused accesses (R84, R85). -/

namespace Sys2Proof.Machine

/-- A field of a channel block, in offset order (10_state.md R51 to R58). -/
inductive ChField where
  /-- Offset 0x00. -/
  | dlBase
  /-- Offset 0x04. -/
  | dlLog2
  /-- Offset 0x08. -/
  | dlCur
  /-- Offset 0x0C. -/
  | dlen
  /-- Offset 0x10. -/
  | lfoPh
  /-- Offset 0x14. -/
  | lfoInc
  /-- Offset 0x18. -/
  | lfoDepth
  /-- Offset 0x1C. -/
  | apG
deriving DecidableEq, Repr

/-- A field of a damper block (10_state.md R61 to R64). -/
inductive DmpField where
  /-- Offset 0x0. -/
  | glow
  /-- Offset 0x4. -/
  | ghigh
  /-- Offset 0x8. -/
  | xc
  /-- Offset 0xC. -/
  | lp
deriving DecidableEq, Repr

/-- A field of a DC-blocker block (10_state.md R66 to R68). -/
inductive DcbField where
  /-- Offset 0x0. -/
  | r
  /-- Offset 0x4. -/
  | x1
  /-- Offset 0x8. -/
  | y1
deriving DecidableEq, Repr

/-- What a mapped word address names (20_memory.md R82). -/
inductive Target where
  | ctrl | status | irqen | frames | illPc | illWord | id | params | width | bias | makeup | tapIdxL | tapIdxR | tapSgn
  | bsign | buserrAddr
  | xReg (i : XReg)
  | dcb (u : DcbIx) (f : DcbField)
  | dmp (u : DampIx) (f : DmpField)
  | ch (j : Chan) (f : ChField)
  | prog (i : Nat)
  | sine (k : Nat)
  | sram (w : Nat)
deriving DecidableEq, Repr

/-- The sixteen global registers, word 0 to 15 (20_memory.md R82). -/
def globalTarget (i : Nat) : Target :=
  match i with
  | 0 => .ctrl
  | 1 => .status
  | 2 => .irqen
  | 3 => .frames
  | 4 => .illPc
  | 5 => .illWord
  | 6 => .id
  | 7 => .params
  | 8 => .width
  | 9 => .bias
  | 10 => .makeup
  | 11 => .tapIdxL
  | 12 => .tapIdxR
  | 13 => .tapSgn
  | 14 => .bsign
  | _ => .buserrAddr

/-- The field at word `i` of a channel block (10_state.md R50). -/
def chField (i : Nat) : ChField :=
  match i with
  | 0 => .dlBase
  | 1 => .dlLog2
  | 2 => .dlCur
  | 3 => .dlen
  | 4 => .lfoPh
  | 5 => .lfoInc
  | 6 => .lfoDepth
  | _ => .apG

/-- The field at word `i` of a damper block (10_state.md R60). -/
def dmpField (i : Nat) : DmpField :=
  match i with
  | 0 => .glow
  | 1 => .ghigh
  | 2 => .xc
  | _ => .lp

/-- The field at word `i` of a DC-blocker block; offset 0xC is unmapped (10_state.md R65). -/
def dcbField (i : Nat) : Option DcbField :=
  match i with
  | 0 => some .r
  | 1 => some .x1
  | 2 => some .y1
  | _ => none

/-- The address map on word-aligned byte addresses (20_memory.md R82); nothing where it is unmapped. -/
def mapAligned (sramLog2 a : Nat) : Option Target :=
  if a < 0x40 then some (globalTarget (a / 4))
  else if a < 0x80 then some (.xReg (BitVec.ofNat 4 ((a - 0x40) / 4)))
  else if a < 0xA0 then (dcbField (a % 16 / 4)).map (.dcb (BitVec.ofNat 1 ((a - 0x80) / 16)))
  else if a < 0x100 then none
  else if a < 0x200 then some (.dmp (BitVec.ofNat 4 ((a - 0x100) / 16)) (dmpField (a % 16 / 4)))
  else if a < 0x400 then none
  else if a < 0x800 then some (.ch (BitVec.ofNat 5 ((a - 0x400) / 32)) (chField (a % 32 / 4)))
  else if a < 0x1000 then none
  else if a < 0x1400 then some (.prog ((a - 0x1000) / 4))
  else if a < 0x2000 then none
  else if a < 0x3000 then some (.sine ((a - 0x2000) / 4))
  else if a < 0x400000 then none
  else if a < 0x400000 + 4 * 2 ^ sramLog2 then some (.sram ((a - 0x400000) / 4))
  else none

/-- What a host access of `bits` bits at byte address `a` reaches; nothing when it is refused: unmapped, misaligned, or
not 32 bits wide (20_memory.md R81, R84). -/
def State.busTarget (s : State) (a : Word) (bits : Nat) : Option Target :=
  if bits = 32 ∧ a.toNat % 4 = 0 then mapAligned s.sramLog2 a.toNat else none

/-- A field of a channel block as read. -/
def Channel.readField (c : Channel) : ChField → Word
  | .dlBase => c.dlBase
  | .dlLog2 => c.dlLog2.setWidth 32
  | .dlCur => c.dlCur
  | .dlen => c.dlen
  | .lfoPh => c.lfoPh
  | .lfoInc => c.lfoInc
  | .lfoDepth => c.lfoDepth
  | .apG => c.apG

/-- A field of a damper block as read. -/
def Damper.readField (d : Damper) : DmpField → Word
  | .glow => d.glow
  | .ghigh => d.ghigh
  | .xc => d.xc
  | .lp => d.lp

/-- A field of a DC-blocker block as read. -/
def DcBlocker.readField (d : DcBlocker) : DcbField → Word
  | .r => d.r
  | .x1 => d.x1
  | .y1 => d.y1

/-- The word a host read of a mapped address returns (10_state.md R35 to R72); no read has a side effect
(20_memory.md R88). -/
def State.readTarget (s : State) : Target → Word
  | .ctrl => s.ctrlWord
  | .status => s.statusWord
  | .irqen => s.irqenWord
  | .frames => s.frames
  | .illPc => s.illPc.setWidth 32
  | .illWord => s.illWord
  | .id => idWord
  | .params => s.paramsWord
  | .width => s.width
  | .bias => s.bias
  | .makeup => s.makeup
  | .tapIdxL => s.tapIdxL
  | .tapIdxR => s.tapIdxR
  | .tapSgn => s.tapSgn.setWidth 32
  | .bsign => bitAt 0 s.bsign
  | .buserrAddr => s.buserrAddr
  | .xReg i => s.getX i
  | .dcb u f => (s.getDcb u).readField f
  | .dmp u f => (s.getDmp u).readField f
  | .ch j f => (s.getCh j).readField f
  | .prog i => s.ramWord (progAddr i)
  | .sine k => sineT k
  | .sram w => s.sRead w

/-- The low `k` bits of a written word, the RAZ/WI bits dropped. -/
def lowBits (k : Nat) (v : Word) : Word := BitVec.ofNat 32 (v.toNat % 2 ^ k)

/-- The value DL_LOG2 stores: `min(max(v[4:0], 3), SRAM_LOG2)` (10_state.md R52). -/
def legalLog2 (sramLog2 : Nat) (v : Word) : BitVec 5 := BitVec.ofNat 5 (min (max (v.toNat % 2 ^ 5) 3) sramLog2)

/-- A channel block after a host write to a field (10_state.md R51 to R58). -/
def Channel.writeField (sramLog2 : Nat) (c : Channel) (f : ChField) (v : Word) : Channel :=
  match f with
  | .dlBase => { c with dlBase := lowBits sramLog2 v }
  | .dlLog2 => { c with dlLog2 := legalLog2 sramLog2 v }
  | .dlCur => { c with dlCur := lowBits sramLog2 v }
  | .dlen => { c with dlen := v }
  | .lfoPh => { c with lfoPh := v }
  | .lfoInc => { c with lfoInc := v }
  | .lfoDepth => { c with lfoDepth := v }
  | .apG => { c with apG := v }

/-- A damper block after a host write to a field. -/
def Damper.writeField (d : Damper) (f : DmpField) (v : Word) : Damper :=
  match f with
  | .glow => { d with glow := v }
  | .ghigh => { d with ghigh := v }
  | .xc => { d with xc := v }
  | .lp => { d with lp := v }

/-- A DC-blocker block after a host write to a field. -/
def DcBlocker.writeField (d : DcBlocker) (f : DcbField) (v : Word) : DcBlocker :=
  match f with
  | .r => { d with r := v }
  | .x1 => { d with x1 := v }
  | .y1 => { d with y1 := v }

/-- The state after an accepted host write to a mapped address (10_state.md R35 to R72); read-only registers and the
sine table ignore it (20_memory.md R85). -/
def State.writeTarget (s : State) (t : Target) (v : Word) : State :=
  match t with
  | .ctrl => s.writeCtrl v
  | .status => s.writeStatus v
  | .irqen => s.writeIrqen v
  | .frames | .illPc | .illWord | .id | .params | .buserrAddr | .sine _ => s
  | .width => { s with width := v }
  | .bias => { s with bias := v }
  | .makeup => { s with makeup := v }
  | .tapIdxL => { s with tapIdxL := v }
  | .tapIdxR => { s with tapIdxR := v }
  | .tapSgn => { s with tapSgn := v.setWidth 16 }
  | .bsign => { s with bsign := v.getLsbD 0 }
  | .xReg i => s.setX i v
  | .dcb u f => s.setDcb u ((s.getDcb u).writeField f v)
  | .dmp u f => s.setDmp u ((s.getDmp u).writeField f v)
  | .ch j f => s.setCh j ((s.getCh j).writeField s.sramLog2 f v)
  | .prog i => s.writeWord (progAddr i) v
  | .sram w => s.sWrite w v

/-- A refused access sets BUSERR and records the first address (20_memory.md R84, 10_state.md R40). -/
def State.refuseAccess (s : State) (a : Word) : State :=
  { s with buserrAddr := if s.buserr then s.buserrAddr else a, buserr := true }

/-- Return a word to the host. -/
def State.reply (s : State) (v : Word) : State := { s with replies := s.replies ++ [v] }

/-- An accepted host read (20_memory.md R84, R88). -/
def State.hostRead (s : State) (a : Word) (bits : Nat) : State :=
  match s.busTarget a bits with
  | some t => s.reply (s.readTarget t)
  | none => (s.refuseAccess a).reply 0#32

/-- An accepted host write (20_memory.md R84, R85). -/
def State.hostWrite (s : State) (a : Word) (bits : Nat) (v : Word) : State :=
  match s.busTarget a bits with
  | some t => s.writeTarget t v
  | none => s.refuseAccess a

/-- Reset (70_reset_and_hazards.md R300): every register takes its reset value and the RAMs are unspecified anew; what
is outside the block, the host's pending events and the words it has read, stays (log entry 13). -/
def State.resetEvent (s : State) : State :=
  { State.resetWith s.sramLog2 with inbox := s.inbox, replies := s.replies, resets := s.resets + 1 }

end Sys2Proof.Machine
end

