-- ==== Sys2Proof/Machine/Sequencer.lean ====
section
/-! DEFINITION. What the next step does: a host event when there is one the block takes now (20_memory.md R86, R91),
else a step of the frame sequencer (40_control.md R140). Executing the fetched instruction is Step.lean's. -/

namespace Sys2Proof.Machine

/-- What the next step is. -/
inductive Action where
  /-- It leads to this state. -/
  | done (t : State)
  /-- It stops. -/
  | stop (f : Fault)
  /-- It executes this instruction in this state. -/
  | run (i : Instr) (t : State)
deriving DecidableEq, Repr

/-- The loop head of a frame (40_control.md R140): past the last word the frame ends normally; an unwritten word is the
model's fault (70_reset_and_hazards.md R302); an illegal word aborts the frame (60_exceptions.md R272). -/
def State.fetch (s : State) : Action :=
  if Config.progWords ≤ s.pc then .done s.endFrame
  else
    match s.pRead s.pc with
    | none => .stop (.fetchUnwritten s.pc)
    | some w =>
      match decodeWord w with
      | .error _ => .done (s.raiseIllegal w)
      | .ok i => .run i s

/-- One step of the frame sequencer; idle, it keeps its state (60_exceptions.md R281). -/
def State.sequence (s : State) : Action :=
  match s.seq with
  | .idle => .done s
  | .preparing thenGo => .done (s.finishPrepare thenGo)
  | .running => s.fetch

/-- Whether a host event waits: while BUSY = 1 every access but an aligned 32-bit read of STATUS does
(20_memory.md R84, R86; log entry 26). Reset never waits (70_reset_and_hazards.md R300). -/
def State.mustWait (s : State) : HostEvent → Bool
  | .read a bits => s.busy && !(decide (s.busTarget a bits = some .status))
  | .write _ _ _ => s.busy
  | .reset => false
  | .pass => false

/-- The state a host event leads to; `pass` is no access. -/
def State.takeEvent (s : State) : HostEvent → State
  | .read a bits => s.hostRead a bits
  | .write a bits v => s.hostWrite a bits v
  | .reset => s.resetEvent
  | .pass => s

/-- What the next step does (20_memory.md R86, R91). -/
def State.nextAction (s : State) : Action :=
  match s.inbox with
  | [] => s.sequence
  | .pass :: rest => { s with inbox := rest }.sequence
  | e :: rest => if s.mustWait e then s.sequence else .done ({ s with inbox := rest }.takeEvent e)

end Sys2Proof.Machine
end

