-- ==== Sys2Proof/Machine/Step.lean ====
section
/-! DEFINITION. One step of the machine, and the state in which a given instruction is the next one fetched. -/

namespace Sys2Proof.Machine

/-- One step: a host event, a sequencer action, or the execution of the instruction fetched (40_control.md R140). -/
def step (s : State) : Host.Outcome State Fault Refusal :=
  match s.nextAction with
  | .done t => .next t
  | .stop f => .fault f
  | .run i t => exec i t

/-- `s` with the instruction word of the opcode table's numbering stored where the next step fetches, and what the fetch
needs: no host event pending, PREPARE done, a frame running, the pc inside the program (log entry 15). -/
def State.withFetchWord (s : State) (nbits w : Nat) : State :=
  let t := if s.prepared then s else s.clearAudio
  let pc := if t.seq = .running ∧ t.pc < Config.progWords then t.pc else 0
  { t with inbox := [], seq := .running, pc := pc }.writeWord (progAddr pc) (tableWord nbits w)

end Sys2Proof.Machine
end

