-- ==== Sys2Proof/Safety.lean ====
section
/-! DEFINITION. The terms claims use: the value of a binary32 pattern and correct rounding (00_scope.md R11), the
legal states, the map of 20_memory.md R82 as the spec's ranges, and what an instruction leaves unchanged. -/

namespace Sys2Proof.Machine

/-! ## Values and rounding -/

/-- The rational number a finite value stands for; 0 for the others. -/
def FVal.toRat : FVal → ℚ
  | .fin s m e => (if s then -1 else 1) * (m : ℚ) * (2 : ℚ) ^ e
  | .nan => 0
  | .inf _ => 0

/-- The rational number a finite pattern stands for (00_scope.md R10). -/
def f32Value (a : Word) : ℚ := (f32Unpack a).toRat

/-- `r` is the finite pattern nearest to `v`, with the even significand of two equally near ones, and the sign of `v`
(00_scope.md R11: round to nearest, ties to even). -/
def F32Nearest (r : Word) (v : ℚ) : Prop :=
  f32IsFinite r = true ∧ f32Sign r = decide (v < 0) ∧
    ∀ c : Word, f32IsFinite c = true →
      |f32Value r - v| ≤ |f32Value c - v| ∧
        (|f32Value c - v| = |f32Value r - v| → f32Value c ≠ f32Value r → r.getLsbD 0 = false)

/-- `r` is the nonzero number `v` rounded to binary32: the nearest pattern, or from half a last place above the largest
finite number on, the infinity of its sign (00_scope.md R11). -/
def F32RoundsTo (r : Word) (v : ℚ) : Prop :=
  if |v| < 2 ^ 128 - 2 ^ 103 then F32Nearest r v else r = f32Inf (decide (v < 0))

/-! ## Legal states -/

/-- A channel block every bus write and every instruction leaves legal: DL_BASE and DL_CUR within the sample RAM's
index bits, DL_LOG2 between 3 and SRAM_LOG2 (10_state.md R51 to R53). -/
def Channel.Legal (sramLog2 : Nat) (c : Channel) : Prop :=
  c.dlBase.toNat < 2 ^ sramLog2 ∧ c.dlCur.toNat < 2 ^ sramLog2 ∧ 3 ≤ c.dlLog2.toNat ∧ c.dlLog2.toNat ≤ sramLog2

/-- The invariant of the machine. -/
structure State.Inv (s : State) : Prop where
  /-- SRAM_LOG2 is in its legal range (00_scope.md R6). -/
  size : 10 ≤ s.sramLog2 ∧ s.sramLog2 ≤ 24
  /-- 9 bits hold every pc (10_state.md R32). -/
  pcRange : s.pc ≤ 511
  /-- A frame runs only once PREPARED is set (40_control.md R140). -/
  ready : s.seq = .running → s.prepared = true
  /-- Every channel block is legal (10_state.md R51 to R53). -/
  channels : ∀ j : Chan, (s.getCh j).Legal s.sramLog2
  /-- The memory is in its canonical form. -/
  canonical : Memory.wf s.prepared s.mem = true
  /-- The memory lists only bytes of the two RAMs (20_memory.md R82). -/
  inRam : ∀ c ∈ s.mem, Memory.inRam s.sramLog2 c.1 = true

/-! ## The host address map -/

/-- The byte addresses at which 20_memory.md R82 maps a word, range by range as the table gives them. -/
def Mapped (sramLog2 a : Nat) : Prop :=
  (∃ i, i ≤ 15 ∧ a = 4 * i) ∨
  (∃ i, i ≤ 15 ∧ a = 0x40 + 4 * i) ∨
  (∃ u o, u ≤ 1 ∧ (o = 0 ∨ o = 4 ∨ o = 8) ∧ a = 0x80 + 0x10 * u + o) ∨
  (∃ u o, u ≤ 15 ∧ (o = 0 ∨ o = 4 ∨ o = 8 ∨ o = 0xC) ∧ a = 0x100 + 0x10 * u + o) ∨
  (∃ j f, j ≤ 31 ∧ f ≤ 7 ∧ a = 0x400 + 0x20 * j + 4 * f) ∨
  (∃ i, i ≤ 255 ∧ a = 0x1000 + 4 * i) ∨
  (∃ k, k ≤ 1023 ∧ a = 0x2000 + 4 * k) ∨
  (∃ w, w < 2 ^ sramLog2 ∧ a = 0x400000 + 4 * w)

/-- A bus access the block does not refuse: 32 bits wide, at a mapped address, which is then aligned
(20_memory.md R81, R84). -/
def Accepted (s : State) (a : Word) (bits : Nat) : Prop := bits = 32 ∧ Mapped s.sramLog2 a.toNat

/-- Every RAM byte outside the word at `a` is as before, the word holds `v`, and no other state has changed. -/
def StoresWord (s t : State) (a : Nat) (v : Word) : Prop :=
  t.readWord a = some v ∧ (∀ b, b < a ∨ a + 4 ≤ b → t.readByte b = s.readByte b) ∧ { t with mem := s.mem } = s

/-- `v` is what a host read of byte address `a` returns in state s: the map of 20_memory.md R82 with the layouts of
10_state.md R31 to R72. A RAM word that nothing has written since reset is not in it (70_reset_and_hazards.md R302). -/
def BusValue (s : State) (a : Nat) (v : Word) : Prop :=
  (a = 0x00 ∧ v = BitVec.ofNat 32 s.freeze.toNat) ∨
  (a = 0x04 ∧ v = BitVec.ofNat 32 ((decide (s.seq ≠ .idle)).toNat + 2 * s.prepared.toNat + 4 * s.done.toNat +
    8 * s.ill.toNat + 16 * s.buserr.toNat)) ∨
  (a = 0x08 ∧ v = BitVec.ofNat 32 (4 * s.doneIe.toNat + 8 * s.illIe.toNat + 16 * s.buserrIe.toNat)) ∨
  (a = 0x0C ∧ v = s.frames) ∨
  (a = 0x10 ∧ v = BitVec.ofNat 32 s.illPc.toNat) ∨
  (a = 0x14 ∧ v = s.illWord) ∨
  (a = 0x18 ∧ v = 0x44555301#32) ∨
  (a = 0x1C ∧ v = BitVec.ofNat 32 (2 ^ 24 * 1 + 2 ^ 16 * 5 + 2 ^ 8 * 8 + s.sramLog2 % 2 ^ 5)) ∨
  (a = 0x20 ∧ v = s.width) ∨
  (a = 0x24 ∧ v = s.bias) ∨
  (a = 0x28 ∧ v = s.makeup) ∨
  (a = 0x2C ∧ v = s.tapIdxL) ∨
  (a = 0x30 ∧ v = s.tapIdxR) ∨
  (a = 0x34 ∧ v = BitVec.ofNat 32 s.tapSgn.toNat) ∨
  (a = 0x38 ∧ v = BitVec.ofNat 32 s.bsign.toNat) ∨
  (a = 0x3C ∧ v = s.buserrAddr) ∨
  (∃ r : XReg, a = 0x40 + 4 * r.toNat ∧ v = s.getX r) ∨
  (∃ u : DcbIx, (a = 0x80 + 0x10 * u.toNat ∧ v = (s.getDcb u).r) ∨
    (a = 0x84 + 0x10 * u.toNat ∧ v = (s.getDcb u).x1) ∨ (a = 0x88 + 0x10 * u.toNat ∧ v = (s.getDcb u).y1)) ∨
  (∃ u : DampIx, (a = 0x100 + 0x10 * u.toNat ∧ v = (s.getDmp u).glow) ∨
    (a = 0x104 + 0x10 * u.toNat ∧ v = (s.getDmp u).ghigh) ∨ (a = 0x108 + 0x10 * u.toNat ∧ v = (s.getDmp u).xc) ∨
    (a = 0x10C + 0x10 * u.toNat ∧ v = (s.getDmp u).lp)) ∨
  (∃ j : Chan, (a = 0x400 + 0x20 * j.toNat ∧ v = (s.getCh j).dlBase) ∨
    (a = 0x404 + 0x20 * j.toNat ∧ v = BitVec.ofNat 32 (s.getCh j).dlLog2.toNat) ∨
    (a = 0x408 + 0x20 * j.toNat ∧ v = (s.getCh j).dlCur) ∨ (a = 0x40C + 0x20 * j.toNat ∧ v = (s.getCh j).dlen) ∨
    (a = 0x410 + 0x20 * j.toNat ∧ v = (s.getCh j).lfoPh) ∨ (a = 0x414 + 0x20 * j.toNat ∧ v = (s.getCh j).lfoInc) ∨
    (a = 0x418 + 0x20 * j.toNat ∧ v = (s.getCh j).lfoDepth) ∨ (a = 0x41C + 0x20 * j.toNat ∧ v = (s.getCh j).apG)) ∨
  (∃ i, i ≤ 255 ∧ a = 0x1000 + 4 * i ∧ s.readWord a = some v) ∨
  (∃ k, k ≤ 1023 ∧ a = 0x2000 + 4 * k ∧ v = sineT k) ∨
  (∃ w, w < 2 ^ s.sramLog2 ∧ a = 0x400000 + 4 * w ∧ s.readWord a = some v)

/-- A host write of `v` to byte address `a` that only stores takes s to t: the map of 20_memory.md R82 with the layouts
and the legalisation of 10_state.md R31 to R72. CTRL and STATUS, whose writes do more, are not in it. -/
def BusStore (s t : State) (a : Nat) (v : Word) : Prop :=
  (a = 0x08 ∧ t = { s with doneIe := v.getLsbD 2, illIe := v.getLsbD 3, buserrIe := v.getLsbD 4 }) ∨
  ((a = 0x0C ∨ a = 0x10 ∨ a = 0x14 ∨ a = 0x18 ∨ a = 0x1C ∨ a = 0x3C) ∧ t = s) ∨
  (a = 0x20 ∧ t = { s with width := v }) ∨
  (a = 0x24 ∧ t = { s with bias := v }) ∨
  (a = 0x28 ∧ t = { s with makeup := v }) ∨
  (a = 0x2C ∧ t = { s with tapIdxL := v }) ∨
  (a = 0x30 ∧ t = { s with tapIdxR := v }) ∨
  (a = 0x34 ∧ t = { s with tapSgn := BitVec.ofNat 16 v.toNat }) ∨
  (a = 0x38 ∧ t = { s with bsign := v.getLsbD 0 }) ∨
  (∃ r : XReg, a = 0x40 + 4 * r.toNat ∧ t = s.setX r v) ∨
  (∃ u : DcbIx, (a = 0x80 + 0x10 * u.toNat ∧ t = s.setDcb u { s.getDcb u with r := v }) ∨
    (a = 0x84 + 0x10 * u.toNat ∧ t = s.setDcb u { s.getDcb u with x1 := v }) ∨
    (a = 0x88 + 0x10 * u.toNat ∧ t = s.setDcb u { s.getDcb u with y1 := v })) ∨
  (∃ u : DampIx, (a = 0x100 + 0x10 * u.toNat ∧ t = s.setDmp u { s.getDmp u with glow := v }) ∨
    (a = 0x104 + 0x10 * u.toNat ∧ t = s.setDmp u { s.getDmp u with ghigh := v }) ∨
    (a = 0x108 + 0x10 * u.toNat ∧ t = s.setDmp u { s.getDmp u with xc := v }) ∨
    (a = 0x10C + 0x10 * u.toNat ∧ t = s.setDmp u { s.getDmp u with lp := v })) ∨
  (∃ j : Chan,
    (a = 0x400 + 0x20 * j.toNat ∧
      t = s.setCh j { s.getCh j with dlBase := BitVec.ofNat 32 (v.toNat % 2 ^ s.sramLog2) }) ∨
    (a = 0x404 + 0x20 * j.toNat ∧
      t = s.setCh j { s.getCh j with dlLog2 := BitVec.ofNat 5 (min (max (v.toNat % 2 ^ 5) 3) s.sramLog2) }) ∨
    (a = 0x408 + 0x20 * j.toNat ∧
      t = s.setCh j { s.getCh j with dlCur := BitVec.ofNat 32 (v.toNat % 2 ^ s.sramLog2) }) ∨
    (a = 0x40C + 0x20 * j.toNat ∧ t = s.setCh j { s.getCh j with dlen := v }) ∨
    (a = 0x410 + 0x20 * j.toNat ∧ t = s.setCh j { s.getCh j with lfoPh := v }) ∨
    (a = 0x414 + 0x20 * j.toNat ∧ t = s.setCh j { s.getCh j with lfoInc := v }) ∨
    (a = 0x418 + 0x20 * j.toNat ∧ t = s.setCh j { s.getCh j with lfoDepth := v }) ∨
    (a = 0x41C + 0x20 * j.toNat ∧ t = s.setCh j { s.getCh j with apG := v })) ∨
  (∃ i, i ≤ 255 ∧ a = 0x1000 + 4 * i ∧ StoresWord s t a v) ∨
  (∃ k, k ≤ 1023 ∧ a = 0x2000 + 4 * k ∧ t = s) ∨
  (∃ w, w < 2 ^ s.sramLog2 ∧ a = 0x400000 + 4 * w ∧ StoresWord s t a v)

/-- Word `w` of the sample RAM belongs to the ring of a channel (10_state.md R51, R52; 42_delay.md R170). -/
def Channel.InRing (sramLog2 : Nat) (c : Channel) (w : Nat) : Prop :=
  ∃ m, m < 2 ^ c.dlLog2.toNat ∧ w = (c.dlBase.toNat + m) % 2 ^ sramLog2

/-! ## What an instruction leaves unchanged -/

/-- Every byte of both RAMs reads as before. -/
def SameMemory (s t : State) : Prop := ∀ a, t.readByte a = s.readByte a

/-- Every byte outside the word at host address `w` reads as before. -/
def SameMemoryOutside (s t : State) (w : Nat) : Prop := ∀ a, a < w ∨ w + 4 ≤ a → t.readByte a = s.readByte a

/-- A host access other than a read of STATUS (20_memory.md R86). -/
def OtherAccess (e : HostEvent) : Prop :=
  (∃ a bits v, e = .write a bits v) ∨ (∃ a bits, e = .read a bits ∧ ¬ (a = 4#32 ∧ bits = 32))

/-- The next step is not a reset (70_reset_and_hazards.md R300). -/
def NoReset (s : State) : Prop := ∀ rest, s.inbox ≠ .reset :: rest

/-- Every sample register but `r` is as before. -/
def SameXExcept (s t : State) (r : XReg) : Prop := ∀ q, q ≠ r → t.getX q = s.getX q

/-- An instruction that writes one sample register and nothing else: X[xd] holds `v`, every other sample register, every
other field of the state and every byte of memory is as before, and pc is one more. -/
def WritesOnlyX (s t : State) (xd : XReg) (v : Word) : Prop :=
  t.getX xd = v ∧ SameXExcept s t xd ∧ t.pc = s.pc + 1 ∧ { t with x := s.x, pc := s.pc } = s ∧ SameMemory s t

/-- An instruction that writes one sample register and one channel block and nothing else: as WritesOnlyX, with CH[j]
left as `c` and every other channel as before. -/
def WritesXAndChannel (s t : State) (xd : XReg) (v : Word) (j : Chan) (c : Channel) : Prop :=
  t.getX xd = v ∧ SameXExcept s t xd ∧ t.getCh j = c ∧ (∀ i, i ≠ j → t.getCh i = s.getCh i) ∧ t.pc = s.pc + 1 ∧
    { t with x := s.x, ch := s.ch, pc := s.pc } = s ∧ SameMemory s t

/-- One stage of the Walsh-Hadamard transform seen from element i (46_hadamard.md R220). -/
def hadStage (h : Nat) (scale : Word → Word) (v : Nat → Word) (i : Nat) : Word :=
  scale (if i &&& h = 0 then fadd (v i) (v (i + h)) else fsub (v (i - h)) (v i))

/-- FWHT16 element by element: the stages h = 1, 2, 4, 8, the last one scaled by 1/4 (46_hadamard.md R220). -/
def hadamard (v : Nat → Word) : Nat → Word :=
  hadStage 8 (fun w => fmul w fQuarter) (hadStage 4 id (hadStage 2 id (hadStage 1 id v)))

/-- The channel with its LFO phase advanced once (43_lfo.md R192). -/
def Channel.phaseAdvanced (c : Channel) : Channel := { c with lfoPh := c.lfoPh + c.lfoInc }

/-- The 20 rows of the opcode map, (match, mask), in opcode order (30_encoding.md R115). -/
def opcodeMap : List (Word × Word) :=
  [(0x00000000, 0xFFFFFFFF), (0x04000000, 0xFFFFFFFF), (0x08000000, 0xFCFFFF00), (0x0C000000, 0xFC03FFFF),
   (0x10000000, 0xFC3F0000), (0x14000000, 0xFC003FFF), (0x18000000, 0xFC003FFF), (0x1C000000, 0xFC003FFF),
   (0x20000000, 0xFFC3C1FF), (0x24000000, 0xFC03C1FF)] ++
  [(0x28000000, 0xFC3FC1FF), (0x2C000000, 0xFC3FC1FF), (0x30000000, 0xFC03C1FF), (0x34000000, 0xFC03C03F),
   (0x38000000, 0xFC03E1FF), (0x3C000000, 0xFFFFFFFF), (0x40000000, 0xFC03FFFF), (0x44000000, 0xFC03FFFF),
   (0x48000000, 0xFC03FDFF), (0x4C000000, 0xFC03FFFF)]

/-- The extra conditions of the opcode map on the bits of a word: SKIP (opcode 2) has w[25:24] != 3, APC (opcode 0xD)
has w[13:9] + w[8:6] <= 31 (30_encoding.md R113, R115). -/
def extraCondition (w : Word) : Prop :=
  (w.toNat / 2 ^ 26 = 0x02 → w.toNat / 2 ^ 24 % 4 ≠ 3) ∧
  (w.toNat / 2 ^ 26 = 0x0D → w.toNat / 2 ^ 9 % 32 + w.toNat / 2 ^ 6 % 8 ≤ 31)

/-- A word matches a row of the opcode map and meets its extra condition: it is an instruction (30_encoding.md R113). -/
def LegalWord (w : Word) : Prop := (∃ row ∈ opcodeMap, w &&& row.2 = row.1) ∧ extraCondition w

end Sys2Proof.Machine
end

