-- ==== Sys2Proof/Certificates/Slice0/Obligations.lean ====
section
/-! DEFINITION. The statements for the provers, from the numbered rules of the spec: encoding, the step, the host bus,
arithmetic, each instruction, and what holds of every step. -/

open Sys2Proof Sys2Proof.Machine

/-! ## Encoding -/

/-- Every instruction is read back from its own word, and from its four bytes in address order whatever follows them
(30_encoding.md R110 to R112, R115; 20_memory.md R83). -/
def Obligations.DecodeOfEncode : Prop :=
  ∀ (i : Instr) (rest : List Byte), i.wellFormed = true →
    decodeWord (encode i) = .ok i ∧ decodeBytes (encodeBytes i ++ rest) = .ok (i, rest)

/-- A word that decodes is the word of the instruction it decodes to, so no two words mean one instruction, and only
well-formed instructions come out (30_encoding.md R112, R113, R115). -/
def Obligations.EncodeOfDecode : Prop :=
  ∀ (w : Word) (i : Instr), decodeWord w = .ok i → i.wellFormed = true ∧ encode i = w

/-- R113: the instructions are exactly the words that match a row of the opcode map and meet its extra condition; any
other word is an illegal instruction, which aborts the frame. No word matches two rows. -/
def Obligations.LegalWordsAreTheInstructions : Prop :=
  (∀ w : Word, (∃ i, decodeWord w = .ok i) ↔ LegalWord w) ∧
  (∀ w : Word, ∀ r ∈ opcodeMap, ∀ q ∈ opcodeMap, w &&& r.2 = r.1 → w &&& q.2 = q.1 → r = q) ∧
  (∀ (s : State) (w : Word), s.inbox = [] → s.seq = .running → s.pc < 256 → s.pRead s.pc = some w → ¬ LegalWord w →
    ∃ t, step s = .next t ∧ t.ill = true ∧ t.seq = .idle)

/-- Words of 95_test_vectors.md section 2.1 decode to the instruction the table names, one for each family, and illegal
words to none. -/
def Obligations.SpecWordsDecode : Prop :=
  decodeWord 0x00000000#32 = .ok .nop ∧ decodeWord 0x0A000000#32 = .ok (.skip 2#2 0#8) ∧
  decodeWord 0x0FDC0000#32 = .ok (.mov 15#4 7#4) ∧ decodeWord 0x1240BE80#32 = .ok (.ldkh 9#4 0xBE80#16) ∧
  decodeWord 0x1448C000#32 = .ok (.fadd 1#4 2#4 3#4) ∧ decodeWord 0x203C3E00#32 = .ok (.dlwr 31#5 15#4) ∧
  decodeWord 0x24D00E00#32 = .ok (.dlrd 3#4 7#5 4#4) ∧ decodeWord 0x2D400600#32 = .ok (.lfo 5#4 3#5) ∧
  decodeWord 0x34402840#32 = .ok (.apc 1#4 20#5 0#4 1#3) ∧ decodeWord 0x38401E00#32 = .ok (.damp 1#4 15#4 0#4) ∧
  decodeWord 0x3C000000#32 = .ok .had16 ∧ decodeWord 0x44040000#32 = .ok (.width 0#4 1#4) ∧
  decodeWord 0x48440200#32 = .ok (.dcb 1#4 1#1 1#4) ∧ decodeWord 0x4FCC0000#32 = .ok (.fdn 15#4 3#4) ∧
  decodeWord 0x0B000005#32 = .error .skipCond ∧ decodeWord 0x340033C0#32 = .error .apcRange ∧
  decodeWord 0x38002000#32 = .error .mustBeZero ∧ decodeWord 0x50000000#32 = .error .reservedOpcode

/-! ## The step -/

/-- When the four bytes at the pc of a running frame decode to an instruction, the step executes it: with nothing from
the host, with a pause of the host taken, and with a host access waiting (40_control.md R140, 20_memory.md R86). The
inbox and its pauses are the model's own (log entry 1). -/
def Obligations.StepRunsDecodedInstruction : Prop :=
  ∀ (s : State) (b0 b1 b2 b3 : Byte) (i : Instr), s.seq = .running → s.pc < 256 →
    s.readByte (0x1000 + 4 * s.pc) = some b0 → s.readByte (0x1000 + 4 * s.pc + 1) = some b1 →
    s.readByte (0x1000 + 4 * s.pc + 2) = some b2 → s.readByte (0x1000 + 4 * s.pc + 3) = some b3 →
    decodeBytes [b0, b1, b2, b3] = .ok (i, []) →
    (s.inbox = [] → step s = exec i s) ∧
    (∀ rest, s.inbox = .pass :: rest → step s = exec i { s with inbox := rest }) ∧
    (∀ e rest, OtherAccess e → s.inbox = e :: rest → step s = exec i s)

/-- R272: an illegal word writes the first error's pc and word, sets ILL and ends the frame, and has no other effect;
the next GO starts at pc 0 with the state as it is; ILL stays set until the host writes 1 to it (or resets). -/
def Obligations.IllegalWordAbortsTheFrame : Prop :=
  (∀ (s : State) (w : Word), s.inbox = [] → s.seq = .running → s.pc < 256 → s.pRead s.pc = some w → ¬ LegalWord w →
    step s = .next { s with
      illPc := if s.ill = true then s.illPc else BitVec.ofNat 8 s.pc
      illWord := if s.ill = true then s.illWord else w
      ill := true
      frames := s.frames + 1#32
      done := true
      seq := .idle }) ∧
  (∀ (s : State) (v : Word) (rest : List HostEvent), s.seq = .idle → s.prepared = true →
    s.inbox = .write 0#32 32 v :: rest → v.getLsbD 1 = false → v.getLsbD 2 = true →
    step s = .next { s with inbox := rest, freeze := v.getLsbD 0, seq := .running, pc := 0 }) ∧
  (∀ s t : State, step s = .next t → s.ill = true → t.ill = false →
    (∃ rest, s.inbox = .reset :: rest) ∨
    (∃ v rest, s.seq = .idle ∧ s.inbox = .write 4#32 32 v :: rest ∧ v.getLsbD 3 = true))

/-- The edges of the fetch: past the last program word the frame ends normally (40_control.md R140, R141), and a word not
written since reset stops the model (70_reset_and_hazards.md R302). -/
def Obligations.FetchAtTheEdges : Prop :=
  (∀ s : State, s.inbox = [] → s.seq = .running → 256 ≤ s.pc →
    step s = .next { s with frames := s.frames + 1#32, done := true, seq := .idle }) ∧
  (∀ s : State, s.inbox = [] → s.seq = .running → s.pc < 256 → s.pRead s.pc = none →
    step s = .fault (.fetchUnwritten s.pc))

/-- Every frame ends: over a program RAM the host has written whole, a running frame comes to its end, counted once and
with DONE set, within 257 steps: at most 256 instructions and the end past the last word (40_control.md R141). That an instruction, and
the end past the last word, are one step each is the model's reading (log entry 2). -/
def Obligations.EveryFrameEnds : Prop :=
  ∀ s : State, s.seq = .running → s.inbox = [] → (∀ i, i < 256 → ∃ w, s.pRead i = some w) →
    ∃ (n : Nat) (t : State), n ≤ 257 ∧ core.run n s = .next t ∧ t.seq = .idle ∧ t.done = true ∧ t.frames = s.frames + 1#32

/-! ## The host bus -/

/-- R86: while BUSY a STATUS read returns STATUS at once; every other access waits, and the step is what it would be
without it; when BUSY is 0 an access is performed at once. -/
def Obligations.OnlyStatusReadsProceedWhileBusy : Prop :=
  (∀ (s : State) (rest : List HostEvent), s.seq ≠ .idle → s.inbox = .read 4#32 32 :: rest →
    ∃ v, BusValue s 4 v ∧ step s = .next { s with inbox := rest, replies := s.replies ++ [v] }) ∧
  (∀ (s : State) (e : HostEvent) (rest : List HostEvent), s.seq ≠ .idle → OtherAccess e → s.inbox = e :: rest →
    match step { s with inbox := [] } with
    | .next t => step s = .next { t with inbox := e :: rest }
    | .fault f => step s = .fault f
    | .refused r => step s = .refused r) ∧
  (∀ (s : State) (e : HostEvent) (rest : List HostEvent), s.seq = .idle → OtherAccess e → s.inbox = e :: rest →
    step s = .next ({ s with inbox := rest }.takeEvent e))

/-- R84: an access at an unmapped or misaligned address, or not of 32 bits, is refused: a read returns 0, a write changes
nothing; BUSERR is set and the first address kept; nothing else changes; while BUSY it waits. -/
def Obligations.RefusedAccess : Prop :=
  ∀ (s : State) (a : Word) (bits : Nat) (rest : List HostEvent), ¬ Accepted s a bits →
    (s.seq = .idle → s.inbox = .read a bits :: rest →
      step s = .next { s with
        inbox := rest
        replies := s.replies ++ [0#32]
        buserr := true
        buserrAddr := if s.buserr = true then s.buserrAddr else a }) ∧
    (∀ v, s.seq = .idle → s.inbox = .write a bits v :: rest →
      step s = .next { s with
        inbox := rest
        buserr := true
        buserrAddr := if s.buserr = true then s.buserrAddr else a }) ∧
    (∀ e t, e = .read a bits ∨ (∃ v, e = .write a bits v) → s.seq ≠ .idle → s.inbox = e :: rest → step s = .next t →
      t.inbox = s.inbox ∧ t.replies = s.replies ∧ t.buserr = s.buserr ∧ t.buserrAddr = s.buserrAddr)

/-- R85: an access to a mapped address is never refused; a write to a read-only register or a sine-table word changes
nothing; the reserved bits of CTRL, STATUS, IRQEN, TAP_SGN and BSIGN, and the read-only bits of STATUS, have no effect; a
write to DL_BASE, DL_LOG2 or DL_CUR stores the legalised value. -/
def Obligations.MappedAccessIsNeverRefused : Prop :=
  ∀ (s : State) (a : Word) (rest : List HostEvent), s.seq = .idle → Mapped s.sramLog2 a.toNat →
    (s.inbox = .read a 32 :: rest → ∃ v, step s = .next { s with inbox := rest, replies := s.replies ++ [v] }) ∧
    (∀ v, s.inbox = .write a 32 v :: rest → ∃ t, step s = .next t ∧ (t.buserr = true → s.buserr = true) ∧
      t.buserrAddr = s.buserrAddr) ∧
    (∀ v, s.inbox = .write a 32 v :: rest →
      (a.toNat ∈ [0x0C, 0x10, 0x14, 0x18, 0x1C, 0x3C] ∨ 0x2000 ≤ a.toNat ∧ a.toNat < 0x3000) →
      step s = .next { s with inbox := rest }) ∧
    (∀ v u m, s.inbox = .write a 32 v :: rest →
      (a.toNat, m) ∈ [(0x00, 0x7#32), (0x04, 0x1C#32), (0x08, 0x1C#32), (0x34, 0xFFFF#32), (0x38, 0x1#32)] →
      v &&& m = u &&& m → step s = step { s with inbox := .write a 32 u :: rest }) ∧
    (∀ v j, j < 32 → s.inbox = .write a 32 v :: rest →
      (a.toNat = 0x400 + 0x20 * j →
        step s = .next ({ s with inbox := rest }.setCh (BitVec.ofNat 5 j)
          { s.getCh (BitVec.ofNat 5 j) with dlBase := BitVec.ofNat 32 (v.toNat % 2 ^ s.sramLog2) })) ∧
      (a.toNat = 0x404 + 0x20 * j →
        step s = .next ({ s with inbox := rest }.setCh (BitVec.ofNat 5 j)
          { s.getCh (BitVec.ofNat 5 j) with dlLog2 := BitVec.ofNat 5 (min (max (v.toNat % 2 ^ 5) 3) s.sramLog2) })) ∧
      (a.toNat = 0x408 + 0x20 * j →
        step s = .next ({ s with inbox := rest }.setCh (BitVec.ofNat 5 j)
          { s.getCh (BitVec.ofNat 5 j) with dlCur := BitVec.ofNat 32 (v.toNat % 2 ^ s.sramLog2) })))

/-- Every mapped address names the register or word the map gives it, and a read returns that value (20_memory.md R82).
The values are those of 10_state.md R31 to R72; a RAM word not written since reset is not spoken of (70_reset_and_hazards.md R302). -/
def Obligations.HostReadsReturnTheMap : Prop :=
  (∀ (s : State) (a v : Word) (rest : List HostEvent), s.seq = .idle → s.inbox = .read a 32 :: rest →
    BusValue s a.toNat v → step s = .next { s with inbox := rest, replies := s.replies ++ [v] }) ∧
  (∀ (s : State) (a : Nat) (v : Word), BusValue s a v → Mapped s.sramLog2 a) ∧
  (∀ (s : State) (a : Nat), Mapped s.sramLog2 a → a < 0x1000 ∨ 0x2000 ≤ a ∧ a < 0x3000 → ∃ v, BusValue s a v)

/-- A host write to a mapped address other than CTRL and STATUS only stores: exactly the register or word the map names
takes the written value, its reserved bits dropped and its WARL field legalised (20_memory.md R82, R88; 10_state.md R37,
R42 to R47, R51 to R58, R61 to R64, R66 to R68, R70, R71). -/
def Obligations.HostWritesStore : Prop :=
  ∀ (s : State) (a v : Word) (rest : List HostEvent), s.seq = .idle → s.inbox = .write a 32 v :: rest →
    Mapped s.sramLog2 a.toNat → a ≠ 0#32 → a ≠ 4#32 →
    ∃ t, step s = .next t ∧ BusStore { s with inbox := rest } t a.toNat v

/-- A CTRL write: FREEZE takes bit 0; bit 1 starts PREPARE, which the frame of bit 2 follows on the cleared state; bit 2
alone starts a frame at word 0, or nothing while PREPARED is 0 (10_state.md R35, 40_control.md R140). That FREEZE is
written even by a GO that is a no-op, and that BUSY stays 1 between PREPARE and its frame, are the model's readings (log
entries 12 and 9). -/
def Obligations.CtrlWriteStartsSequences : Prop :=
  (∀ (s : State) (v : Word) (rest : List HostEvent), s.seq = .idle → s.inbox = .write 0#32 32 v :: rest →
    step s = .next
      (if v.getLsbD 1 = true then { s with inbox := rest, freeze := v.getLsbD 0, seq := .preparing (v.getLsbD 2) }
      else if v.getLsbD 2 = true ∧ s.prepared = true then
        { s with inbox := rest, freeze := v.getLsbD 0, seq := .running, pc := 0 }
      else { s with inbox := rest, freeze := v.getLsbD 0 })) ∧
  (∀ s : State, s.inbox = [] → s.seq = .preparing true →
    ∃ t u, step s = .next t ∧ step { s with seq := .preparing false } = .next u ∧
      t = { u with seq := .running, pc := 0 })

/-- STATUS: a write of 1 clears DONE, ILL or BUSERR, and BUSY and PREPARED ignore it; once set, each of the three falls
only by such a write, or by reset (10_state.md R36, 60_exceptions.md R276). -/
def Obligations.StatusBitsAreSticky : Prop :=
  (∀ (s : State) (v : Word) (rest : List HostEvent), s.seq = .idle → s.inbox = .write 4#32 32 v :: rest →
    step s = .next { s with
      inbox := rest
      done := if v.getLsbD 2 = true then false else s.done
      ill := if v.getLsbD 3 = true then false else s.ill
      buserr := if v.getLsbD 4 = true then false else s.buserr }) ∧
  (∀ s t : State, step s = .next t → NoReset s →
    (s.done = true → t.done = true ∨ ∃ v rest, s.inbox = .write 4#32 32 v :: rest ∧ v.getLsbD 2 = true) ∧
    (s.ill = true → t.ill = true ∨ ∃ v rest, s.inbox = .write 4#32 32 v :: rest ∧ v.getLsbD 3 = true) ∧
    (s.buserr = true → t.buserr = true ∨ ∃ v rest, s.inbox = .write 4#32 32 v :: rest ∧ v.getLsbD 4 = true))

/-- R37: IRQEN holds bits 4:2, reads them back with the rest 0, is 0 after reset, and IRQ is the OR of the three STATUS
bits each AND its enable. -/
def Obligations.InterruptEnable : Prop :=
  (∀ (s : State) (v : Word) (rest : List HostEvent), s.seq = .idle →
    s.inbox = .write 8#32 32 v :: .read 8#32 32 :: rest →
    ∃ t, step s = .next t ∧ step t = .next { t with inbox := rest, replies := s.replies ++ [v &&& 0x1C#32] } ∧
      t.doneIe = v.getLsbD 2 ∧ t.illIe = v.getLsbD 3 ∧ t.buserrIe = v.getLsbD 4) ∧
  (∀ (s : State), s.irq = true ↔
    (s.done = true ∧ s.doneIe = true) ∨ (s.ill = true ∧ s.illIe = true) ∨ (s.buserr = true ∧ s.buserrIe = true)) ∧
  (∀ (s : State) (rest : List HostEvent), s.inbox = .reset :: rest →
    ∃ t, step s = .next t ∧ t.doneIe = false ∧ t.illIe = false ∧ t.buserrIe = false)

/-- R41: ID reads 0x44555301 and PARAMS the four constants with SRAM_LOG2 in bits 4:0; a write to either is ignored. -/
def Obligations.IdentificationRegisters : Prop :=
  ∀ (s : State) (rest : List HostEvent), s.seq = .idle → s.sramLog2 < 32 →
    (s.inbox = .read 0x18#32 32 :: rest →
      step s = .next { s with inbox := rest, replies := s.replies ++ [0x44555301#32] }) ∧
    (s.inbox = .read 0x1C#32 32 :: rest → ∃ v : Word,
      step s = .next { s with inbox := rest, replies := s.replies ++ [v] } ∧
      v.extractLsb' 0 5 = BitVec.ofNat 5 s.sramLog2 ∧ v.extractLsb' 5 3 = 0#3 ∧ v.extractLsb' 8 5 = 8#5 ∧
      v.extractLsb' 13 3 = 0#3 ∧ v.extractLsb' 16 5 = 5#5 ∧ v.extractLsb' 21 3 = 0#3 ∧ v.extractLsb' 24 8 = 1#8) ∧
    (∀ a v, a = 0x18#32 ∨ a = 0x1C#32 → s.inbox = .write a 32 v :: rest → step s = .next { s with inbox := rest })

/-- R52: a write of v to CH[j].DL_LOG2 stores min(max(v[4:0], 3), SRAM_LOG2), a read returns that with bits 31:5 zero,
the ring size is 2 to that power and the mask one less, and the reset value is SRAM_LOG2 - 5. -/
def Obligations.RingSizeIsLegalised : Prop :=
  (∀ (s : State) (j : Chan) (v : Word) (rest : List HostEvent), 10 ≤ s.sramLog2 → s.sramLog2 ≤ 24 → s.seq = .idle →
    s.inbox = .write (BitVec.ofNat 32 (0x404 + 0x20 * j.toNat)) 32 v ::
      .read (BitVec.ofNat 32 (0x404 + 0x20 * j.toNat)) 32 :: rest →
    ∃ t, step s = .next t ∧ (t.getCh j).dlLog2.toNat = min (max (v.toNat % 32) 3) s.sramLog2 ∧
      (t.getCh j).size = 2 ^ min (max (v.toNat % 32) 3) s.sramLog2 ∧
      step t = .next { t with
        inbox := rest
        replies := s.replies ++ [BitVec.ofNat 32 (min (max (v.toNat % 32) 3) s.sramLog2)] }) ∧
  (∀ (c : Channel) (m : Int), 0 ≤ m → m < c.size → c.dlCur = 0#32 → (c.slot (-m) : Int) = m ∧ c.slot (-m) ≤ c.size - 1) ∧
  (∀ (s : State) (j : Chan) (rest : List HostEvent), 10 ≤ s.sramLog2 → s.sramLog2 ≤ 24 → s.inbox = .reset :: rest →
    ∃ t, step s = .next t ∧ (t.getCh j).dlLog2.toNat = s.sramLog2 - 5)

/-- R303: PREPARE starts at a CTRL write of bit 1 while BUSY is 0; it clears every sample word, cursor, damper lowpass,
DC-blocker memory, X register and BSIGN, sets PREPARED, and changes nothing else; it may be repeated. -/
def Obligations.PrepareClearsTheAudioState : Prop :=
  (∀ (s : State) (v : Word) (rest : List HostEvent), s.seq = .idle → s.inbox = .write 0#32 32 v :: rest →
    v.getLsbD 1 = true →
    step s = .next { s with inbox := rest, freeze := v.getLsbD 0, seq := .preparing (v.getLsbD 2) }) ∧
  (∀ s : State, s.inbox = [] → s.seq = .preparing false →
    ∃ t, step s = .next t ∧ t.seq = .idle ∧ t.prepared = true ∧
      (∀ w, w < 2 ^ s.sramLog2 → t.readWord (0x400000 + 4 * w) = some 0#32) ∧
      (∀ j, t.getCh j = { s.getCh j with dlCur := 0#32 }) ∧
      (∀ u, t.getDmp u = { s.getDmp u with lp := 0#32 }) ∧
      (∀ u, t.getDcb u = { s.getDcb u with x1 := 0#32, y1 := 0#32 }) ∧
      (∀ r, t.getX r = 0#32) ∧ t.bsign = false ∧
      (∀ a, a < 0x400000 → t.readByte a = s.readByte a) ∧
      { t with
        x := s.x, ch := s.ch, dmp := s.dmp, dcb := s.dcb, mem := s.mem, bsign := s.bsign
        seq := s.seq, prepared := s.prepared } = s)

/-- R300: reset, whatever the block is doing, gives every register its reset value, and leaves the block idle with
PREPARED = 0, so that a GO then does nothing; IRQ is 0. -/
def Obligations.ResetValues : Prop :=
  ∀ (s : State) (rest : List HostEvent), 10 ≤ s.sramLog2 → s.sramLog2 ≤ 24 → s.inbox = .reset :: rest →
    ∃ t, step s = .next t ∧ (∀ r, t.getX r = 0#32) ∧ t.pc = 0 ∧ t.freeze = false ∧ t.seq = .idle ∧
      t.prepared = false ∧ t.done = false ∧ t.ill = false ∧ t.buserr = false ∧ t.doneIe = false ∧ t.illIe = false ∧
      t.buserrIe = false ∧ t.frames = 0#32 ∧ t.illPc = 0#8 ∧ t.illWord = 0#32 ∧ t.buserrAddr = 0#32 ∧
      BusValue t 0x18 0x44555301#32 ∧ BusValue t 0x1C (BitVec.ofNat 32 (0x01050800 + s.sramLog2)) ∧
      t.width = 0x3F800000#32 ∧ t.bias = 0x21800000#32 ∧ t.makeup = 0x3F800000#32 ∧ t.tapIdxL = 0x76543210#32 ∧
      t.tapIdxR = 0xFEDCBA98#32 ∧ t.tapSgn = 0#16 ∧ t.bsign = false ∧
      (∀ j : Chan, (t.getCh j).dlBase.toNat = j.toNat * 2 ^ (s.sramLog2 - 5) ∧
        (t.getCh j).dlLog2.toNat = s.sramLog2 - 5 ∧ (t.getCh j).dlCur = 0#32 ∧ (t.getCh j).dlen = 0#32 ∧
        (t.getCh j).lfoPh = 0#32 ∧ (t.getCh j).lfoInc = 0#32 ∧ (t.getCh j).lfoDepth = 0#32 ∧ (t.getCh j).apG = 0#32) ∧
      (∀ u, t.getDmp u = { glow := 0#32, ghigh := 0#32, xc := 0#32, lp := 0#32 }) ∧
      (∀ u, t.getDcb u = { r := 0x3F7EB852#32, x1 := 0#32, y1 := 0#32 }) ∧
      t.sramLog2 = s.sramLog2 ∧ t.irq = false ∧
      step { t with inbox := [.write 0#32 32 4#32] } = .next { t with inbox := [] }

/-- R301: the reset channel descriptors divide the sample RAM into 32 disjoint rings of 2^(SRAM_LOG2-5) words, ring j
starting at word j * 2^(SRAM_LOG2-5). -/
def Obligations.ResetRingsPartitionTheSampleRam : Prop :=
  ∀ k : Nat, 10 ≤ k → k ≤ 24 →
    (∀ j : Chan, ((State.resetWith k).getCh j).size = 2 ^ (k - 5) ∧
      ((State.resetWith k).getCh j).dlBase.toNat = j.toNat * 2 ^ (k - 5)) ∧
    (∀ w, w < 2 ^ k → ∃ j : Chan, ((State.resetWith k).getCh j).InRing k w) ∧
    (∀ (i j : Chan) (w : Nat), ((State.resetWith k).getCh i).InRing k w → ((State.resetWith k).getCh j).InRing k w → i = j)

/-- R38: FRAMES counts, modulo 2^32, the frames that end, normally or by abort, and nothing else changes it: no write, no
PREPARE, no GO that is a no-op; reset makes it 0. -/
def Obligations.FramesCountsFrameEnds : Prop :=
  (∀ s t : State, step s = .next t → NoReset s →
    t.frames = if s.seq = .running ∧ t.seq = .idle then s.frames + 1#32 else s.frames) ∧
  (∀ (s t : State) (rest : List HostEvent), s.inbox = .reset :: rest → step s = .next t → t.frames = 0#32) ∧
  (∀ (s : State) (rest : List HostEvent), s.seq = .idle → s.inbox = .read 0xC#32 32 :: rest →
    step s = .next { s with inbox := rest, replies := s.replies ++ [s.frames] })

/-- R39: ILL_PC and ILL_WORD are written only when ILL goes from 0 to 1, with the pc and the word of the illegal
instruction; no host write changes them; both are 0 after reset; ILL_PC reads with bits 31:8 zero. -/
def Obligations.FirstIllegalInstructionIsKept : Prop :=
  (∀ s t : State, step s = .next t → NoReset s →
    if s.ill = false ∧ t.ill = true then
      ∃ w, s.seq = .running ∧ s.pc < 256 ∧ s.pRead s.pc = some w ∧ ¬ LegalWord w ∧
        t.illPc.toNat = s.pc ∧ t.illWord = w
    else t.illPc = s.illPc ∧ t.illWord = s.illWord) ∧
  (∀ (s t : State) (rest : List HostEvent), s.inbox = .reset :: rest → step s = .next t →
    t.illPc = 0#8 ∧ t.illWord = 0#32) ∧
  (∀ (s : State) (rest : List HostEvent), s.seq = .idle → s.inbox = .read 0x10#32 32 :: .read 0x14#32 32 :: rest →
    ∃ t, step s = .next t ∧ step t = .next { s with
      inbox := rest
      replies := s.replies ++ [BitVec.ofNat 32 s.illPc.toNat, s.illWord] })

/-- R40: BUSERR_ADDR is written only when BUSERR goes from 0 to 1, with the byte address of the refused access; no host
write changes it; it is 0 after reset. -/
def Obligations.FirstRefusedAddressIsKept : Prop :=
  (∀ s t : State, step s = .next t → NoReset s →
    if s.buserr = false ∧ t.buserr = true then
      ∃ a bits rest, ¬ Accepted s a bits ∧ t.buserrAddr = a ∧
        (s.inbox = .read a bits :: rest ∨ ∃ v, s.inbox = .write a bits v :: rest)
    else t.buserrAddr = s.buserrAddr) ∧
  (∀ (s t : State) (rest : List HostEvent), s.inbox = .reset :: rest → step s = .next t → t.buserrAddr = 0#32) ∧
  (∀ (s : State) (rest : List HostEvent), s.seq = .idle → s.inbox = .read 0x3C#32 32 :: rest →
    step s = .next { s with inbox := rest, replies := s.replies ++ [s.buserrAddr] })

/-! ## Arithmetic -/

/-- R14: for 2 <= d < 2^24 floor(d) is the greatest integer not above d and d - floor(d) is computed exactly, at least 0
and below 1; I2F is exact below 2^24. -/
def Obligations.FloorAndFractionAreExact : Prop :=
  (∀ d : Word, f32IsFinite d = true → 2 ≤ f32Value d → f32Value d < 2 ^ 24 →
    (f32Floor d : ℚ) ≤ f32Value d ∧ f32Value d < f32Floor d + 1 ∧
    f32IsFinite (fsub d (i2f (f32Floor d))) = true ∧
    f32Value (fsub d (i2f (f32Floor d))) = f32Value d - f32Floor d) ∧
  (∀ n : Nat, n < 2 ^ 24 → f32IsFinite (i2f n) = true ∧ f32Value (i2f n) = n)

/-- Every NaN result of an arithmetic primitive is the canonical one, and a result is a NaN exactly when an operand is or
the operation is invalid: inf - inf, 0 x inf, 0/0, inf/inf (00_scope.md R12). -/
def Obligations.NaNResultsAreCanonical : Prop :=
  ∀ a b : Word,
    (f32IsNaN (fadd a b) = true → fadd a b = 0x7FC00000#32) ∧ (f32IsNaN (fsub a b) = true → fsub a b = 0x7FC00000#32) ∧
    (f32IsNaN (fmul a b) = true → fmul a b = 0x7FC00000#32) ∧ (f32IsNaN (fdiv a b) = true → fdiv a b = 0x7FC00000#32) ∧
    (f32IsNaN (fadd a b) = true ↔ f32IsNaN a = true ∨ f32IsNaN b = true ∨
      (f32Mag a = 0x7F800000 ∧ f32Mag b = 0x7F800000 ∧ f32Sign a ≠ f32Sign b)) ∧
    (f32IsNaN (fsub a b) = true ↔ f32IsNaN a = true ∨ f32IsNaN b = true ∨
      (f32Mag a = 0x7F800000 ∧ f32Mag b = 0x7F800000 ∧ f32Sign a = f32Sign b)) ∧
    (f32IsNaN (fmul a b) = true ↔ f32IsNaN a = true ∨ f32IsNaN b = true ∨
      (f32Mag a = 0x7F800000 ∧ f32Mag b = 0) ∨ (f32Mag a = 0 ∧ f32Mag b = 0x7F800000)) ∧
    (f32IsNaN (fdiv a b) = true ↔ f32IsNaN a = true ∨ f32IsNaN b = true ∨
      (f32Mag a = 0 ∧ f32Mag b = 0) ∨ (f32Mag a = 0x7F800000 ∧ f32Mag b = 0x7F800000))

/-- The comparison a < b is that of the values, false on a NaN, with both zeros equal and the infinities outermost
(00_scope.md R11). -/
def Obligations.ComparisonIsOrdered : Prop :=
  ∀ a b : Word,
    (f32IsNaN a = true ∨ f32IsNaN b = true → flt a b = false) ∧
    (f32IsFinite a = true → f32IsFinite b = true → (flt a b = true ↔ f32Value a < f32Value b)) ∧
    (f32IsFinite a = true → (flt a 0x7F800000#32 = true ∧ flt 0x7F800000#32 a = false ∧ flt 0xFF800000#32 a = true ∧
      flt a 0xFF800000#32 = false)) ∧
    flt 0xFF800000#32 0x7F800000#32 = true ∧ flt a a = false

/-- R163: fadd and fmul commute on all bit patterns; neither is associative; multiplication by 0.5, 0.25 or 2 is exact
unless the result underflows or overflows; fsub(a, b) = fadd(a, fneg(b)) for non-NaN b. -/
def Obligations.ArithmeticLaws : Prop :=
  (∀ a b : Word, fadd a b = fadd b a ∧ fmul a b = fmul b a) ∧
  (∃ a b c : Word, fadd (fadd a b) c ≠ fadd a (fadd b c)) ∧
  (∃ a b c : Word, fmul (fmul a b) c ≠ fmul a (fmul b c)) ∧
  (∀ a c : Word, f32IsFinite a = true → c = 0x3F000000#32 ∨ c = 0x3E800000#32 ∨ c = 0x40000000#32 →
    f32Value a * f32Value c = 0 ∨
      (1 / 2 ^ 126 ≤ |f32Value a * f32Value c| ∧ |f32Value a * f32Value c| < 2 ^ 128) →
    f32IsFinite (fmul a c) = true ∧ f32Value (fmul a c) = f32Value a * f32Value c) ∧
  (∀ a b : Word, f32IsNaN b = false → fsub a b = fadd a (fneg b))

/-- Division, the soft clipper's, rounds the exact quotient once, to nearest even, with the signs and the special operands
of IEEE 754 (00_scope.md R11; special operands: log entry 16). -/
def Obligations.DivisionRoundsCorrectly : Prop :=
  ∀ a b : Word,
    (f32IsFinite a = true → f32IsFinite b = true → f32Value b ≠ 0 →
      (f32Value a ≠ 0 → F32RoundsTo (fdiv a b) (f32Value a / f32Value b)) ∧
      (f32Value a = 0 → fdiv a b = f32OfMag (f32Sign a != f32Sign b) 0)) ∧
    (f32IsFinite a = true → f32Value a ≠ 0 → f32Mag b = 0 → fdiv a b = f32Inf (f32Sign a != f32Sign b)) ∧
    (f32IsFinite a = true → f32Mag b = 0x7F800000 → fdiv a b = f32OfMag (f32Sign a != f32Sign b) 0) ∧
    (f32Mag a = 0x7F800000 → f32IsFinite b = true → fdiv a b = f32Inf (f32Sign a != f32Sign b))

/-! ## Control instructions and moves -/

/-- R142 and R144: END ends the frame and does not advance pc; NOP only advances pc; their words are 0x04000000 and
0x00000000, and no other word with opcode 0x00 is an instruction. -/
def Obligations.NopAndEnd : Prop :=
  (∀ s : State, exec .nop s = .next { s with pc := s.pc + 1 }) ∧
  (∀ s : State, exec .endFrame s = .next { s with frames := s.frames + 1#32, done := true, seq := .idle }) ∧
  decodeWord 0x00000000#32 = .ok .nop ∧ decodeWord 0x04000000#32 = .ok .endFrame ∧
  (∀ w : Word, w.extractLsb' 26 6 = 0#6 → w ≠ 0#32 → ∀ i, decodeWord w ≠ .ok i)

/-- R143: SKIP adds 1 + n8 to pc when its condition holds, else 1, and changes nothing else; its word is illegal for
cond = 3; a target at or beyond 256 ends the frame normally. -/
def Obligations.SkipJumpsForward : Prop :=
  (∀ (cond : BitVec 2) (n8 : BitVec 8) (s : State), cond ≠ 3#2 →
    exec (.skip cond n8) s = .next { s with
      pc := if cond = 0#2 ∨ (cond = 1#2 ∧ s.freeze = true) ∨ (cond = 2#2 ∧ s.freeze = false)
        then s.pc + 1 + n8.toNat else s.pc + 1 }) ∧
  (∀ (cond : BitVec 2) (n8 : BitVec 8),
    (cond ≠ 3#2 → decodeWord (0x08000000#32 ||| cond.setWidth 32 <<< 24 ||| n8.setWidth 32) = .ok (.skip cond n8)) ∧
    (cond = 3#2 → ∀ i, decodeWord (0x08000000#32 ||| cond.setWidth 32 <<< 24 ||| n8.setWidth 32) ≠ .ok i)) ∧
  (∀ (n8 : BitVec 8) (s t : State), s.inbox = [] → s.seq = .running → exec (.skip 0#2 n8) s = .next t →
    256 ≤ s.pc + 1 + n8.toNat → step t = .next { t with frames := s.frames + 1#32, done := true, seq := .idle })

/-- R145 and R146: MOV copies all 32 bits of X[xs] to X[xd], LDKH writes imm16 over sixteen zeros, and nothing else
changes but pc; their words are the match of their row with the fields in place. -/
def Obligations.MovAndLdkh : Prop :=
  (∀ (xd xs : XReg) (s : State), ∃ t, exec (.mov xd xs) s = .next t ∧ WritesOnlyX s t xd (s.getX xs)) ∧
  (∀ (xd : XReg) (imm16 : BitVec 16) (s : State), ∃ t, exec (.ldkh xd imm16) s = .next t ∧
    WritesOnlyX s t xd (imm16.setWidth 32 <<< 16)) ∧
  (∀ xd xs : XReg, decodeWord (0x0C000000#32 ||| xd.setWidth 32 <<< 22 ||| xs.setWidth 32 <<< 18) = .ok (.mov xd xs)) ∧
  (∀ (xd : XReg) (imm16 : BitVec 16),
    decodeWord (0x10000000#32 ||| xd.setWidth 32 <<< 22 ||| imm16.setWidth 32) = .ok (.ldkh xd imm16))

/-! ## FADD, FSUB, FMUL -/

/-- FADD writes fadd(X[xs], X[xt]) to X[xd] and nothing else but pc; fadd is the sum rounded once, an exact zero
sum is +0 unless both operands are -0, infinities stay, inf + -inf and a NaN operand give 0x7FC00000
(41_arith.md R160; rounding: 00_scope.md R11). The sums with an infinity are IEEE 754's, presumed (log entry 16). -/
def Obligations.FaddRoundsTheSum : Prop :=
  (∀ (xd xs xt : XReg) (s : State), ∃ t, exec (.fadd xd xs xt) s = .next t ∧
    WritesOnlyX s t xd (fadd (s.getX xs) (s.getX xt))) ∧
  (∀ xd xs xt : XReg, decodeWord (0x14000000#32 ||| xd.setWidth 32 <<< 22 ||| xs.setWidth 32 <<< 18 |||
    xt.setWidth 32 <<< 14) = .ok (.fadd xd xs xt)) ∧
  (∀ a b : Word, f32IsFinite a = true → f32IsFinite b = true →
    (f32Value a + f32Value b ≠ 0 → F32RoundsTo (fadd a b) (f32Value a + f32Value b)) ∧
    (f32Value a + f32Value b = 0 → fadd a b = if a = 0x80000000#32 ∧ b = 0x80000000#32 then 0x80000000#32 else 0#32)) ∧
  (∀ a b : Word, f32Mag a = 0x7F800000 → f32IsFinite b = true → fadd a b = a ∧ fadd b a = a) ∧
  (∀ a b : Word, f32Mag a = 0x7F800000 → f32Mag b = 0x7F800000 → fadd a b = if a = b then a else 0x7FC00000#32) ∧
  (∀ a b : Word, f32IsNaN a = true → fadd a b = 0x7FC00000#32 ∧ fadd b a = 0x7FC00000#32)

/-- FSUB writes fsub(X[xs], X[xt]) to X[xd] and nothing else but pc; fsub is the difference rounded once, an exact
zero difference is +0 except (-0) - (+0) = -0, infinities stay, inf - inf and a NaN operand give 0x7FC00000
(41_arith.md R161; rounding: 00_scope.md R11). The differences with an infinity are IEEE 754's, presumed (log entry 16). -/
def Obligations.FsubRoundsTheDifference : Prop :=
  (∀ (xd xs xt : XReg) (s : State), ∃ t, exec (.fsub xd xs xt) s = .next t ∧
    WritesOnlyX s t xd (fsub (s.getX xs) (s.getX xt))) ∧
  (∀ xd xs xt : XReg, decodeWord (0x18000000#32 ||| xd.setWidth 32 <<< 22 ||| xs.setWidth 32 <<< 18 |||
    xt.setWidth 32 <<< 14) = .ok (.fsub xd xs xt)) ∧
  (∀ a b : Word, f32IsFinite a = true → f32IsFinite b = true →
    (f32Value a - f32Value b ≠ 0 → F32RoundsTo (fsub a b) (f32Value a - f32Value b)) ∧
    (f32Value a - f32Value b = 0 → fsub a b = if a = 0x80000000#32 ∧ b = 0#32 then 0x80000000#32 else 0#32)) ∧
  (∀ a b : Word, f32Mag a = 0x7F800000 → f32IsFinite b = true → fsub a b = a ∧ fsub b a = fneg a) ∧
  (∀ a b : Word, f32Mag a = 0x7F800000 → f32Mag b = 0x7F800000 → fsub a b = if a = b then 0x7FC00000#32 else a) ∧
  (∀ a b : Word, f32IsNaN a = true → fsub a b = 0x7FC00000#32 ∧ fsub b a = 0x7FC00000#32)

/-- FMUL writes fmul(X[xs], X[xt]) to X[xd] and nothing else but pc; fmul is the product rounded once (subnormals
kept), a zero product has the XOR of the signs, 0 x inf and a NaN operand give 0x7FC00000 (41_arith.md R162; rounding:
00_scope.md R11). An infinity times a nonzero operand is IEEE 754's infinity, presumed (log entry 16). -/
def Obligations.FmulRoundsTheProduct : Prop :=
  (∀ (xd xs xt : XReg) (s : State), ∃ t, exec (.fmul xd xs xt) s = .next t ∧
    WritesOnlyX s t xd (fmul (s.getX xs) (s.getX xt))) ∧
  (∀ xd xs xt : XReg, decodeWord (0x1C000000#32 ||| xd.setWidth 32 <<< 22 ||| xs.setWidth 32 <<< 18 |||
    xt.setWidth 32 <<< 14) = .ok (.fmul xd xs xt)) ∧
  (∀ a b : Word, f32IsFinite a = true → f32IsFinite b = true →
    (f32Value a * f32Value b ≠ 0 → F32RoundsTo (fmul a b) (f32Value a * f32Value b)) ∧
    (f32Value a * f32Value b = 0 → fmul a b = if f32Sign a = f32Sign b then 0#32 else 0x80000000#32)) ∧
  (∀ a b : Word, f32Mag a = 0x7F800000 → f32IsNaN b = false →
    (f32Mag b = 0 → fmul a b = 0x7FC00000#32 ∧ fmul b a = 0x7FC00000#32) ∧
    (f32Mag b ≠ 0 → fmul a b = f32Inf (f32Sign a != f32Sign b) ∧ fmul b a = f32Inf (f32Sign a != f32Sign b))) ∧
  (∀ a b : Word, f32IsNaN a = true → fmul a b = 0x7FC00000#32 ∧ fmul b a = 0x7FC00000#32)

/-! ## Delay lines -/

/-- R170: the sample at integer delay m is at DL_BASE + ((cur - m) & mask) mod SRAM_WORDS, with the two's-complement
remainder, in 0..mask for every m; the sample at delay 1 is the one most recently written; the sample at delay size, as at
delay 0, is in the slot the next write overwrites. -/
def Obligations.RingAddressing : Prop :=
  (∀ (s : State) (j : Chan) (m : Int),
    let c := s.getCh j
    let mask : Word := BitVec.ofNat 32 (2 ^ c.dlLog2.toNat - 1)
    let slot : Word := ((c.dlCur &&& mask) - BitVec.ofInt 32 m) &&& mask
    s.tap j m = s.ramWord (0x400000 + 4 * ((c.dlBase.toNat + slot.toNat) % 2 ^ s.sramLog2)) ∧ slot.toNat ≤ mask.toNat) ∧
  (∀ (s : State) (j : Chan) (v : Word), (s.dlWrite j v).tap j 1 = v) ∧
  (∀ (s : State) (j : Chan), s.tap j ((s.getCh j).size : Int) = s.tap j 0 ∧
    s.tap j 0 = s.ramWord (s.sramAddr (s.ringWord j)))

/-- A delay line remembers: after any list of at most 2^k ring writes to a channel whose ring fits the sample RAM, the
sample at delay i + 1 is the one written i writes before the last, and what was in the ring before stays behind them
(42_delay.md R170, R171; 70_reset_and_hazards.md R312). -/
def Obligations.DelayLineRemembers : Prop :=
  ∀ (s : State) (j : Chan) (vs : List Word), (s.getCh j).Legal s.sramLog2 → vs.length ≤ (s.getCh j).size →
    (∀ i, i < vs.length → (vs.foldl (fun t v => t.dlWrite j v) s).tap j ((i : Int) + 1) = vs.reverse.getD i 0#32) ∧
    (∀ i, vs.length ≤ i → i < (s.getCh j).size →
      (vs.foldl (fun t v => t.dlWrite j v) s).tap j ((i : Int) + 1) = s.tap j ((i : Int) + 1 - vs.length))

/-- R172: a delay is clamped to [2, 2^k - 3] in value; a NaN and minus infinity read at 2, plus infinity at 2^k - 3; a
delay within the range is kept as it is. So the four taps of R173 are at delays 1 to 2^k - 1. -/
def Obligations.DelayIsClamped : Prop :=
  ∀ (c : Channel) (d : Word), 3 ≤ c.dlLog2.toNat → c.dlLog2.toNat ≤ 24 →
    (f32IsNaN d = true ∨ d = 0xFF800000#32 → c.clampDelay d = 0x40000000#32) ∧
    (d = 0x7F800000#32 → f32Value (c.clampDelay d) = 2 ^ c.dlLog2.toNat - 3) ∧
    (f32IsFinite d = true →
      f32Value (c.clampDelay d) = max 2 (min (f32Value d) (2 ^ c.dlLog2.toNat - 3)) ∧
      (2 ≤ f32Value d → f32Value d ≤ 2 ^ c.dlLog2.toNat - 3 → c.clampDelay d = d)) ∧
    f32IsFinite (c.clampDelay d) = true ∧
    2 ≤ f32Floor (c.clampDelay d) ∧ f32Floor (c.clampDelay d) + 2 ≤ 2 ^ c.dlLog2.toNat - 1

/-- R175: DLWR stores the bits of X[xs] in the word at DL_BASE + cur mod SRAM_WORDS and sets DL_CUR to (cur + 1) & mask;
no other byte, register or channel changes, but pc. -/
def Obligations.DlwrStoresAtTheCursor : Prop :=
  (∀ (ch : Chan) (xs : XReg) (s : State), ∃ t, exec (.dlwr ch xs) s = .next t ∧
    t.readWord (s.sramAddr (s.ringWord ch)) = some (s.getX xs) ∧
    SameMemoryOutside s t (s.sramAddr (s.ringWord ch)) ∧
    (∀ j, t.getCh j =
      if j = ch then { s.getCh ch with
        dlCur := BitVec.ofNat 32 (((s.getCh ch).dlCur.toNat % 2 ^ (s.getCh ch).dlLog2.toNat + 1) %
          2 ^ (s.getCh ch).dlLog2.toNat) }
      else s.getCh j) ∧
    t.pc = s.pc + 1 ∧ { t with mem := s.mem, ch := s.ch, pc := s.pc } = s) ∧
  (∀ (ch : Chan) (s : State), s.sramAddr (s.ringWord ch) = 0x400000 + 4 * (((s.getCh ch).dlBase.toNat +
    (s.getCh ch).dlCur.toNat % 2 ^ (s.getCh ch).dlLog2.toNat) % 2 ^ s.sramLog2)) ∧
  (∀ (ch : Chan) (xs : XReg),
    decodeWord (0x20000000#32 ||| xs.setWidth 32 <<< 18 ||| ch.setWidth 32 <<< 9) = .ok (.dlwr ch xs))

/-- R173 and R176: DLRD writes to X[xd] the Catmull-Rom cubic through the four taps around the clamped delay X[xs], in
the spec's order of operations, and changes nothing else but pc. On a legal ring the fraction t is exact, 0 <= t < 1. -/
def Obligations.DlrdReadsTheCubic : Prop :=
  (∀ (xd : XReg) (ch : Chan) (xs : XReg) (s : State), ∃ t, exec (.dlrd xd ch xs) s = .next t ∧
    WritesOnlyX s t xd (s.dlRead ch (s.getX xs))) ∧
  (∀ (s : State) (j : Chan) (d : Word),
    let d' := (s.getCh j).clampDelay d
    let i : Nat := f32Floor d'
    let t := fsub d' (i2f i)
    let p0 := s.tap j ((i : Int) - 1)
    let p1 := s.tap j (i : Int)
    let p2 := s.tap j ((i : Int) + 1)
    let p3 := s.tap j ((i : Int) + 2)
    let a := fsub p2 p0
    let b := fsub (fadd (fsub (fmul 0x40000000#32 p0) (fmul 0x40A00000#32 p1)) (fmul 0x40800000#32 p2)) p3
    let c := fadd (fmul 0x40400000#32 (fsub p1 p2)) (fsub p3 p0)
    s.dlRead j d = fadd p1 (fmul 0x3F000000#32 (fmul (fadd a (fmul (fadd b (fmul c t)) t)) t))) ∧
  (∀ (c : Channel) (d : Word), 3 ≤ c.dlLog2.toNat → c.dlLog2.toNat ≤ 24 →
    let d' := c.clampDelay d
    let t := fsub d' (i2f (f32Floor d'))
    f32IsFinite t = true ∧ f32Value t = f32Value d' - f32Floor d' ∧ 0 ≤ f32Value t ∧ f32Value t < 1) ∧
  (∀ (xd : XReg) (ch : Chan) (xs : XReg), decodeWord (0x24000000#32 ||| xd.setWidth 32 <<< 22 |||
    xs.setWidth 32 <<< 18 ||| ch.setWidth 32 <<< 9) = .ok (.dlrd xd ch xs))

/-- R177: DLRDM writes to X[xd] the read at DLEN plus sine times depth, of the phase before it advances by LFO_INC, and
changes nothing else but that phase and pc. -/
def Obligations.DlrdmReadsModulated : Prop :=
  (∀ (xd : XReg) (ch : Chan) (s : State), ∃ t, exec (.dlrdm xd ch) s = .next t ∧
    WritesXAndChannel s t xd
      (s.dlRead ch (fadd (s.getCh ch).dlen (fmul (lfoSin (s.getCh ch).lfoPh) (s.getCh ch).lfoDepth)))
      ch { s.getCh ch with lfoPh := (s.getCh ch).lfoPh + (s.getCh ch).lfoInc }) ∧
  (∀ (xd : XReg) (ch : Chan),
    decodeWord (0x28000000#32 ||| xd.setWidth 32 <<< 22 ||| ch.setWidth 32 <<< 9) = .ok (.dlrdm xd ch))

/-! ## The oscillator -/

/-- R193: LFO writes sine times depth of the phase to X[xd], then the phase advances by LFO_INC modulo 2^32;
nothing else changes but pc. -/
def Obligations.LfoWritesSineTimesDepth : Prop :=
  (∀ (xd : XReg) (ch : Chan) (s : State), ∃ t, exec (.lfo xd ch) s = .next t ∧
    WritesXAndChannel s t xd (fmul (lfoSin (s.getCh ch).lfoPh) (s.getCh ch).lfoDepth)
      ch { s.getCh ch with
        lfoPh := BitVec.ofNat 32 (((s.getCh ch).lfoPh.toNat + (s.getCh ch).lfoInc.toNat) % 2 ^ 32) }) ∧
  (∀ (xd : XReg) (ch : Chan),
    decodeWord (0x2C000000#32 ||| xd.setWidth 32 <<< 22 ||| ch.setWidth 32 <<< 9) = .ok (.lfo xd ch))

/-- LfoSin interpolates the table linearly in the spec's order, with an exact fraction p[21:0] / 2^22, is exactly the
table entry whenever p[21:0] = 0, and the table has the sine's symmetries (43_lfo.md R190, R191). -/
def Obligations.SineIsExactAtTableSteps : Prop :=
  (∀ p : Word,
    let i := (p.extractLsb' 22 10).toNat
    let fr := fmul (i2f (p.extractLsb' 0 22).toNat) 0x34800000#32
    lfoSin p = fadd (sineT i) (fmul fr (fsub (sineT ((i + 1) % 1024)) (sineT i))) ∧
    f32Value fr = ((p.extractLsb' 0 22).toNat : ℚ) / 2 ^ 22) ∧
  (∀ p : Word, p.extractLsb' 0 22 = 0#22 → lfoSin p = sineT (p.extractLsb' 22 10).toNat) ∧
  (∀ k, k ≤ 256 → sineT (512 - k) = sineT k) ∧
  (∀ k, k < 512 → k ≠ 0 → sineT (512 + k) = fneg (sineT k)) ∧
  (∀ k, k < 256 → f32Value (sineT k) < f32Value (sineT (k + 1))) ∧
  sineT 0 = 0#32 ∧ sineT 256 = 0x3F800000#32 ∧ sineT 512 = 0#32 ∧ sineT 768 = 0xBF800000#32

/-! ## Allpass sections -/

/-- R201: AP reads the ring at DLEN plus the modulation, stores v = x + g*dly at the cursor, writes
y = dly - g*v to X[xd], and advances the channel's phase and cursor; nothing else changes but pc. -/
def Obligations.ApRunsOneSection : Prop :=
  (∀ (xd : XReg) (ch : Chan) (xs : XReg) (s : State),
    let c := s.getCh ch
    let dly := s.dlRead ch (fadd c.dlen (fmul (lfoSin c.lfoPh) c.lfoDepth))
    let v := fadd (s.getX xs) (fmul c.apG dly)
    let y := fsub dly (fmul c.apG v)
    ∃ t, exec (.ap xd ch xs) s = .next t ∧ t.getX xd = y ∧ SameXExcept s t xd ∧
      t.readWord (s.sramAddr (s.ringWord ch)) = some v ∧ SameMemoryOutside s t (s.sramAddr (s.ringWord ch)) ∧
      (∀ j, t.getCh j =
        if j = ch then { c with
          lfoPh := c.lfoPh + c.lfoInc
          dlCur := BitVec.ofNat 32 ((c.dlCur.toNat % 2 ^ c.dlLog2.toNat + 1) % 2 ^ c.dlLog2.toNat) }
        else s.getCh j) ∧
      t.pc = s.pc + 1 ∧ { t with x := s.x, ch := s.ch, mem := s.mem, pc := s.pc } = s) ∧
  (∀ (xd : XReg) (ch : Chan) (xs : XReg), decodeWord (0x30000000#32 ||| xd.setWidth 32 <<< 22 |||
    xs.setWidth 32 <<< 18 ||| ch.setWidth 32 <<< 9) = .ok (.ap xd ch xs))

/-- APC of one section is AP, and APC of n + 2 sections is AP on the first channel followed by APC of the rest on its
output, as one instruction; X[xd] is written once, at the end (44_allpass.md R202). -/
def Obligations.ApcIsACascadeOfAp : Prop :=
  (∀ (xd : XReg) (ch : Chan) (xs : XReg) (s : State), exec (.apc xd ch xs 0#3) s = exec (.ap xd ch xs) s) ∧
  (∀ (xd : XReg) (ch : Chan) (xs : XReg) (n : Nat) (s : State), n < 7 → ch.toNat + n + 1 ≤ 31 →
    ∃ t u, exec (.ap xd ch xs) s = .next t ∧
      exec (.apc xd (ch + 1#5) xd (BitVec.ofNat 3 n)) { t with pc := s.pc } = .next u ∧
      exec (.apc xd ch xs (BitVec.ofNat 3 (n + 1))) s = .next u)

/-- The frame of APC: X[xd], the phases and cursors of channels ch..ch+n, the one ring word of each, and pc; nothing else
(44_allpass.md R202). -/
def Obligations.ApcFrame : Prop :=
  ∀ (xd : XReg) (ch : Chan) (xs : XReg) (n : BitVec 3) (s : State), ch.toNat + n.toNat ≤ 31 →
    ∃ t, exec (.apc xd ch xs n) s = .next t ∧ SameXExcept s t xd ∧
      (∀ j : Chan, t.getCh j =
        if ch.toNat ≤ j.toNat ∧ j.toNat ≤ ch.toNat + n.toNat then
          { s.getCh j with
            lfoPh := (s.getCh j).lfoPh + (s.getCh j).lfoInc
            dlCur := BitVec.ofNat 32 (((s.getCh j).dlCur.toNat % 2 ^ (s.getCh j).dlLog2.toNat + 1) %
              2 ^ (s.getCh j).dlLog2.toNat) }
        else s.getCh j) ∧
      (∀ a, (∀ j : Chan, ch.toNat ≤ j.toNat → j.toNat ≤ ch.toNat + n.toNat →
        a < s.sramAddr (s.ringWord j) ∨ s.sramAddr (s.ringWord j) + 4 ≤ a) → t.readByte a = s.readByte a) ∧
      t.pc = s.pc + 1 ∧ { t with x := s.x, ch := s.ch, mem := s.mem, pc := s.pc } = s

/-! ## Damper, mixer, output stage -/

/-- R211: DAMP filters X[xs] through damper u in the spec's order, writes the result to X[xd] and the lowpass to
LP, and changes nothing else but pc. -/
def Obligations.DampFiltersTwoBands : Prop :=
  (∀ (xd : XReg) (u : DampIx) (xs : XReg) (s : State),
    let d := s.getDmp u
    let x := s.getX xs
    let lp := fadd d.lp (fmul d.xc (fsub x d.lp))
    ∃ t, exec (.damp xd u xs) s = .next t ∧
      t.getX xd = fadd (fmul d.glow lp) (fmul d.ghigh (fsub x lp)) ∧ SameXExcept s t xd ∧
      (∀ w, t.getDmp w = if w = u then { d with lp := lp } else s.getDmp w) ∧ SameMemory s t ∧
      t.pc = s.pc + 1 ∧ { t with x := s.x, dmp := s.dmp, pc := s.pc } = s) ∧
  (∀ (xd : XReg) (u : DampIx) (xs : XReg), decodeWord (0x38000000#32 ||| xd.setWidth 32 <<< 22 |||
    xs.setWidth 32 <<< 18 ||| u.setWidth 32 <<< 9) = .ok (.damp xd u xs))

/-- R221: HAD16 replaces X0..X15 by their Walsh-Hadamard transform, four butterfly stages with the 1/4 in the
last, and changes nothing else but pc; a NaN in any register makes all sixteen 0x7FC00000. -/
def Obligations.Had16TransformsAllRegisters : Prop :=
  (∀ s : State, ∃ t, exec .had16 s = .next t ∧
    (∀ r : XReg, t.getX r = hadamard (fun i => s.getX (BitVec.ofNat 4 i)) r.toNat) ∧
    t.pc = s.pc + 1 ∧ { t with x := s.x, pc := s.pc } = s ∧ SameMemory s t) ∧
  (∀ (s t : State) (q : XReg), f32IsNaN (s.getX q) = true → exec .had16 s = .next t → ∀ r, t.getX r = 0x7FC00000#32) ∧
  decodeWord 0x3C000000#32 = .ok .had16

/-- HAD16 computes the Sylvester Hadamard matrix over 4 exactly on integers of magnitude at most 2^20: X[r] becomes a
quarter of the sum of (-1)^popcount(r AND j) X[j] (46_hadamard.md R220). -/
def Obligations.HadamardIsSylvester : Prop :=
  ∀ (s t : State) (n : Nat → Int), (∀ j : XReg, f32IsFinite (s.getX j) = true ∧ f32Value (s.getX j) = n j.toNat) →
    (∀ j, j < 16 → |n j| ≤ 2 ^ 20) → exec .had16 s = .next t →
    ∀ r : XReg, f32IsFinite (t.getX r) = true ∧
      f32Value (t.getX r) = (1 / 4 : ℚ) * (((List.range 16).map fun j =>
        (if (List.range 4).countP (fun b => (r.toNat &&& j).testBit b) % 2 = 0 then n j else -n j)).sum : Int)

/-- SCLIP writes SoftClip(X[xs]) to X[xd] and nothing else but pc. SoftClip is the clamp and the quotient of
47_output.md R230 in its order; it is odd, keeps both zeros, is exactly 1 or -1 from 3 outwards, and gives the canonical
NaN for a NaN (R230, R231). -/
def Obligations.SclipClipsSoftly : Prop :=
  (∀ (xd xs : XReg) (s : State), ∃ t, exec (.sclip xd xs) s = .next t ∧ WritesOnlyX s t xd (softClip (s.getX xs))) ∧
  (∀ x : Word,
    let c := if flt 0x40400000#32 x = true then 0x40400000#32 else if flt x 0xC0400000#32 = true then 0xC0400000#32 else x
    softClip x = fdiv (fmul c (fadd 0x41D80000#32 (fmul c c))) (fadd 0x41D80000#32 (fmul 0x41100000#32 (fmul c c)))) ∧
  (∀ x : Word, f32IsNaN x = false → softClip (fneg x) = fneg (softClip x)) ∧
  (∀ x : Word, f32IsNaN x = true → softClip x = 0x7FC00000#32) ∧
  (∀ x : Word, flt x 0x40400000#32 = false → f32IsNaN x = false → softClip x = 0x3F800000#32) ∧
  (∀ x : Word, flt 0xC0400000#32 x = false → f32IsNaN x = false → softClip x = 0xBF800000#32) ∧
  softClip 0#32 = 0#32 ∧ softClip 0x80000000#32 = 0x80000000#32

/-- WIDTH scales the side signal by the register WIDTH: X[xl] takes M + S', then X[xr] takes M - S', both computed before
either is written; nothing else changes but pc (47_output.md R234, R235). -/
def Obligations.WidthScalesTheSide : Prop :=
  (∀ (xl xr : XReg) (s : State),
    let m := fmul (fadd (s.getX xl) (s.getX xr)) 0x3F000000#32
    let d := fmul (fmul (fsub (s.getX xl) (s.getX xr)) 0x3F000000#32) s.width
    ∃ t, exec (.width xl xr) s = .next t ∧
      (∀ q, t.getX q = if q = xr then fsub m d else if q = xl then fadd m d else s.getX q) ∧
      t.pc = s.pc + 1 ∧ { t with x := s.x, pc := s.pc } = s ∧ SameMemory s t) ∧
  (∀ (xl xr : XReg) (s t : State), s.width = 0#32 → exec (.width xl xr) s = .next t →
    t.getX xl = t.getX xr ∨ f32Mag (t.getX xl) = 0 ∧ f32Mag (t.getX xr) = 0)

/-- R241: DCB writes (x - X1) + R*Y1 to X[xd] and Y1, and the input's bits to X1; nothing else changes but
pc. -/
def Obligations.DcbBlocksDc : Prop :=
  (∀ (xd : XReg) (u : DcbIx) (xs : XReg) (s : State),
    let d := s.getDcb u
    let y := fadd (fsub (s.getX xs) d.x1) (fmul d.r d.y1)
    ∃ t, exec (.dcb xd u xs) s = .next t ∧ t.getX xd = y ∧ SameXExcept s t xd ∧
      (∀ w, t.getDcb w = if w = u then { d with x1 := s.getX xs, y1 := y } else s.getDcb w) ∧ SameMemory s t ∧
      t.pc = s.pc + 1 ∧ { t with x := s.x, dcb := s.dcb, pc := s.pc } = s) ∧
  (∀ (xd : XReg) (u : DcbIx) (xs : XReg), decodeWord (0x48000000#32 ||| xd.setWidth 32 <<< 22 |||
    xs.setWidth 32 <<< 18 ||| u.setWidth 32 <<< 9) = .ok (.dcb xd u xs))

/-! ## FDN -/

/-- FDN's outputs and its frame: X[xd] and X[(xd + 1) mod 16] take the clipped tap sums of the 16 modulated reads of the
state before the instruction; the phases and cursors of channels 0..15 advance, BSIGN toggles, and apart from the dampers
and the ring words nothing else changes but pc (48_fdn.md R250, R251, R254). -/
def Obligations.FdnOutputs : Prop :=
  ∀ (xd xs : XReg) (s : State),
    let o := fun i : Nat => s.dlRead (BitVec.ofNat 5 i) (fadd (s.getCh (BitVec.ofNat 5 i)).dlen
      (fmul (lfoSin (s.getCh (BitVec.ofNat 5 i)).lfoPh) (s.getCh (BitVec.ofNat 5 i)).lfoDepth))
    let out := fun (taps : Word) (base : Nat) =>
      fmul (softClip (fmul ((List.range 8).foldl (fun acc k =>
        if s.tapSgn.getLsbD (base + k) = true then fsub acc (o (taps.extractLsb' (4 * k) 4).toNat)
        else fadd acc (o (taps.extractLsb' (4 * k) 4).toNat)) 0#32) 0x3EB504F3#32)) s.makeup
    ∃ t, exec (.fdn xd xs) s = .next t ∧ t.getX xd = out s.tapIdxL 0 ∧ t.getX (xd + 1#4) = out s.tapIdxR 8 ∧
      (∀ q, q ≠ xd → q ≠ xd + 1#4 → t.getX q = s.getX q) ∧
      (∀ j : Chan, t.getCh j =
        if j.toNat < 16 then
          { s.getCh j with
            lfoPh := (s.getCh j).lfoPh + (s.getCh j).lfoInc
            dlCur := BitVec.ofNat 32 (((s.getCh j).dlCur.toNat % 2 ^ (s.getCh j).dlLog2.toNat + 1) %
              2 ^ (s.getCh j).dlLog2.toNat) }
        else s.getCh j) ∧
      t.bsign = !s.bsign ∧ t.pc = s.pc + 1 ∧
      { t with x := s.x, ch := s.ch, dmp := s.dmp, mem := s.mem, bsign := s.bsign, pc := s.pc } = s

/-- FDN's write-back: line i damps the mixed value (not when frozen), adds or subtracts a quarter of the input, adds the
bias of its sign, and stores the result at its cursor, where it stays unless a later line stores to the same word; no
other byte of memory changes, and the dampers' LP move only when not frozen (48_fdn.md R250, R252, R253). -/
def Obligations.FdnWriteBack : Prop :=
  ∀ (xd xs : XReg) (s : State),
    let o := fun i : Nat => s.dlRead (BitVec.ofNat 5 i) (fadd (s.getCh (BitVec.ofNat 5 i)).dlen
      (fmul (lfoSin (s.getCh (BitVec.ofNat 5 i)).lfoPh) (s.getCh (BitVec.ofNat 5 i)).lfoDepth))
    let m := hadamard o
    let inj := fmul (s.getX xs) 0x3E800000#32
    let lp := fun u : DampIx =>
      fadd (s.getDmp u).lp (fmul (s.getDmp u).xc (fsub (m u.toNat) (s.getDmp u).lp))
    let y := fun u : DampIx =>
      fadd (fmul (s.getDmp u).glow (lp u)) (fmul (s.getDmp u).ghigh (fsub (m u.toNat) (lp u)))
    let b := fun u : DampIx => if (u.toNat % 2 = 1) = (s.bsign = true) then s.bias else fneg s.bias
    let v := fun u : DampIx =>
      fadd (if s.freeze = true then m u.toNat else if u.toNat % 2 = 0 then fadd (y u) inj else fsub (y u) inj) (b u)
    let a := fun u : DampIx => s.sramAddr (s.ringWord (BitVec.ofNat 5 u.toNat))
    ∃ t, exec (.fdn xd xs) s = .next t ∧
      (∀ u, t.getDmp u = if s.freeze = true then s.getDmp u else { s.getDmp u with lp := lp u }) ∧
      (∀ u, (∀ w : DampIx, u.toNat < w.toNat → a w ≠ a u) → t.readWord (a u) = some (v u)) ∧
      (∀ c, (∀ u, c < a u ∨ a u + 4 ≤ c) → t.readByte c = s.readByte c)

/-- What FDN's results do not depend on. The outputs do not depend on what the same step writes: states that agree on the
channels, the memory, the taps and the makeup gain give the same outputs, whatever their input, dampers, bias, BSIGN and
FREEZE (48_fdn.md R255 c). Frozen, the input and the dampers play no part at all: two states that differ only in X[xs] and
the dampers get the same outputs, channels, memory and BSIGN, and the dampers stay (R252). -/
def Obligations.FdnNoninterference : Prop :=
  (∀ (xd xs ys : XReg) (s : State) (x : Vector Word 16) (d : Vector Damper 16) (bias : Word) (bsign freeze : Bool),
    ∃ t u, exec (.fdn xd xs) s = .next t ∧
      exec (.fdn xd ys) { s with x := x, dmp := d, bias := bias, bsign := bsign, freeze := freeze } = .next u ∧
      u.getX xd = t.getX xd ∧ u.getX (xd + 1#4) = t.getX (xd + 1#4)) ∧
  (∀ (xd xs : XReg) (s : State) (v : Word) (d : Vector Damper 16), s.freeze = true →
    ∃ t u, exec (.fdn xd xs) s = .next t ∧ exec (.fdn xd xs) { s.setX xs v with dmp := d } = .next u ∧
      t.dmp = s.dmp ∧ u.dmp = d ∧ { u with x := t.x, dmp := t.dmp } = t)

/-! ## Every step -/

/-- The invariant holds after reset, whatever the size of the sample RAM. -/
def Obligations.InvariantHoldsAtReset : Prop :=
  State.reset.Inv ∧ ∀ k, 10 ≤ k → k ≤ 24 → (State.resetWith k).Inv

/-- Every step keeps the invariant: the pc within 9 bits, a frame only once prepared, every channel block legal, the
memory in its canonical form and inside the two RAMs. -/
def Obligations.StepKeepsInvariant : Prop := ∀ s t : State, s.Inv → step s = .next t → t.Inv

/-- R49: no step of a frame changes a register but those of the rule's list: every parameter holds for the whole frame
the value it had at GO. -/
def Obligations.ParametersHoldForTheFrame : Prop :=
  ∀ s t : State, s.seq = .running → NoReset s → step s = .next t →
    t.freeze = s.freeze ∧ t.doneIe = s.doneIe ∧ t.illIe = s.illIe ∧ t.buserrIe = s.buserrIe ∧ t.width = s.width ∧
    t.bias = s.bias ∧ t.makeup = s.makeup ∧ t.tapIdxL = s.tapIdxL ∧ t.tapIdxR = s.tapIdxR ∧ t.tapSgn = s.tapSgn ∧
    t.prepared = s.prepared ∧ t.sramLog2 = s.sramLog2 ∧ t.buserr = s.buserr ∧ t.buserrAddr = s.buserrAddr ∧
    (∀ j : Chan, { t.getCh j with dlCur := (s.getCh j).dlCur, lfoPh := (s.getCh j).lfoPh } = s.getCh j) ∧
    (∀ u, { t.getDmp u with lp := (s.getDmp u).lp } = s.getDmp u) ∧
    (∀ u, { t.getDcb u with x1 := (s.getDcb u).x1, y1 := (s.getDcb u).y1 } = s.getDcb u)

/-- R94: only the host writes the program RAM, and only while the block is not busy: a step that changes a byte below the
sample RAM takes a host write to the program RAM, or a reset (whose RAM contents are unspecified). -/
def Obligations.OnlyTheHostWritesTheProgram : Prop :=
  ∀ (s t : State) (a : Nat), step s = .next t → a < 0x400000 → t.readByte a ≠ s.readByte a →
    (∃ rest, s.inbox = .reset :: rest) ∨
    (s.seq = .idle ∧ ∃ (b v : Word) (rest : List HostEvent), s.inbox = .write b 32 v :: rest ∧
      0x1000 ≤ b.toNat ∧ b.toNat < 0x1400 ∧ b.toNat ≤ a ∧ a < b.toNat + 4)

/-- A legal instruction always completes and raises nothing, whatever the registers hold (60_exceptions.md R273): it answers a next state in
which ILL, ILL_PC, ILL_WORD and BUSERR are as before and, unless it is END, the frame goes on with a greater pc. -/
def Obligations.LegalInstructionsAlwaysComplete : Prop :=
  ∀ (i : Instr) (s : State), i.wellFormed = true →
    ∃ t, exec i s = .next t ∧ t.ill = s.ill ∧ t.illPc = s.illPc ∧ t.illWord = s.illWord ∧ t.buserr = s.buserr ∧
      t.buserrAddr = s.buserrAddr ∧ t.inbox = s.inbox ∧ t.replies = s.replies ∧
      (i ≠ .endFrame → t.seq = s.seq ∧ t.done = s.done ∧ t.frames = s.frames ∧ s.pc < t.pc ∧ t.pc ≤ s.pc + 256)
end

