-- ==== Sys2Proof/Laws/PerInstr.lean ====
section
/-! SUPPORT. Facts about every instruction as syntax, one lemma per constructor: the word of an instruction matches its
row of 30_encoding.md R115. -/

namespace Sys2Proof.Laws.EncodeMatches

theorem eq_of_bits {a b : Word} (h : ∀ k, k < 32 → a.getLsbD k = b.getLsbD k) : a = b := BitVec.eq_of_getLsbD_eq h

/-- The word of an instruction has the fixed bits of its row of the opcode map. -/
def Statement (i : Instr) : Prop := encode i &&& rowMask i = rowMatch i

theorem nop : Statement .nop := eq_of_bits (by decide)

theorem endFrame : Statement .endFrame := eq_of_bits (by decide)

theorem skip (cond : BitVec 2) (n8 : BitVec 8) : Statement (.skip cond n8) := by
  apply eq_of_bits
  intro k hk
  simp only [encode, rowMask, rowMatch, formatS, BitVec.getLsbD_and, BitVec.getLsbD_append]
  interval_cases k <;> simp

theorem mov (xd xs : XReg) : Statement (.mov xd xs) := by
  apply eq_of_bits
  intro k hk
  simp only [encode, rowMask, rowMatch, formatA, BitVec.getLsbD_and, BitVec.getLsbD_append]
  interval_cases k <;> simp

theorem ldkh (xd : XReg) (imm16 : BitVec 16) : Statement (.ldkh xd imm16) := by
  apply eq_of_bits
  intro k hk
  simp only [encode, rowMask, rowMatch, formatK, BitVec.getLsbD_and, BitVec.getLsbD_append]
  interval_cases k <;> simp

theorem fadd (xd xs xt : XReg) : Statement (.fadd xd xs xt) := by
  apply eq_of_bits
  intro k hk
  simp only [encode, rowMask, rowMatch, formatA, BitVec.getLsbD_and, BitVec.getLsbD_append]
  interval_cases k <;> simp

theorem fsub (xd xs xt : XReg) : Statement (.fsub xd xs xt) := by
  apply eq_of_bits
  intro k hk
  simp only [encode, rowMask, rowMatch, formatA, BitVec.getLsbD_and, BitVec.getLsbD_append]
  interval_cases k <;> simp

theorem fmul (xd xs xt : XReg) : Statement (.fmul xd xs xt) := by
  apply eq_of_bits
  intro k hk
  simp only [encode, rowMask, rowMatch, formatA, BitVec.getLsbD_and, BitVec.getLsbD_append]
  interval_cases k <;> simp

theorem dlwr (ch : Chan) (xs : XReg) : Statement (.dlwr ch xs) := by
  apply eq_of_bits
  intro k hk
  simp only [encode, rowMask, rowMatch, formatA, BitVec.getLsbD_and, BitVec.getLsbD_append]
  interval_cases k <;> simp

theorem dlrd (xd : XReg) (ch : Chan) (xs : XReg) : Statement (.dlrd xd ch xs) := by
  apply eq_of_bits
  intro k hk
  simp only [encode, rowMask, rowMatch, formatA, BitVec.getLsbD_and, BitVec.getLsbD_append]
  interval_cases k <;> simp

theorem dlrdm (xd : XReg) (ch : Chan) : Statement (.dlrdm xd ch) := by
  apply eq_of_bits
  intro k hk
  simp only [encode, rowMask, rowMatch, formatA, BitVec.getLsbD_and, BitVec.getLsbD_append]
  interval_cases k <;> simp

theorem lfo (xd : XReg) (ch : Chan) : Statement (.lfo xd ch) := by
  apply eq_of_bits
  intro k hk
  simp only [encode, rowMask, rowMatch, formatA, BitVec.getLsbD_and, BitVec.getLsbD_append]
  interval_cases k <;> simp

theorem ap (xd : XReg) (ch : Chan) (xs : XReg) : Statement (.ap xd ch xs) := by
  apply eq_of_bits
  intro k hk
  simp only [encode, rowMask, rowMatch, formatA, BitVec.getLsbD_and, BitVec.getLsbD_append]
  interval_cases k <;> simp

theorem apc (xd : XReg) (ch : Chan) (xs : XReg) (n : BitVec 3) : Statement (.apc xd ch xs n) := by
  apply eq_of_bits
  intro k hk
  simp only [encode, rowMask, rowMatch, formatA, BitVec.getLsbD_and, BitVec.getLsbD_append]
  interval_cases k <;> simp

theorem damp (xd : XReg) (u : DampIx) (xs : XReg) : Statement (.damp xd u xs) := by
  apply eq_of_bits
  intro k hk
  simp only [encode, rowMask, rowMatch, formatA, BitVec.getLsbD_and, BitVec.getLsbD_append]
  interval_cases k <;> simp

theorem had16 : Statement .had16 := eq_of_bits (by decide)

theorem sclip (xd xs : XReg) : Statement (.sclip xd xs) := by
  apply eq_of_bits
  intro k hk
  simp only [encode, rowMask, rowMatch, formatA, BitVec.getLsbD_and, BitVec.getLsbD_append]
  interval_cases k <;> simp

theorem width (xl xr : XReg) : Statement (.width xl xr) := by
  apply eq_of_bits
  intro k hk
  simp only [encode, rowMask, rowMatch, formatA, BitVec.getLsbD_and, BitVec.getLsbD_append]
  interval_cases k <;> simp

theorem dcb (xd : XReg) (u : DcbIx) (xs : XReg) : Statement (.dcb xd u xs) := by
  apply eq_of_bits
  intro k hk
  simp only [encode, rowMask, rowMatch, formatA, BitVec.getLsbD_and, BitVec.getLsbD_append]
  interval_cases k <;> simp

theorem fdn (xd xs : XReg) : Statement (.fdn xd xs) := by
  apply eq_of_bits
  intro k hk
  simp only [encode, rowMask, rowMatch, formatA, BitVec.getLsbD_and, BitVec.getLsbD_append]
  interval_cases k <;> simp

end Sys2Proof.Laws.EncodeMatches
end

