-- ==== Sys2Proof/Laws/Decode.lean ====
section
/-! SUPPORT. Each field of each format read back from the word the format builds (30_encoding.md R111, R112), and a word
whose fixed bits are known split into its fields. -/

namespace Sys2Proof

variable (op : BitVec 6) (xd xs xt : XReg) (ch : BitVec 5) (n : BitVec 3) (cond : BitVec 2) (n8 : BitVec 8)
  (imm16 : BitVec 16)

theorem wordField_getLsbD (w : Word) (lo len k : Nat) :
    (wordField w lo len).getLsbD k = (decide (k < len) && w.getLsbD (lo + k)) := by
  simp [wordField, BitVec.getLsbD_extractLsb']

theorem formatA_op : wordField (formatA op xd xs xt ch n) 26 6 = op := by
  apply BitVec.eq_of_getLsbD_eq
  intro k hk
  simp only [wordField_getLsbD, formatA, BitVec.getLsbD_append]
  interval_cases k <;> simp

theorem formatA_xd : wordField (formatA op xd xs xt ch n) 22 4 = xd := by
  apply BitVec.eq_of_getLsbD_eq
  intro k hk
  simp only [wordField_getLsbD, formatA, BitVec.getLsbD_append]
  interval_cases k <;> simp

theorem formatA_xs : wordField (formatA op xd xs xt ch n) 18 4 = xs := by
  apply BitVec.eq_of_getLsbD_eq
  intro k hk
  simp only [wordField_getLsbD, formatA, BitVec.getLsbD_append]
  interval_cases k <;> simp

theorem formatA_xt : wordField (formatA op xd xs xt ch n) 14 4 = xt := by
  apply BitVec.eq_of_getLsbD_eq
  intro k hk
  simp only [wordField_getLsbD, formatA, BitVec.getLsbD_append]
  interval_cases k <;> simp

theorem formatA_ch : wordField (formatA op xd xs xt ch n) 9 5 = ch := by
  apply BitVec.eq_of_getLsbD_eq
  intro k hk
  simp only [wordField_getLsbD, formatA, BitVec.getLsbD_append]
  interval_cases k <;> simp

theorem formatA_u (u : DampIx) : wordField (formatA op xd xs xt (0#1 ++ u) n) 9 4 = u := by
  apply BitVec.eq_of_getLsbD_eq
  intro k hk
  simp only [wordField_getLsbD, formatA, BitVec.getLsbD_append]
  interval_cases k <;> simp

theorem formatA_dcb (u : DcbIx) : wordField (formatA op xd xs xt (0#4 ++ u) n) 9 1 = u := by
  apply BitVec.eq_of_getLsbD_eq
  intro k hk
  simp only [wordField_getLsbD, formatA, BitVec.getLsbD_append]
  interval_cases k; simp

theorem formatA_n : wordField (formatA op xd xs xt ch n) 6 3 = n := by
  apply BitVec.eq_of_getLsbD_eq
  intro k hk
  simp only [wordField_getLsbD, formatA, BitVec.getLsbD_append]
  interval_cases k <;> simp

theorem formatS_op : wordField (formatS op cond n8) 26 6 = op := by
  apply BitVec.eq_of_getLsbD_eq
  intro k hk
  simp only [wordField_getLsbD, formatS, BitVec.getLsbD_append]
  interval_cases k <;> simp

theorem formatS_cond : wordField (formatS op cond n8) 24 2 = cond := by
  apply BitVec.eq_of_getLsbD_eq
  intro k hk
  simp only [wordField_getLsbD, formatS, BitVec.getLsbD_append]
  interval_cases k <;> simp

theorem formatS_n8 : wordField (formatS op cond n8) 0 8 = n8 := by
  apply BitVec.eq_of_getLsbD_eq
  intro k hk
  simp only [wordField_getLsbD, formatS, BitVec.getLsbD_append]
  interval_cases k <;> simp

theorem formatK_op : wordField (formatK op xd imm16) 26 6 = op := by
  apply BitVec.eq_of_getLsbD_eq
  intro k hk
  simp only [wordField_getLsbD, formatK, BitVec.getLsbD_append]
  interval_cases k <;> simp

theorem formatK_xd : wordField (formatK op xd imm16) 22 4 = xd := by
  apply BitVec.eq_of_getLsbD_eq
  intro k hk
  simp only [wordField_getLsbD, formatK, BitVec.getLsbD_append]
  interval_cases k <;> simp

theorem formatK_imm16 : wordField (formatK op xd imm16) 0 16 = imm16 := by
  apply BitVec.eq_of_getLsbD_eq
  intro k hk
  simp only [wordField_getLsbD, formatK, BitVec.getLsbD_append]
  interval_cases k <;> simp

/-- A format A word is the concatenation of its fields and the six low bits. -/
theorem word_formatA (w : Word) :
    w = wordField w 26 6 ++ wordField w 22 4 ++ wordField w 18 4 ++ wordField w 14 4 ++ wordField w 9 5 ++
      wordField w 6 3 ++ wordField w 0 6 := by
  apply BitVec.eq_of_getLsbD_eq
  intro k hk
  simp only [BitVec.getLsbD_append, wordField_getLsbD]
  interval_cases k <;> simp

/-- A format S word is the concatenation of its fields and the bits between them. -/
theorem word_formatS (w : Word) :
    w = wordField w 26 6 ++ wordField w 24 2 ++ wordField w 8 16 ++ wordField w 0 8 := by
  apply BitVec.eq_of_getLsbD_eq
  intro k hk
  simp only [BitVec.getLsbD_append, wordField_getLsbD]
  interval_cases k <;> simp

/-- A format K word is the concatenation of its fields and the bits between them. -/
theorem word_formatK (w : Word) :
    w = wordField w 26 6 ++ wordField w 22 4 ++ wordField w 16 6 ++ wordField w 0 16 := by
  apply BitVec.eq_of_getLsbD_eq
  intro k hk
  simp only [BitVec.getLsbD_append, wordField_getLsbD]
  interval_cases k <;> simp

end Sys2Proof
end

