-- ==== Sys2Proof/Laws/Memory.lean ====
section
/-! SUPPORT. Memory: reading after writing, and the canonical form every operation keeps. -/

namespace Sys2Proof.Machine

/-! ## Reading after writing (on every list, canonical or not) -/

theorem Memory.read_insert (p : Bool) (m : Memory) (a b : Nat) (v : Byte) :
    Memory.read p (Memory.insert a v m) b = if b = a then some v else Memory.read p m b := by
  induction m with
  | nil => simp [Memory.insert, Memory.read]
  | cons c m ih =>
    simp only [Memory.insert]
    split
    · rfl
    · split
      · next h => subst h; simp only [Memory.read]; split <;> simp_all
      · next h => simp only [Memory.read, ih]; split <;> simp_all [eq_comm]

theorem Memory.read_erase (p : Bool) (m : Memory) (a b : Nat) :
    Memory.read p (Memory.erase a m) b = if b = a then Memory.unlisted p b else Memory.read p m b := by
  induction m with
  | nil => simp [Memory.erase, Memory.read]
  | cons c m ih =>
    simp only [Memory.erase]
    split
    · next h => subst h; rw [ih]; simp only [Memory.read]; split <;> simp_all
    · next h => simp only [Memory.read, ih]; split <;> simp_all [eq_comm]

/-- A byte write changes the byte it names and no other. -/
theorem Memory.read_write (p : Bool) (m : Memory) (a b : Nat) (v : Byte) :
    Memory.read p (Memory.write p m a v) b = if b = a then some v else Memory.read p m b := by
  unfold Memory.write
  split
  · next h => rw [Memory.read_erase]; split <;> simp_all
  · exact Memory.read_insert p m a b v

/-- A word write changes its four byte lanes and no other byte. -/
theorem Memory.read_writeWord (p : Bool) (m : Memory) (a b : Nat) (v : Word) :
    Memory.read p (Memory.writeWord p m a v) b =
      if a ≤ b ∧ b < a + 4 then some (byteLane v (b - a)) else Memory.read p m b := by
  simp only [Memory.writeWord, Memory.read_write]
  by_cases h : a ≤ b ∧ b < a + 4
  · rw [if_pos h]
    obtain ⟨k, rfl⟩ := Nat.exists_eq_add_of_le h.1
    have hk : k < 4 := by omega
    interval_cases k <;> simp
  · rw [if_neg h]
    have h3 : b ≠ a + 3 := by omega
    have h2 : b ≠ a + 2 := by omega
    have h1 : b ≠ a + 1 := by omega
    have h0 : b ≠ a := by omega
    simp [h0, h1, h2, h3]

theorem Memory.read_writeWord_outside (p : Bool) (m : Memory) (a b : Nat) (v : Word) (h : b < a ∨ a + 4 ≤ b) :
    Memory.read p (Memory.writeWord p m a v) b = Memory.read p m b := by
  rw [Memory.read_writeWord, if_neg (by omega)]

/-- The four byte lanes of a word put it together again (20_memory.md R83). -/
theorem wordOfBytes_byteLanes (v : Word) :
    wordOfBytes (byteLane v 0) (byteLane v 1) (byteLane v 2) (byteLane v 3) = v := by
  apply BitVec.eq_of_getLsbD_eq
  intro i hi
  simp only [wordOfBytes, byteLane, wordField, BitVec.getLsbD_append, BitVec.getLsbD_extractLsb']
  by_cases h0 : i < 8
  · simp [h0]
  · by_cases h1 : i < 16
    · simp [h0, show i - 8 < 8 by omega, show 8 + (i - 8) = i by omega]
    · by_cases h2 : i < 24
      · simp [h0, show ¬ i - 8 < 8 by omega, show i - 8 - 8 < 8 by omega, show 16 + (i - 8 - 8) = i by omega]
      · simp [h0, show ¬ i - 8 < 8 by omega, show ¬ i - 8 - 8 < 8 by omega, show i - 8 - 8 - 8 < 8 by omega,
          show 24 + (i - 8 - 8 - 8) = i by omega]

/-- A word written is read back. -/
theorem Memory.readWord_writeWord (p : Bool) (m : Memory) (a : Nat) (v : Word) :
    Memory.readWord p (Memory.writeWord p m a v) a = some v := by
  have h : ∀ k, k < 4 → Memory.read p (Memory.writeWord p m a v) (a + k) = some (byteLane v k) := by
    intro k hk
    rw [Memory.read_writeWord, if_pos (by omega), Nat.add_sub_cancel_left]
  have h0 := h 0 (by omega)
  rw [Nat.add_zero] at h0
  simp only [Memory.readWord, h0, h 1 (by omega), h 2 (by omega), h 3 (by omega), wordOfBytes_byteLanes]

/-- A word written leaves every word outside it alone. -/
theorem Memory.readWord_writeWord_outside (p : Bool) (m : Memory) (a b : Nat) (v : Word) (h : b + 4 ≤ a ∨ a + 4 ≤ b) :
    Memory.readWord p (Memory.writeWord p m a v) b = Memory.readWord p m b := by
  simp only [Memory.readWord]
  rw [Memory.read_writeWord_outside p m a b v (by omega), Memory.read_writeWord_outside p m a (b + 1) v (by omega),
    Memory.read_writeWord_outside p m a (b + 2) v (by omega), Memory.read_writeWord_outside p m a (b + 3) v (by omega)]

/-! ## The canonical form -/

theorem Memory.wf_iff (p : Bool) (m : Memory) :
    Memory.wf p m = true ↔ (m.map Prod.fst).Pairwise (· < ·) ∧ ∀ c ∈ m, Memory.unlisted p c.1 ≠ some c.2 := by
  simp [Memory.wf, List.all_eq_true]

theorem Memory.mem_insert {a : Nat} {v : Byte} {m : Memory} {c : Host.Cell} (h : c ∈ Memory.insert a v m) :
    c = (a, v) ∨ c ∈ m := by
  induction m with
  | nil => simpa [Memory.insert] using h
  | cons d m ih =>
    simp only [Memory.insert] at h
    split at h
    · simpa using h
    · split at h
      · simp only [List.mem_cons] at h ⊢; tauto
      · simp only [List.mem_cons] at h ⊢
        rcases h with h | h
        · exact .inr (.inl h)
        · rcases ih h with h | h <;> tauto

theorem Memory.mem_erase {a : Nat} {m : Memory} {c : Host.Cell} (h : c ∈ Memory.erase a m) : c ∈ m := by
  induction m with
  | nil => simp [Memory.erase] at h
  | cons d m ih =>
    simp only [Memory.erase] at h
    split at h
    · exact List.mem_cons_of_mem _ (ih h)
    · simp only [List.mem_cons] at h ⊢; tauto

/-- Every cell after a byte write was there before or is the byte written. -/
theorem Memory.mem_write {p : Bool} {m : Memory} {a : Nat} {v : Byte} {c : Host.Cell}
    (h : c ∈ Memory.write p m a v) : c = (a, v) ∨ c ∈ m := by
  unfold Memory.write at h
  split at h
  · exact .inr (Memory.mem_erase h)
  · exact Memory.mem_insert h

theorem Memory.insert_sorted (a : Nat) (v : Byte) (m : Memory) (h : (m.map Prod.fst).Pairwise (· < ·)) :
    ((Memory.insert a v m).map Prod.fst).Pairwise (· < ·) := by
  induction m with
  | nil => simp [Memory.insert]
  | cons c m ih =>
    simp only [List.map_cons, List.pairwise_cons] at h
    simp only [Memory.insert]
    split
    · next hlt =>
      simp only [List.map_cons, List.pairwise_cons]
      refine ⟨?_, h⟩
      intro b hb
      rcases List.mem_cons.1 hb with rfl | hb
      · exact hlt
      · exact lt_trans hlt (h.1 b hb)
    · split
      · next heq => subst heq; simpa [List.pairwise_cons] using h
      · next hge hne =>
        simp only [List.map_cons, List.pairwise_cons]
        refine ⟨?_, ih h.2⟩
        intro b hb
        obtain ⟨d, hd, rfl⟩ := List.mem_map.1 hb
        rcases Memory.mem_insert hd with rfl | hd
        · simp only; omega
        · exact h.1 _ (List.mem_map_of_mem hd)

theorem Memory.erase_sublist (a : Nat) (m : Memory) : (Memory.erase a m).Sublist m := by
  induction m with
  | nil => exact List.Sublist.refl _
  | cons c m ih =>
    simp only [Memory.erase]
    split
    · exact ih.cons _
    · exact ih.cons_cons _

/-- A byte write keeps the canonical form. -/
theorem Memory.wf_write {p : Bool} {m : Memory} (a : Nat) (v : Byte) (h : Memory.wf p m = true) :
    Memory.wf p (Memory.write p m a v) = true := by
  rw [Memory.wf_iff] at h ⊢
  unfold Memory.write
  split
  · refine ⟨h.1.sublist ((Memory.erase_sublist a m).map _), fun c hc => h.2 c (Memory.mem_erase hc)⟩
  · next hv =>
    refine ⟨Memory.insert_sorted a v m h.1, fun c hc => ?_⟩
    rcases Memory.mem_insert hc with rfl | hc
    · exact hv
    · exact h.2 c hc

/-- A word write keeps the canonical form. -/
theorem Memory.wf_writeWord {p : Bool} {m : Memory} (a : Nat) (v : Word) (h : Memory.wf p m = true) :
    Memory.wf p (Memory.writeWord p m a v) = true :=
  Memory.wf_write _ _ (Memory.wf_write _ _ (Memory.wf_write _ _ (Memory.wf_write _ _ h)))

/-- Clearing the sample RAM leaves the canonical form of a prepared block (70_reset_and_hazards.md R303). -/
theorem Memory.wf_clearSamples {p : Bool} {m : Memory} (h : Memory.wf p m = true) :
    Memory.wf true (Memory.clearSamples m) = true := by
  rw [Memory.wf_iff] at h ⊢
  refine ⟨h.1.sublist (List.filter_sublist.map _), fun c hc => ?_⟩
  have hlt : c.1 < Config.sramBase := by
    simpa [Memory.clearSamples] using (List.mem_filter.1 hc).2
  simp [Memory.unlisted, Nat.not_le.2 hlt]

theorem Memory.wf_nil (p : Bool) : Memory.wf p [] = true := rfl

/-- The cells after a word write: the old ones and the four byte lanes. -/
theorem Memory.mem_writeWord {p : Bool} {m : Memory} {a : Nat} {v : Word} {c : Host.Cell}
    (h : c ∈ Memory.writeWord p m a v) : c ∈ m ∨ (a ≤ c.1 ∧ c.1 < a + 4) := by
  unfold Memory.writeWord at h
  rcases Memory.mem_write h with rfl | h
  · right; simp
  · rcases Memory.mem_write h with rfl | h
    · right; simp
    · rcases Memory.mem_write h with rfl | h
      · right; simp
      · rcases Memory.mem_write h with rfl | h
        · right; simp
        · exact .inl h

/-! ## PREPARE -/

theorem Memory.read_clearSamples_program (m : Memory) (p : Bool) (a : Nat) (h : a < Config.sramBase) :
    Memory.read true (Memory.clearSamples m) a = Memory.read p m a := by
  induction m with
  | nil => simp [Memory.clearSamples, Memory.read, Memory.unlisted, Nat.not_le.2 h]
  | cons c m ih =>
    simp only [Memory.clearSamples, List.filter_cons] at ih ⊢
    by_cases hc : c.1 < Config.sramBase
    · simp only [hc, decide_true, if_true, Memory.read, ih]
    · simp only [hc, decide_false, Memory.read]
      rw [if_neg (by omega : ¬ a = c.1)]
      simpa using ih

/-- After PREPARE every byte of the sample RAM is 0. -/
theorem Memory.read_clearSamples_sample (m : Memory) (a : Nat) (h : Config.sramBase ≤ a) :
    Memory.read true (Memory.clearSamples m) a = some 0#8 := by
  induction m with
  | nil => simp [Memory.clearSamples, Memory.read, Memory.unlisted, h]
  | cons c m ih =>
    simp only [Memory.clearSamples, List.filter_cons] at ih ⊢
    by_cases hc : c.1 < Config.sramBase
    · simp only [hc, decide_true, if_true, Memory.read]
      rw [if_neg (by omega : ¬ a = c.1)]
      exact ih
    · simpa [hc] using ih

end Sys2Proof.Machine
end

