-- ==== Sys2Proof/Laws/State.lean ====
section
/-! SUPPORT. One lemma per field of State and named update, so that no proof unfolds a record update. -/

namespace Sys2Proof.Machine

variable (s : State)

@[simp] theorem State.setX_x (r : XReg) (v : Word) : (s.setX r v).x = s.x.set r.toNat v := rfl
@[simp] theorem State.setX_pc (r : XReg) (v : Word) : (s.setX r v).pc = s.pc := rfl
@[simp] theorem State.setX_seq (r : XReg) (v : Word) : (s.setX r v).seq = s.seq := rfl
@[simp] theorem State.setX_freeze (r : XReg) (v : Word) : (s.setX r v).freeze = s.freeze := rfl
@[simp] theorem State.setX_prepared (r : XReg) (v : Word) : (s.setX r v).prepared = s.prepared := rfl
@[simp] theorem State.setX_done (r : XReg) (v : Word) : (s.setX r v).done = s.done := rfl
@[simp] theorem State.setX_ill (r : XReg) (v : Word) : (s.setX r v).ill = s.ill := rfl
@[simp] theorem State.setX_buserr (r : XReg) (v : Word) : (s.setX r v).buserr = s.buserr := rfl
@[simp] theorem State.setX_doneIe (r : XReg) (v : Word) : (s.setX r v).doneIe = s.doneIe := rfl
@[simp] theorem State.setX_illIe (r : XReg) (v : Word) : (s.setX r v).illIe = s.illIe := rfl
@[simp] theorem State.setX_buserrIe (r : XReg) (v : Word) : (s.setX r v).buserrIe = s.buserrIe := rfl
@[simp] theorem State.setX_frames (r : XReg) (v : Word) : (s.setX r v).frames = s.frames := rfl
@[simp] theorem State.setX_illPc (r : XReg) (v : Word) : (s.setX r v).illPc = s.illPc := rfl
@[simp] theorem State.setX_illWord (r : XReg) (v : Word) : (s.setX r v).illWord = s.illWord := rfl
@[simp] theorem State.setX_buserrAddr (r : XReg) (v : Word) : (s.setX r v).buserrAddr = s.buserrAddr := rfl
@[simp] theorem State.setX_width (r : XReg) (v : Word) : (s.setX r v).width = s.width := rfl
@[simp] theorem State.setX_bias (r : XReg) (v : Word) : (s.setX r v).bias = s.bias := rfl
@[simp] theorem State.setX_makeup (r : XReg) (v : Word) : (s.setX r v).makeup = s.makeup := rfl
@[simp] theorem State.setX_tapIdxL (r : XReg) (v : Word) : (s.setX r v).tapIdxL = s.tapIdxL := rfl
@[simp] theorem State.setX_tapIdxR (r : XReg) (v : Word) : (s.setX r v).tapIdxR = s.tapIdxR := rfl
@[simp] theorem State.setX_tapSgn (r : XReg) (v : Word) : (s.setX r v).tapSgn = s.tapSgn := rfl
@[simp] theorem State.setX_bsign (r : XReg) (v : Word) : (s.setX r v).bsign = s.bsign := rfl
@[simp] theorem State.setX_ch (r : XReg) (v : Word) : (s.setX r v).ch = s.ch := rfl
@[simp] theorem State.setX_dmp (r : XReg) (v : Word) : (s.setX r v).dmp = s.dmp := rfl
@[simp] theorem State.setX_dcb (r : XReg) (v : Word) : (s.setX r v).dcb = s.dcb := rfl
@[simp] theorem State.setX_mem (r : XReg) (v : Word) : (s.setX r v).mem = s.mem := rfl
@[simp] theorem State.setX_sramLog2 (r : XReg) (v : Word) : (s.setX r v).sramLog2 = s.sramLog2 := rfl
@[simp] theorem State.setX_inbox (r : XReg) (v : Word) : (s.setX r v).inbox = s.inbox := rfl
@[simp] theorem State.setX_replies (r : XReg) (v : Word) : (s.setX r v).replies = s.replies := rfl
@[simp] theorem State.setX_resets (r : XReg) (v : Word) : (s.setX r v).resets = s.resets := rfl

@[simp] theorem State.setCh_x (j : Chan) (c : Channel) : (s.setCh j c).x = s.x := rfl
@[simp] theorem State.setCh_pc (j : Chan) (c : Channel) : (s.setCh j c).pc = s.pc := rfl
@[simp] theorem State.setCh_seq (j : Chan) (c : Channel) : (s.setCh j c).seq = s.seq := rfl
@[simp] theorem State.setCh_freeze (j : Chan) (c : Channel) : (s.setCh j c).freeze = s.freeze := rfl
@[simp] theorem State.setCh_prepared (j : Chan) (c : Channel) : (s.setCh j c).prepared = s.prepared := rfl
@[simp] theorem State.setCh_done (j : Chan) (c : Channel) : (s.setCh j c).done = s.done := rfl
@[simp] theorem State.setCh_ill (j : Chan) (c : Channel) : (s.setCh j c).ill = s.ill := rfl
@[simp] theorem State.setCh_buserr (j : Chan) (c : Channel) : (s.setCh j c).buserr = s.buserr := rfl
@[simp] theorem State.setCh_doneIe (j : Chan) (c : Channel) : (s.setCh j c).doneIe = s.doneIe := rfl
@[simp] theorem State.setCh_illIe (j : Chan) (c : Channel) : (s.setCh j c).illIe = s.illIe := rfl
@[simp] theorem State.setCh_buserrIe (j : Chan) (c : Channel) : (s.setCh j c).buserrIe = s.buserrIe := rfl
@[simp] theorem State.setCh_frames (j : Chan) (c : Channel) : (s.setCh j c).frames = s.frames := rfl
@[simp] theorem State.setCh_illPc (j : Chan) (c : Channel) : (s.setCh j c).illPc = s.illPc := rfl
@[simp] theorem State.setCh_illWord (j : Chan) (c : Channel) : (s.setCh j c).illWord = s.illWord := rfl
@[simp] theorem State.setCh_buserrAddr (j : Chan) (c : Channel) : (s.setCh j c).buserrAddr = s.buserrAddr := rfl
@[simp] theorem State.setCh_width (j : Chan) (c : Channel) : (s.setCh j c).width = s.width := rfl
@[simp] theorem State.setCh_bias (j : Chan) (c : Channel) : (s.setCh j c).bias = s.bias := rfl
@[simp] theorem State.setCh_makeup (j : Chan) (c : Channel) : (s.setCh j c).makeup = s.makeup := rfl
@[simp] theorem State.setCh_tapIdxL (j : Chan) (c : Channel) : (s.setCh j c).tapIdxL = s.tapIdxL := rfl
@[simp] theorem State.setCh_tapIdxR (j : Chan) (c : Channel) : (s.setCh j c).tapIdxR = s.tapIdxR := rfl
@[simp] theorem State.setCh_tapSgn (j : Chan) (c : Channel) : (s.setCh j c).tapSgn = s.tapSgn := rfl
@[simp] theorem State.setCh_bsign (j : Chan) (c : Channel) : (s.setCh j c).bsign = s.bsign := rfl
@[simp] theorem State.setCh_ch (j : Chan) (c : Channel) : (s.setCh j c).ch = s.ch.set j.toNat c := rfl
@[simp] theorem State.setCh_dmp (j : Chan) (c : Channel) : (s.setCh j c).dmp = s.dmp := rfl
@[simp] theorem State.setCh_dcb (j : Chan) (c : Channel) : (s.setCh j c).dcb = s.dcb := rfl
@[simp] theorem State.setCh_mem (j : Chan) (c : Channel) : (s.setCh j c).mem = s.mem := rfl
@[simp] theorem State.setCh_sramLog2 (j : Chan) (c : Channel) : (s.setCh j c).sramLog2 = s.sramLog2 := rfl
@[simp] theorem State.setCh_inbox (j : Chan) (c : Channel) : (s.setCh j c).inbox = s.inbox := rfl
@[simp] theorem State.setCh_replies (j : Chan) (c : Channel) : (s.setCh j c).replies = s.replies := rfl
@[simp] theorem State.setCh_resets (j : Chan) (c : Channel) : (s.setCh j c).resets = s.resets := rfl

@[simp] theorem State.setDmp_x (u : DampIx) (d : Damper) : (s.setDmp u d).x = s.x := rfl
@[simp] theorem State.setDmp_pc (u : DampIx) (d : Damper) : (s.setDmp u d).pc = s.pc := rfl
@[simp] theorem State.setDmp_seq (u : DampIx) (d : Damper) : (s.setDmp u d).seq = s.seq := rfl
@[simp] theorem State.setDmp_freeze (u : DampIx) (d : Damper) : (s.setDmp u d).freeze = s.freeze := rfl
@[simp] theorem State.setDmp_prepared (u : DampIx) (d : Damper) : (s.setDmp u d).prepared = s.prepared := rfl
@[simp] theorem State.setDmp_done (u : DampIx) (d : Damper) : (s.setDmp u d).done = s.done := rfl
@[simp] theorem State.setDmp_ill (u : DampIx) (d : Damper) : (s.setDmp u d).ill = s.ill := rfl
@[simp] theorem State.setDmp_buserr (u : DampIx) (d : Damper) : (s.setDmp u d).buserr = s.buserr := rfl
@[simp] theorem State.setDmp_doneIe (u : DampIx) (d : Damper) : (s.setDmp u d).doneIe = s.doneIe := rfl
@[simp] theorem State.setDmp_illIe (u : DampIx) (d : Damper) : (s.setDmp u d).illIe = s.illIe := rfl
@[simp] theorem State.setDmp_buserrIe (u : DampIx) (d : Damper) : (s.setDmp u d).buserrIe = s.buserrIe := rfl
@[simp] theorem State.setDmp_frames (u : DampIx) (d : Damper) : (s.setDmp u d).frames = s.frames := rfl
@[simp] theorem State.setDmp_illPc (u : DampIx) (d : Damper) : (s.setDmp u d).illPc = s.illPc := rfl
@[simp] theorem State.setDmp_illWord (u : DampIx) (d : Damper) : (s.setDmp u d).illWord = s.illWord := rfl
@[simp] theorem State.setDmp_buserrAddr (u : DampIx) (d : Damper) : (s.setDmp u d).buserrAddr = s.buserrAddr := rfl
@[simp] theorem State.setDmp_width (u : DampIx) (d : Damper) : (s.setDmp u d).width = s.width := rfl
@[simp] theorem State.setDmp_bias (u : DampIx) (d : Damper) : (s.setDmp u d).bias = s.bias := rfl
@[simp] theorem State.setDmp_makeup (u : DampIx) (d : Damper) : (s.setDmp u d).makeup = s.makeup := rfl
@[simp] theorem State.setDmp_tapIdxL (u : DampIx) (d : Damper) : (s.setDmp u d).tapIdxL = s.tapIdxL := rfl
@[simp] theorem State.setDmp_tapIdxR (u : DampIx) (d : Damper) : (s.setDmp u d).tapIdxR = s.tapIdxR := rfl
@[simp] theorem State.setDmp_tapSgn (u : DampIx) (d : Damper) : (s.setDmp u d).tapSgn = s.tapSgn := rfl
@[simp] theorem State.setDmp_bsign (u : DampIx) (d : Damper) : (s.setDmp u d).bsign = s.bsign := rfl
@[simp] theorem State.setDmp_ch (u : DampIx) (d : Damper) : (s.setDmp u d).ch = s.ch := rfl
@[simp] theorem State.setDmp_dmp (u : DampIx) (d : Damper) : (s.setDmp u d).dmp = s.dmp.set u.toNat d := rfl
@[simp] theorem State.setDmp_dcb (u : DampIx) (d : Damper) : (s.setDmp u d).dcb = s.dcb := rfl
@[simp] theorem State.setDmp_mem (u : DampIx) (d : Damper) : (s.setDmp u d).mem = s.mem := rfl
@[simp] theorem State.setDmp_sramLog2 (u : DampIx) (d : Damper) : (s.setDmp u d).sramLog2 = s.sramLog2 := rfl
@[simp] theorem State.setDmp_inbox (u : DampIx) (d : Damper) : (s.setDmp u d).inbox = s.inbox := rfl
@[simp] theorem State.setDmp_replies (u : DampIx) (d : Damper) : (s.setDmp u d).replies = s.replies := rfl
@[simp] theorem State.setDmp_resets (u : DampIx) (d : Damper) : (s.setDmp u d).resets = s.resets := rfl

@[simp] theorem State.setDcb_x (u : DcbIx) (d : DcBlocker) : (s.setDcb u d).x = s.x := rfl
@[simp] theorem State.setDcb_pc (u : DcbIx) (d : DcBlocker) : (s.setDcb u d).pc = s.pc := rfl
@[simp] theorem State.setDcb_seq (u : DcbIx) (d : DcBlocker) : (s.setDcb u d).seq = s.seq := rfl
@[simp] theorem State.setDcb_freeze (u : DcbIx) (d : DcBlocker) : (s.setDcb u d).freeze = s.freeze := rfl
@[simp] theorem State.setDcb_prepared (u : DcbIx) (d : DcBlocker) : (s.setDcb u d).prepared = s.prepared := rfl
@[simp] theorem State.setDcb_done (u : DcbIx) (d : DcBlocker) : (s.setDcb u d).done = s.done := rfl
@[simp] theorem State.setDcb_ill (u : DcbIx) (d : DcBlocker) : (s.setDcb u d).ill = s.ill := rfl
@[simp] theorem State.setDcb_buserr (u : DcbIx) (d : DcBlocker) : (s.setDcb u d).buserr = s.buserr := rfl
@[simp] theorem State.setDcb_doneIe (u : DcbIx) (d : DcBlocker) : (s.setDcb u d).doneIe = s.doneIe := rfl
@[simp] theorem State.setDcb_illIe (u : DcbIx) (d : DcBlocker) : (s.setDcb u d).illIe = s.illIe := rfl
@[simp] theorem State.setDcb_buserrIe (u : DcbIx) (d : DcBlocker) : (s.setDcb u d).buserrIe = s.buserrIe := rfl
@[simp] theorem State.setDcb_frames (u : DcbIx) (d : DcBlocker) : (s.setDcb u d).frames = s.frames := rfl
@[simp] theorem State.setDcb_illPc (u : DcbIx) (d : DcBlocker) : (s.setDcb u d).illPc = s.illPc := rfl
@[simp] theorem State.setDcb_illWord (u : DcbIx) (d : DcBlocker) : (s.setDcb u d).illWord = s.illWord := rfl
@[simp] theorem State.setDcb_buserrAddr (u : DcbIx) (d : DcBlocker) : (s.setDcb u d).buserrAddr = s.buserrAddr := rfl
@[simp] theorem State.setDcb_width (u : DcbIx) (d : DcBlocker) : (s.setDcb u d).width = s.width := rfl
@[simp] theorem State.setDcb_bias (u : DcbIx) (d : DcBlocker) : (s.setDcb u d).bias = s.bias := rfl
@[simp] theorem State.setDcb_makeup (u : DcbIx) (d : DcBlocker) : (s.setDcb u d).makeup = s.makeup := rfl
@[simp] theorem State.setDcb_tapIdxL (u : DcbIx) (d : DcBlocker) : (s.setDcb u d).tapIdxL = s.tapIdxL := rfl
@[simp] theorem State.setDcb_tapIdxR (u : DcbIx) (d : DcBlocker) : (s.setDcb u d).tapIdxR = s.tapIdxR := rfl
@[simp] theorem State.setDcb_tapSgn (u : DcbIx) (d : DcBlocker) : (s.setDcb u d).tapSgn = s.tapSgn := rfl
@[simp] theorem State.setDcb_bsign (u : DcbIx) (d : DcBlocker) : (s.setDcb u d).bsign = s.bsign := rfl
@[simp] theorem State.setDcb_ch (u : DcbIx) (d : DcBlocker) : (s.setDcb u d).ch = s.ch := rfl
@[simp] theorem State.setDcb_dmp (u : DcbIx) (d : DcBlocker) : (s.setDcb u d).dmp = s.dmp := rfl
@[simp] theorem State.setDcb_dcb (u : DcbIx) (d : DcBlocker) : (s.setDcb u d).dcb = s.dcb.set u.toNat d := rfl
@[simp] theorem State.setDcb_mem (u : DcbIx) (d : DcBlocker) : (s.setDcb u d).mem = s.mem := rfl
@[simp] theorem State.setDcb_sramLog2 (u : DcbIx) (d : DcBlocker) : (s.setDcb u d).sramLog2 = s.sramLog2 := rfl
@[simp] theorem State.setDcb_inbox (u : DcbIx) (d : DcBlocker) : (s.setDcb u d).inbox = s.inbox := rfl
@[simp] theorem State.setDcb_replies (u : DcbIx) (d : DcBlocker) : (s.setDcb u d).replies = s.replies := rfl
@[simp] theorem State.setDcb_resets (u : DcbIx) (d : DcBlocker) : (s.setDcb u d).resets = s.resets := rfl

@[simp] theorem State.advance_x : (s.advance).x = s.x := rfl
@[simp] theorem State.advance_pc : (s.advance).pc = s.pc + 1 := rfl
@[simp] theorem State.advance_seq : (s.advance).seq = s.seq := rfl
@[simp] theorem State.advance_freeze : (s.advance).freeze = s.freeze := rfl
@[simp] theorem State.advance_prepared : (s.advance).prepared = s.prepared := rfl
@[simp] theorem State.advance_done : (s.advance).done = s.done := rfl
@[simp] theorem State.advance_ill : (s.advance).ill = s.ill := rfl
@[simp] theorem State.advance_buserr : (s.advance).buserr = s.buserr := rfl
@[simp] theorem State.advance_doneIe : (s.advance).doneIe = s.doneIe := rfl
@[simp] theorem State.advance_illIe : (s.advance).illIe = s.illIe := rfl
@[simp] theorem State.advance_buserrIe : (s.advance).buserrIe = s.buserrIe := rfl
@[simp] theorem State.advance_frames : (s.advance).frames = s.frames := rfl
@[simp] theorem State.advance_illPc : (s.advance).illPc = s.illPc := rfl
@[simp] theorem State.advance_illWord : (s.advance).illWord = s.illWord := rfl
@[simp] theorem State.advance_buserrAddr : (s.advance).buserrAddr = s.buserrAddr := rfl
@[simp] theorem State.advance_width : (s.advance).width = s.width := rfl
@[simp] theorem State.advance_bias : (s.advance).bias = s.bias := rfl
@[simp] theorem State.advance_makeup : (s.advance).makeup = s.makeup := rfl
@[simp] theorem State.advance_tapIdxL : (s.advance).tapIdxL = s.tapIdxL := rfl
@[simp] theorem State.advance_tapIdxR : (s.advance).tapIdxR = s.tapIdxR := rfl
@[simp] theorem State.advance_tapSgn : (s.advance).tapSgn = s.tapSgn := rfl
@[simp] theorem State.advance_bsign : (s.advance).bsign = s.bsign := rfl
@[simp] theorem State.advance_ch : (s.advance).ch = s.ch := rfl
@[simp] theorem State.advance_dmp : (s.advance).dmp = s.dmp := rfl
@[simp] theorem State.advance_dcb : (s.advance).dcb = s.dcb := rfl
@[simp] theorem State.advance_mem : (s.advance).mem = s.mem := rfl
@[simp] theorem State.advance_sramLog2 : (s.advance).sramLog2 = s.sramLog2 := rfl
@[simp] theorem State.advance_inbox : (s.advance).inbox = s.inbox := rfl
@[simp] theorem State.advance_replies : (s.advance).replies = s.replies := rfl
@[simp] theorem State.advance_resets : (s.advance).resets = s.resets := rfl

@[simp] theorem State.writeWord_x (a : Nat) (v : Word) : (s.writeWord a v).x = s.x := rfl
@[simp] theorem State.writeWord_pc (a : Nat) (v : Word) : (s.writeWord a v).pc = s.pc := rfl
@[simp] theorem State.writeWord_seq (a : Nat) (v : Word) : (s.writeWord a v).seq = s.seq := rfl
@[simp] theorem State.writeWord_freeze (a : Nat) (v : Word) : (s.writeWord a v).freeze = s.freeze := rfl
@[simp] theorem State.writeWord_prepared (a : Nat) (v : Word) : (s.writeWord a v).prepared = s.prepared := rfl
@[simp] theorem State.writeWord_done (a : Nat) (v : Word) : (s.writeWord a v).done = s.done := rfl
@[simp] theorem State.writeWord_ill (a : Nat) (v : Word) : (s.writeWord a v).ill = s.ill := rfl
@[simp] theorem State.writeWord_buserr (a : Nat) (v : Word) : (s.writeWord a v).buserr = s.buserr := rfl
@[simp] theorem State.writeWord_doneIe (a : Nat) (v : Word) : (s.writeWord a v).doneIe = s.doneIe := rfl
@[simp] theorem State.writeWord_illIe (a : Nat) (v : Word) : (s.writeWord a v).illIe = s.illIe := rfl
@[simp] theorem State.writeWord_buserrIe (a : Nat) (v : Word) : (s.writeWord a v).buserrIe = s.buserrIe := rfl
@[simp] theorem State.writeWord_frames (a : Nat) (v : Word) : (s.writeWord a v).frames = s.frames := rfl
@[simp] theorem State.writeWord_illPc (a : Nat) (v : Word) : (s.writeWord a v).illPc = s.illPc := rfl
@[simp] theorem State.writeWord_illWord (a : Nat) (v : Word) : (s.writeWord a v).illWord = s.illWord := rfl
@[simp] theorem State.writeWord_buserrAddr (a : Nat) (v : Word) : (s.writeWord a v).buserrAddr = s.buserrAddr := rfl
@[simp] theorem State.writeWord_width (a : Nat) (v : Word) : (s.writeWord a v).width = s.width := rfl
@[simp] theorem State.writeWord_bias (a : Nat) (v : Word) : (s.writeWord a v).bias = s.bias := rfl
@[simp] theorem State.writeWord_makeup (a : Nat) (v : Word) : (s.writeWord a v).makeup = s.makeup := rfl
@[simp] theorem State.writeWord_tapIdxL (a : Nat) (v : Word) : (s.writeWord a v).tapIdxL = s.tapIdxL := rfl
@[simp] theorem State.writeWord_tapIdxR (a : Nat) (v : Word) : (s.writeWord a v).tapIdxR = s.tapIdxR := rfl
@[simp] theorem State.writeWord_tapSgn (a : Nat) (v : Word) : (s.writeWord a v).tapSgn = s.tapSgn := rfl
@[simp] theorem State.writeWord_bsign (a : Nat) (v : Word) : (s.writeWord a v).bsign = s.bsign := rfl
@[simp] theorem State.writeWord_ch (a : Nat) (v : Word) : (s.writeWord a v).ch = s.ch := rfl
@[simp] theorem State.writeWord_dmp (a : Nat) (v : Word) : (s.writeWord a v).dmp = s.dmp := rfl
@[simp] theorem State.writeWord_dcb (a : Nat) (v : Word) : (s.writeWord a v).dcb = s.dcb := rfl
@[simp] theorem State.writeWord_mem (a : Nat) (v : Word) : (s.writeWord a v).mem = Memory.writeWord s.prepared s.mem a v := rfl
@[simp] theorem State.writeWord_sramLog2 (a : Nat) (v : Word) : (s.writeWord a v).sramLog2 = s.sramLog2 := rfl
@[simp] theorem State.writeWord_inbox (a : Nat) (v : Word) : (s.writeWord a v).inbox = s.inbox := rfl
@[simp] theorem State.writeWord_replies (a : Nat) (v : Word) : (s.writeWord a v).replies = s.replies := rfl
@[simp] theorem State.writeWord_resets (a : Nat) (v : Word) : (s.writeWord a v).resets = s.resets := rfl

@[simp] theorem State.sWrite_x (w : Nat) (v : Word) : (s.sWrite w v).x = s.x := rfl
@[simp] theorem State.sWrite_pc (w : Nat) (v : Word) : (s.sWrite w v).pc = s.pc := rfl
@[simp] theorem State.sWrite_seq (w : Nat) (v : Word) : (s.sWrite w v).seq = s.seq := rfl
@[simp] theorem State.sWrite_freeze (w : Nat) (v : Word) : (s.sWrite w v).freeze = s.freeze := rfl
@[simp] theorem State.sWrite_prepared (w : Nat) (v : Word) : (s.sWrite w v).prepared = s.prepared := rfl
@[simp] theorem State.sWrite_done (w : Nat) (v : Word) : (s.sWrite w v).done = s.done := rfl
@[simp] theorem State.sWrite_ill (w : Nat) (v : Word) : (s.sWrite w v).ill = s.ill := rfl
@[simp] theorem State.sWrite_buserr (w : Nat) (v : Word) : (s.sWrite w v).buserr = s.buserr := rfl
@[simp] theorem State.sWrite_doneIe (w : Nat) (v : Word) : (s.sWrite w v).doneIe = s.doneIe := rfl
@[simp] theorem State.sWrite_illIe (w : Nat) (v : Word) : (s.sWrite w v).illIe = s.illIe := rfl
@[simp] theorem State.sWrite_buserrIe (w : Nat) (v : Word) : (s.sWrite w v).buserrIe = s.buserrIe := rfl
@[simp] theorem State.sWrite_frames (w : Nat) (v : Word) : (s.sWrite w v).frames = s.frames := rfl
@[simp] theorem State.sWrite_illPc (w : Nat) (v : Word) : (s.sWrite w v).illPc = s.illPc := rfl
@[simp] theorem State.sWrite_illWord (w : Nat) (v : Word) : (s.sWrite w v).illWord = s.illWord := rfl
@[simp] theorem State.sWrite_buserrAddr (w : Nat) (v : Word) : (s.sWrite w v).buserrAddr = s.buserrAddr := rfl
@[simp] theorem State.sWrite_width (w : Nat) (v : Word) : (s.sWrite w v).width = s.width := rfl
@[simp] theorem State.sWrite_bias (w : Nat) (v : Word) : (s.sWrite w v).bias = s.bias := rfl
@[simp] theorem State.sWrite_makeup (w : Nat) (v : Word) : (s.sWrite w v).makeup = s.makeup := rfl
@[simp] theorem State.sWrite_tapIdxL (w : Nat) (v : Word) : (s.sWrite w v).tapIdxL = s.tapIdxL := rfl
@[simp] theorem State.sWrite_tapIdxR (w : Nat) (v : Word) : (s.sWrite w v).tapIdxR = s.tapIdxR := rfl
@[simp] theorem State.sWrite_tapSgn (w : Nat) (v : Word) : (s.sWrite w v).tapSgn = s.tapSgn := rfl
@[simp] theorem State.sWrite_bsign (w : Nat) (v : Word) : (s.sWrite w v).bsign = s.bsign := rfl
@[simp] theorem State.sWrite_ch (w : Nat) (v : Word) : (s.sWrite w v).ch = s.ch := rfl
@[simp] theorem State.sWrite_dmp (w : Nat) (v : Word) : (s.sWrite w v).dmp = s.dmp := rfl
@[simp] theorem State.sWrite_dcb (w : Nat) (v : Word) : (s.sWrite w v).dcb = s.dcb := rfl
@[simp] theorem State.sWrite_mem (w : Nat) (v : Word) : (s.sWrite w v).mem = Memory.writeWord s.prepared s.mem (s.sramAddr w) v := rfl
@[simp] theorem State.sWrite_sramLog2 (w : Nat) (v : Word) : (s.sWrite w v).sramLog2 = s.sramLog2 := rfl
@[simp] theorem State.sWrite_inbox (w : Nat) (v : Word) : (s.sWrite w v).inbox = s.inbox := rfl
@[simp] theorem State.sWrite_replies (w : Nat) (v : Word) : (s.sWrite w v).replies = s.replies := rfl
@[simp] theorem State.sWrite_resets (w : Nat) (v : Word) : (s.sWrite w v).resets = s.resets := rfl

@[simp] theorem State.lfoAdvance_x (j : Chan) : (s.lfoAdvance j).x = s.x := rfl
@[simp] theorem State.lfoAdvance_pc (j : Chan) : (s.lfoAdvance j).pc = s.pc := rfl
@[simp] theorem State.lfoAdvance_seq (j : Chan) : (s.lfoAdvance j).seq = s.seq := rfl
@[simp] theorem State.lfoAdvance_freeze (j : Chan) : (s.lfoAdvance j).freeze = s.freeze := rfl
@[simp] theorem State.lfoAdvance_prepared (j : Chan) : (s.lfoAdvance j).prepared = s.prepared := rfl
@[simp] theorem State.lfoAdvance_done (j : Chan) : (s.lfoAdvance j).done = s.done := rfl
@[simp] theorem State.lfoAdvance_ill (j : Chan) : (s.lfoAdvance j).ill = s.ill := rfl
@[simp] theorem State.lfoAdvance_buserr (j : Chan) : (s.lfoAdvance j).buserr = s.buserr := rfl
@[simp] theorem State.lfoAdvance_doneIe (j : Chan) : (s.lfoAdvance j).doneIe = s.doneIe := rfl
@[simp] theorem State.lfoAdvance_illIe (j : Chan) : (s.lfoAdvance j).illIe = s.illIe := rfl
@[simp] theorem State.lfoAdvance_buserrIe (j : Chan) : (s.lfoAdvance j).buserrIe = s.buserrIe := rfl
@[simp] theorem State.lfoAdvance_frames (j : Chan) : (s.lfoAdvance j).frames = s.frames := rfl
@[simp] theorem State.lfoAdvance_illPc (j : Chan) : (s.lfoAdvance j).illPc = s.illPc := rfl
@[simp] theorem State.lfoAdvance_illWord (j : Chan) : (s.lfoAdvance j).illWord = s.illWord := rfl
@[simp] theorem State.lfoAdvance_buserrAddr (j : Chan) : (s.lfoAdvance j).buserrAddr = s.buserrAddr := rfl
@[simp] theorem State.lfoAdvance_width (j : Chan) : (s.lfoAdvance j).width = s.width := rfl
@[simp] theorem State.lfoAdvance_bias (j : Chan) : (s.lfoAdvance j).bias = s.bias := rfl
@[simp] theorem State.lfoAdvance_makeup (j : Chan) : (s.lfoAdvance j).makeup = s.makeup := rfl
@[simp] theorem State.lfoAdvance_tapIdxL (j : Chan) : (s.lfoAdvance j).tapIdxL = s.tapIdxL := rfl
@[simp] theorem State.lfoAdvance_tapIdxR (j : Chan) : (s.lfoAdvance j).tapIdxR = s.tapIdxR := rfl
@[simp] theorem State.lfoAdvance_tapSgn (j : Chan) : (s.lfoAdvance j).tapSgn = s.tapSgn := rfl
@[simp] theorem State.lfoAdvance_bsign (j : Chan) : (s.lfoAdvance j).bsign = s.bsign := rfl
@[simp] theorem State.lfoAdvance_ch (j : Chan) : (s.lfoAdvance j).ch = s.ch.set j.toNat { s.getCh j with lfoPh := (s.getCh j).lfoPh + (s.getCh j).lfoInc } := rfl
@[simp] theorem State.lfoAdvance_dmp (j : Chan) : (s.lfoAdvance j).dmp = s.dmp := rfl
@[simp] theorem State.lfoAdvance_dcb (j : Chan) : (s.lfoAdvance j).dcb = s.dcb := rfl
@[simp] theorem State.lfoAdvance_mem (j : Chan) : (s.lfoAdvance j).mem = s.mem := rfl
@[simp] theorem State.lfoAdvance_sramLog2 (j : Chan) : (s.lfoAdvance j).sramLog2 = s.sramLog2 := rfl
@[simp] theorem State.lfoAdvance_inbox (j : Chan) : (s.lfoAdvance j).inbox = s.inbox := rfl
@[simp] theorem State.lfoAdvance_replies (j : Chan) : (s.lfoAdvance j).replies = s.replies := rfl
@[simp] theorem State.lfoAdvance_resets (j : Chan) : (s.lfoAdvance j).resets = s.resets := rfl

@[simp] theorem State.dlWrite_x (j : Chan) (v : Word) : (s.dlWrite j v).x = s.x := rfl
@[simp] theorem State.dlWrite_pc (j : Chan) (v : Word) : (s.dlWrite j v).pc = s.pc := rfl
@[simp] theorem State.dlWrite_seq (j : Chan) (v : Word) : (s.dlWrite j v).seq = s.seq := rfl
@[simp] theorem State.dlWrite_freeze (j : Chan) (v : Word) : (s.dlWrite j v).freeze = s.freeze := rfl
@[simp] theorem State.dlWrite_prepared (j : Chan) (v : Word) : (s.dlWrite j v).prepared = s.prepared := rfl
@[simp] theorem State.dlWrite_done (j : Chan) (v : Word) : (s.dlWrite j v).done = s.done := rfl
@[simp] theorem State.dlWrite_ill (j : Chan) (v : Word) : (s.dlWrite j v).ill = s.ill := rfl
@[simp] theorem State.dlWrite_buserr (j : Chan) (v : Word) : (s.dlWrite j v).buserr = s.buserr := rfl
@[simp] theorem State.dlWrite_doneIe (j : Chan) (v : Word) : (s.dlWrite j v).doneIe = s.doneIe := rfl
@[simp] theorem State.dlWrite_illIe (j : Chan) (v : Word) : (s.dlWrite j v).illIe = s.illIe := rfl
@[simp] theorem State.dlWrite_buserrIe (j : Chan) (v : Word) : (s.dlWrite j v).buserrIe = s.buserrIe := rfl
@[simp] theorem State.dlWrite_frames (j : Chan) (v : Word) : (s.dlWrite j v).frames = s.frames := rfl
@[simp] theorem State.dlWrite_illPc (j : Chan) (v : Word) : (s.dlWrite j v).illPc = s.illPc := rfl
@[simp] theorem State.dlWrite_illWord (j : Chan) (v : Word) : (s.dlWrite j v).illWord = s.illWord := rfl
@[simp] theorem State.dlWrite_buserrAddr (j : Chan) (v : Word) : (s.dlWrite j v).buserrAddr = s.buserrAddr := rfl
@[simp] theorem State.dlWrite_width (j : Chan) (v : Word) : (s.dlWrite j v).width = s.width := rfl
@[simp] theorem State.dlWrite_bias (j : Chan) (v : Word) : (s.dlWrite j v).bias = s.bias := rfl
@[simp] theorem State.dlWrite_makeup (j : Chan) (v : Word) : (s.dlWrite j v).makeup = s.makeup := rfl
@[simp] theorem State.dlWrite_tapIdxL (j : Chan) (v : Word) : (s.dlWrite j v).tapIdxL = s.tapIdxL := rfl
@[simp] theorem State.dlWrite_tapIdxR (j : Chan) (v : Word) : (s.dlWrite j v).tapIdxR = s.tapIdxR := rfl
@[simp] theorem State.dlWrite_tapSgn (j : Chan) (v : Word) : (s.dlWrite j v).tapSgn = s.tapSgn := rfl
@[simp] theorem State.dlWrite_bsign (j : Chan) (v : Word) : (s.dlWrite j v).bsign = s.bsign := rfl
@[simp] theorem State.dlWrite_ch (j : Chan) (v : Word) : (s.dlWrite j v).ch = s.ch.set j.toNat (s.getCh j).stepCursor := rfl
@[simp] theorem State.dlWrite_dmp (j : Chan) (v : Word) : (s.dlWrite j v).dmp = s.dmp := rfl
@[simp] theorem State.dlWrite_dcb (j : Chan) (v : Word) : (s.dlWrite j v).dcb = s.dcb := rfl
@[simp] theorem State.dlWrite_mem (j : Chan) (v : Word) : (s.dlWrite j v).mem = Memory.writeWord s.prepared s.mem (s.sramAddr (s.ringWord j)) v := rfl
@[simp] theorem State.dlWrite_sramLog2 (j : Chan) (v : Word) : (s.dlWrite j v).sramLog2 = s.sramLog2 := rfl
@[simp] theorem State.dlWrite_inbox (j : Chan) (v : Word) : (s.dlWrite j v).inbox = s.inbox := rfl
@[simp] theorem State.dlWrite_replies (j : Chan) (v : Word) : (s.dlWrite j v).replies = s.replies := rfl
@[simp] theorem State.dlWrite_resets (j : Chan) (v : Word) : (s.dlWrite j v).resets = s.resets := rfl

@[simp] theorem State.endFrame_x : (s.endFrame).x = s.x := rfl
@[simp] theorem State.endFrame_pc : (s.endFrame).pc = s.pc := rfl
@[simp] theorem State.endFrame_seq : (s.endFrame).seq = .idle := rfl
@[simp] theorem State.endFrame_freeze : (s.endFrame).freeze = s.freeze := rfl
@[simp] theorem State.endFrame_prepared : (s.endFrame).prepared = s.prepared := rfl
@[simp] theorem State.endFrame_done : (s.endFrame).done = true := rfl
@[simp] theorem State.endFrame_ill : (s.endFrame).ill = s.ill := rfl
@[simp] theorem State.endFrame_buserr : (s.endFrame).buserr = s.buserr := rfl
@[simp] theorem State.endFrame_doneIe : (s.endFrame).doneIe = s.doneIe := rfl
@[simp] theorem State.endFrame_illIe : (s.endFrame).illIe = s.illIe := rfl
@[simp] theorem State.endFrame_buserrIe : (s.endFrame).buserrIe = s.buserrIe := rfl
@[simp] theorem State.endFrame_frames : (s.endFrame).frames = s.frames + 1#32 := rfl
@[simp] theorem State.endFrame_illPc : (s.endFrame).illPc = s.illPc := rfl
@[simp] theorem State.endFrame_illWord : (s.endFrame).illWord = s.illWord := rfl
@[simp] theorem State.endFrame_buserrAddr : (s.endFrame).buserrAddr = s.buserrAddr := rfl
@[simp] theorem State.endFrame_width : (s.endFrame).width = s.width := rfl
@[simp] theorem State.endFrame_bias : (s.endFrame).bias = s.bias := rfl
@[simp] theorem State.endFrame_makeup : (s.endFrame).makeup = s.makeup := rfl
@[simp] theorem State.endFrame_tapIdxL : (s.endFrame).tapIdxL = s.tapIdxL := rfl
@[simp] theorem State.endFrame_tapIdxR : (s.endFrame).tapIdxR = s.tapIdxR := rfl
@[simp] theorem State.endFrame_tapSgn : (s.endFrame).tapSgn = s.tapSgn := rfl
@[simp] theorem State.endFrame_bsign : (s.endFrame).bsign = s.bsign := rfl
@[simp] theorem State.endFrame_ch : (s.endFrame).ch = s.ch := rfl
@[simp] theorem State.endFrame_dmp : (s.endFrame).dmp = s.dmp := rfl
@[simp] theorem State.endFrame_dcb : (s.endFrame).dcb = s.dcb := rfl
@[simp] theorem State.endFrame_mem : (s.endFrame).mem = s.mem := rfl
@[simp] theorem State.endFrame_sramLog2 : (s.endFrame).sramLog2 = s.sramLog2 := rfl
@[simp] theorem State.endFrame_inbox : (s.endFrame).inbox = s.inbox := rfl
@[simp] theorem State.endFrame_replies : (s.endFrame).replies = s.replies := rfl
@[simp] theorem State.endFrame_resets : (s.endFrame).resets = s.resets := rfl

@[simp] theorem State.raiseIllegal_x (w : Word) : (s.raiseIllegal w).x = s.x := rfl
@[simp] theorem State.raiseIllegal_pc (w : Word) : (s.raiseIllegal w).pc = s.pc := rfl
@[simp] theorem State.raiseIllegal_seq (w : Word) : (s.raiseIllegal w).seq = .idle := rfl
@[simp] theorem State.raiseIllegal_freeze (w : Word) : (s.raiseIllegal w).freeze = s.freeze := rfl
@[simp] theorem State.raiseIllegal_prepared (w : Word) : (s.raiseIllegal w).prepared = s.prepared := rfl
@[simp] theorem State.raiseIllegal_done (w : Word) : (s.raiseIllegal w).done = true := rfl
@[simp] theorem State.raiseIllegal_ill (w : Word) : (s.raiseIllegal w).ill = true := rfl
@[simp] theorem State.raiseIllegal_buserr (w : Word) : (s.raiseIllegal w).buserr = s.buserr := rfl
@[simp] theorem State.raiseIllegal_doneIe (w : Word) : (s.raiseIllegal w).doneIe = s.doneIe := rfl
@[simp] theorem State.raiseIllegal_illIe (w : Word) : (s.raiseIllegal w).illIe = s.illIe := rfl
@[simp] theorem State.raiseIllegal_buserrIe (w : Word) : (s.raiseIllegal w).buserrIe = s.buserrIe := rfl
@[simp] theorem State.raiseIllegal_frames (w : Word) : (s.raiseIllegal w).frames = s.frames + 1#32 := rfl
@[simp] theorem State.raiseIllegal_illPc (w : Word) : (s.raiseIllegal w).illPc = if s.ill then s.illPc else BitVec.ofNat 8 s.pc := rfl
@[simp] theorem State.raiseIllegal_illWord (w : Word) : (s.raiseIllegal w).illWord = if s.ill then s.illWord else w := rfl
@[simp] theorem State.raiseIllegal_buserrAddr (w : Word) : (s.raiseIllegal w).buserrAddr = s.buserrAddr := rfl
@[simp] theorem State.raiseIllegal_width (w : Word) : (s.raiseIllegal w).width = s.width := rfl
@[simp] theorem State.raiseIllegal_bias (w : Word) : (s.raiseIllegal w).bias = s.bias := rfl
@[simp] theorem State.raiseIllegal_makeup (w : Word) : (s.raiseIllegal w).makeup = s.makeup := rfl
@[simp] theorem State.raiseIllegal_tapIdxL (w : Word) : (s.raiseIllegal w).tapIdxL = s.tapIdxL := rfl
@[simp] theorem State.raiseIllegal_tapIdxR (w : Word) : (s.raiseIllegal w).tapIdxR = s.tapIdxR := rfl
@[simp] theorem State.raiseIllegal_tapSgn (w : Word) : (s.raiseIllegal w).tapSgn = s.tapSgn := rfl
@[simp] theorem State.raiseIllegal_bsign (w : Word) : (s.raiseIllegal w).bsign = s.bsign := rfl
@[simp] theorem State.raiseIllegal_ch (w : Word) : (s.raiseIllegal w).ch = s.ch := rfl
@[simp] theorem State.raiseIllegal_dmp (w : Word) : (s.raiseIllegal w).dmp = s.dmp := rfl
@[simp] theorem State.raiseIllegal_dcb (w : Word) : (s.raiseIllegal w).dcb = s.dcb := rfl
@[simp] theorem State.raiseIllegal_mem (w : Word) : (s.raiseIllegal w).mem = s.mem := rfl
@[simp] theorem State.raiseIllegal_sramLog2 (w : Word) : (s.raiseIllegal w).sramLog2 = s.sramLog2 := rfl
@[simp] theorem State.raiseIllegal_inbox (w : Word) : (s.raiseIllegal w).inbox = s.inbox := rfl
@[simp] theorem State.raiseIllegal_replies (w : Word) : (s.raiseIllegal w).replies = s.replies := rfl
@[simp] theorem State.raiseIllegal_resets (w : Word) : (s.raiseIllegal w).resets = s.resets := rfl

@[simp] theorem State.startFrame_x : (s.startFrame).x = s.x := rfl
@[simp] theorem State.startFrame_pc : (s.startFrame).pc = 0 := rfl
@[simp] theorem State.startFrame_seq : (s.startFrame).seq = .running := rfl
@[simp] theorem State.startFrame_freeze : (s.startFrame).freeze = s.freeze := rfl
@[simp] theorem State.startFrame_prepared : (s.startFrame).prepared = s.prepared := rfl
@[simp] theorem State.startFrame_done : (s.startFrame).done = s.done := rfl
@[simp] theorem State.startFrame_ill : (s.startFrame).ill = s.ill := rfl
@[simp] theorem State.startFrame_buserr : (s.startFrame).buserr = s.buserr := rfl
@[simp] theorem State.startFrame_doneIe : (s.startFrame).doneIe = s.doneIe := rfl
@[simp] theorem State.startFrame_illIe : (s.startFrame).illIe = s.illIe := rfl
@[simp] theorem State.startFrame_buserrIe : (s.startFrame).buserrIe = s.buserrIe := rfl
@[simp] theorem State.startFrame_frames : (s.startFrame).frames = s.frames := rfl
@[simp] theorem State.startFrame_illPc : (s.startFrame).illPc = s.illPc := rfl
@[simp] theorem State.startFrame_illWord : (s.startFrame).illWord = s.illWord := rfl
@[simp] theorem State.startFrame_buserrAddr : (s.startFrame).buserrAddr = s.buserrAddr := rfl
@[simp] theorem State.startFrame_width : (s.startFrame).width = s.width := rfl
@[simp] theorem State.startFrame_bias : (s.startFrame).bias = s.bias := rfl
@[simp] theorem State.startFrame_makeup : (s.startFrame).makeup = s.makeup := rfl
@[simp] theorem State.startFrame_tapIdxL : (s.startFrame).tapIdxL = s.tapIdxL := rfl
@[simp] theorem State.startFrame_tapIdxR : (s.startFrame).tapIdxR = s.tapIdxR := rfl
@[simp] theorem State.startFrame_tapSgn : (s.startFrame).tapSgn = s.tapSgn := rfl
@[simp] theorem State.startFrame_bsign : (s.startFrame).bsign = s.bsign := rfl
@[simp] theorem State.startFrame_ch : (s.startFrame).ch = s.ch := rfl
@[simp] theorem State.startFrame_dmp : (s.startFrame).dmp = s.dmp := rfl
@[simp] theorem State.startFrame_dcb : (s.startFrame).dcb = s.dcb := rfl
@[simp] theorem State.startFrame_mem : (s.startFrame).mem = s.mem := rfl
@[simp] theorem State.startFrame_sramLog2 : (s.startFrame).sramLog2 = s.sramLog2 := rfl
@[simp] theorem State.startFrame_inbox : (s.startFrame).inbox = s.inbox := rfl
@[simp] theorem State.startFrame_replies : (s.startFrame).replies = s.replies := rfl
@[simp] theorem State.startFrame_resets : (s.startFrame).resets = s.resets := rfl

@[simp] theorem State.clearAudio_x : (s.clearAudio).x = Vector.replicate 16 0#32 := rfl
@[simp] theorem State.clearAudio_pc : (s.clearAudio).pc = s.pc := rfl
@[simp] theorem State.clearAudio_seq : (s.clearAudio).seq = s.seq := rfl
@[simp] theorem State.clearAudio_freeze : (s.clearAudio).freeze = s.freeze := rfl
@[simp] theorem State.clearAudio_prepared : (s.clearAudio).prepared = true := rfl
@[simp] theorem State.clearAudio_done : (s.clearAudio).done = s.done := rfl
@[simp] theorem State.clearAudio_ill : (s.clearAudio).ill = s.ill := rfl
@[simp] theorem State.clearAudio_buserr : (s.clearAudio).buserr = s.buserr := rfl
@[simp] theorem State.clearAudio_doneIe : (s.clearAudio).doneIe = s.doneIe := rfl
@[simp] theorem State.clearAudio_illIe : (s.clearAudio).illIe = s.illIe := rfl
@[simp] theorem State.clearAudio_buserrIe : (s.clearAudio).buserrIe = s.buserrIe := rfl
@[simp] theorem State.clearAudio_frames : (s.clearAudio).frames = s.frames := rfl
@[simp] theorem State.clearAudio_illPc : (s.clearAudio).illPc = s.illPc := rfl
@[simp] theorem State.clearAudio_illWord : (s.clearAudio).illWord = s.illWord := rfl
@[simp] theorem State.clearAudio_buserrAddr : (s.clearAudio).buserrAddr = s.buserrAddr := rfl
@[simp] theorem State.clearAudio_width : (s.clearAudio).width = s.width := rfl
@[simp] theorem State.clearAudio_bias : (s.clearAudio).bias = s.bias := rfl
@[simp] theorem State.clearAudio_makeup : (s.clearAudio).makeup = s.makeup := rfl
@[simp] theorem State.clearAudio_tapIdxL : (s.clearAudio).tapIdxL = s.tapIdxL := rfl
@[simp] theorem State.clearAudio_tapIdxR : (s.clearAudio).tapIdxR = s.tapIdxR := rfl
@[simp] theorem State.clearAudio_tapSgn : (s.clearAudio).tapSgn = s.tapSgn := rfl
@[simp] theorem State.clearAudio_bsign : (s.clearAudio).bsign = false := rfl
@[simp] theorem State.clearAudio_mem : (s.clearAudio).mem = Memory.clearSamples s.mem := rfl
@[simp] theorem State.clearAudio_sramLog2 : (s.clearAudio).sramLog2 = s.sramLog2 := rfl
@[simp] theorem State.clearAudio_inbox : (s.clearAudio).inbox = s.inbox := rfl
@[simp] theorem State.clearAudio_replies : (s.clearAudio).replies = s.replies := rfl
@[simp] theorem State.clearAudio_resets : (s.clearAudio).resets = s.resets := rfl

@[simp] theorem State.reply_x (v : Word) : (s.reply v).x = s.x := rfl
@[simp] theorem State.reply_pc (v : Word) : (s.reply v).pc = s.pc := rfl
@[simp] theorem State.reply_seq (v : Word) : (s.reply v).seq = s.seq := rfl
@[simp] theorem State.reply_freeze (v : Word) : (s.reply v).freeze = s.freeze := rfl
@[simp] theorem State.reply_prepared (v : Word) : (s.reply v).prepared = s.prepared := rfl
@[simp] theorem State.reply_done (v : Word) : (s.reply v).done = s.done := rfl
@[simp] theorem State.reply_ill (v : Word) : (s.reply v).ill = s.ill := rfl
@[simp] theorem State.reply_buserr (v : Word) : (s.reply v).buserr = s.buserr := rfl
@[simp] theorem State.reply_doneIe (v : Word) : (s.reply v).doneIe = s.doneIe := rfl
@[simp] theorem State.reply_illIe (v : Word) : (s.reply v).illIe = s.illIe := rfl
@[simp] theorem State.reply_buserrIe (v : Word) : (s.reply v).buserrIe = s.buserrIe := rfl
@[simp] theorem State.reply_frames (v : Word) : (s.reply v).frames = s.frames := rfl
@[simp] theorem State.reply_illPc (v : Word) : (s.reply v).illPc = s.illPc := rfl
@[simp] theorem State.reply_illWord (v : Word) : (s.reply v).illWord = s.illWord := rfl
@[simp] theorem State.reply_buserrAddr (v : Word) : (s.reply v).buserrAddr = s.buserrAddr := rfl
@[simp] theorem State.reply_width (v : Word) : (s.reply v).width = s.width := rfl
@[simp] theorem State.reply_bias (v : Word) : (s.reply v).bias = s.bias := rfl
@[simp] theorem State.reply_makeup (v : Word) : (s.reply v).makeup = s.makeup := rfl
@[simp] theorem State.reply_tapIdxL (v : Word) : (s.reply v).tapIdxL = s.tapIdxL := rfl
@[simp] theorem State.reply_tapIdxR (v : Word) : (s.reply v).tapIdxR = s.tapIdxR := rfl
@[simp] theorem State.reply_tapSgn (v : Word) : (s.reply v).tapSgn = s.tapSgn := rfl
@[simp] theorem State.reply_bsign (v : Word) : (s.reply v).bsign = s.bsign := rfl
@[simp] theorem State.reply_ch (v : Word) : (s.reply v).ch = s.ch := rfl
@[simp] theorem State.reply_dmp (v : Word) : (s.reply v).dmp = s.dmp := rfl
@[simp] theorem State.reply_dcb (v : Word) : (s.reply v).dcb = s.dcb := rfl
@[simp] theorem State.reply_mem (v : Word) : (s.reply v).mem = s.mem := rfl
@[simp] theorem State.reply_sramLog2 (v : Word) : (s.reply v).sramLog2 = s.sramLog2 := rfl
@[simp] theorem State.reply_inbox (v : Word) : (s.reply v).inbox = s.inbox := rfl
@[simp] theorem State.reply_replies (v : Word) : (s.reply v).replies = s.replies ++ [v] := rfl
@[simp] theorem State.reply_resets (v : Word) : (s.reply v).resets = s.resets := rfl

@[simp] theorem State.refuseAccess_x (a : Word) : (s.refuseAccess a).x = s.x := rfl
@[simp] theorem State.refuseAccess_pc (a : Word) : (s.refuseAccess a).pc = s.pc := rfl
@[simp] theorem State.refuseAccess_seq (a : Word) : (s.refuseAccess a).seq = s.seq := rfl
@[simp] theorem State.refuseAccess_freeze (a : Word) : (s.refuseAccess a).freeze = s.freeze := rfl
@[simp] theorem State.refuseAccess_prepared (a : Word) : (s.refuseAccess a).prepared = s.prepared := rfl
@[simp] theorem State.refuseAccess_done (a : Word) : (s.refuseAccess a).done = s.done := rfl
@[simp] theorem State.refuseAccess_ill (a : Word) : (s.refuseAccess a).ill = s.ill := rfl
@[simp] theorem State.refuseAccess_buserr (a : Word) : (s.refuseAccess a).buserr = true := rfl
@[simp] theorem State.refuseAccess_doneIe (a : Word) : (s.refuseAccess a).doneIe = s.doneIe := rfl
@[simp] theorem State.refuseAccess_illIe (a : Word) : (s.refuseAccess a).illIe = s.illIe := rfl
@[simp] theorem State.refuseAccess_buserrIe (a : Word) : (s.refuseAccess a).buserrIe = s.buserrIe := rfl
@[simp] theorem State.refuseAccess_frames (a : Word) : (s.refuseAccess a).frames = s.frames := rfl
@[simp] theorem State.refuseAccess_illPc (a : Word) : (s.refuseAccess a).illPc = s.illPc := rfl
@[simp] theorem State.refuseAccess_illWord (a : Word) : (s.refuseAccess a).illWord = s.illWord := rfl
@[simp] theorem State.refuseAccess_buserrAddr (a : Word) : (s.refuseAccess a).buserrAddr = if s.buserr then s.buserrAddr else a := rfl
@[simp] theorem State.refuseAccess_width (a : Word) : (s.refuseAccess a).width = s.width := rfl
@[simp] theorem State.refuseAccess_bias (a : Word) : (s.refuseAccess a).bias = s.bias := rfl
@[simp] theorem State.refuseAccess_makeup (a : Word) : (s.refuseAccess a).makeup = s.makeup := rfl
@[simp] theorem State.refuseAccess_tapIdxL (a : Word) : (s.refuseAccess a).tapIdxL = s.tapIdxL := rfl
@[simp] theorem State.refuseAccess_tapIdxR (a : Word) : (s.refuseAccess a).tapIdxR = s.tapIdxR := rfl
@[simp] theorem State.refuseAccess_tapSgn (a : Word) : (s.refuseAccess a).tapSgn = s.tapSgn := rfl
@[simp] theorem State.refuseAccess_bsign (a : Word) : (s.refuseAccess a).bsign = s.bsign := rfl
@[simp] theorem State.refuseAccess_ch (a : Word) : (s.refuseAccess a).ch = s.ch := rfl
@[simp] theorem State.refuseAccess_dmp (a : Word) : (s.refuseAccess a).dmp = s.dmp := rfl
@[simp] theorem State.refuseAccess_dcb (a : Word) : (s.refuseAccess a).dcb = s.dcb := rfl
@[simp] theorem State.refuseAccess_mem (a : Word) : (s.refuseAccess a).mem = s.mem := rfl
@[simp] theorem State.refuseAccess_sramLog2 (a : Word) : (s.refuseAccess a).sramLog2 = s.sramLog2 := rfl
@[simp] theorem State.refuseAccess_inbox (a : Word) : (s.refuseAccess a).inbox = s.inbox := rfl
@[simp] theorem State.refuseAccess_replies (a : Word) : (s.refuseAccess a).replies = s.replies := rfl
@[simp] theorem State.refuseAccess_resets (a : Word) : (s.refuseAccess a).resets = s.resets := rfl

@[simp] theorem State.finishPrepare_freeze (g : Bool) : (s.finishPrepare g).freeze = s.freeze := by cases g <;> rfl
@[simp] theorem State.finishPrepare_done (g : Bool) : (s.finishPrepare g).done = s.done := by cases g <;> rfl
@[simp] theorem State.finishPrepare_ill (g : Bool) : (s.finishPrepare g).ill = s.ill := by cases g <;> rfl
@[simp] theorem State.finishPrepare_buserr (g : Bool) : (s.finishPrepare g).buserr = s.buserr := by cases g <;> rfl
@[simp] theorem State.finishPrepare_doneIe (g : Bool) : (s.finishPrepare g).doneIe = s.doneIe := by cases g <;> rfl
@[simp] theorem State.finishPrepare_illIe (g : Bool) : (s.finishPrepare g).illIe = s.illIe := by cases g <;> rfl
@[simp] theorem State.finishPrepare_buserrIe (g : Bool) : (s.finishPrepare g).buserrIe = s.buserrIe := by cases g <;> rfl
@[simp] theorem State.finishPrepare_frames (g : Bool) : (s.finishPrepare g).frames = s.frames := by cases g <;> rfl
@[simp] theorem State.finishPrepare_illPc (g : Bool) : (s.finishPrepare g).illPc = s.illPc := by cases g <;> rfl
@[simp] theorem State.finishPrepare_illWord (g : Bool) : (s.finishPrepare g).illWord = s.illWord := by cases g <;> rfl
@[simp] theorem State.finishPrepare_buserrAddr (g : Bool) : (s.finishPrepare g).buserrAddr = s.buserrAddr := by cases g <;> rfl
@[simp] theorem State.finishPrepare_width (g : Bool) : (s.finishPrepare g).width = s.width := by cases g <;> rfl
@[simp] theorem State.finishPrepare_bias (g : Bool) : (s.finishPrepare g).bias = s.bias := by cases g <;> rfl
@[simp] theorem State.finishPrepare_makeup (g : Bool) : (s.finishPrepare g).makeup = s.makeup := by cases g <;> rfl
@[simp] theorem State.finishPrepare_tapIdxL (g : Bool) : (s.finishPrepare g).tapIdxL = s.tapIdxL := by cases g <;> rfl
@[simp] theorem State.finishPrepare_tapIdxR (g : Bool) : (s.finishPrepare g).tapIdxR = s.tapIdxR := by cases g <;> rfl
@[simp] theorem State.finishPrepare_tapSgn (g : Bool) : (s.finishPrepare g).tapSgn = s.tapSgn := by cases g <;> rfl
@[simp] theorem State.finishPrepare_sramLog2 (g : Bool) : (s.finishPrepare g).sramLog2 = s.sramLog2 := by cases g <;> rfl
@[simp] theorem State.finishPrepare_inbox (g : Bool) : (s.finishPrepare g).inbox = s.inbox := by cases g <;> rfl
@[simp] theorem State.finishPrepare_replies (g : Bool) : (s.finishPrepare g).replies = s.replies := by cases g <;> rfl
@[simp] theorem State.finishPrepare_resets (g : Bool) : (s.finishPrepare g).resets = s.resets := by cases g <;> rfl

end Sys2Proof.Machine
end

