-- ==== Sys2Proof/Laws/Ops.lean ====
section
/-! SUPPORT. What each shared operation does: registers, memory through the state, ring writes, phase steps. -/

namespace Sys2Proof.Machine

variable (s : State)

/-! ## Registers read back -/

theorem State.getX_setX (r q : XReg) (v : Word) : (s.setX r v).getX q = if q = r then v else s.getX q := by
  simp only [State.getX, State.setX_x, Vector.getElem_set, BitVec.toNat_inj, eq_comm]

theorem State.getCh_setCh (j i : Chan) (c : Channel) : (s.setCh j c).getCh i = if i = j then c else s.getCh i := by
  simp only [State.getCh, State.setCh_ch, Vector.getElem_set, BitVec.toNat_inj, eq_comm]

theorem State.getDmp_setDmp (u i : DampIx) (d : Damper) : (s.setDmp u d).getDmp i = if i = u then d else s.getDmp i := by
  simp only [State.getDmp, State.setDmp_dmp, Vector.getElem_set, BitVec.toNat_inj, eq_comm]

theorem State.getDcb_setDcb (u i : DcbIx) (d : DcBlocker) :
    (s.setDcb u d).getDcb i = if i = u then d else s.getDcb i := by
  simp only [State.getDcb, State.setDcb_dcb, Vector.getElem_set, BitVec.toNat_inj, eq_comm]

@[simp] theorem State.getX_setX_self (r : XReg) (v : Word) : (s.setX r v).getX r = v := by simp [State.getX_setX]
@[simp] theorem State.getCh_setCh_self (j : Chan) (c : Channel) : (s.setCh j c).getCh j = c := by
  simp [State.getCh_setCh]
@[simp] theorem State.getDmp_setDmp_self (u : DampIx) (d : Damper) : (s.setDmp u d).getDmp u = d := by
  simp [State.getDmp_setDmp]
@[simp] theorem State.getDcb_setDcb_self (u : DcbIx) (d : DcBlocker) : (s.setDcb u d).getDcb u = d := by
  simp [State.getDcb_setDcb]

@[simp] theorem State.getX_advance (r : XReg) : s.advance.getX r = s.getX r := rfl
@[simp] theorem State.getX_setCh (r : XReg) (j : Chan) (c : Channel) : (s.setCh j c).getX r = s.getX r := rfl
@[simp] theorem State.getX_setDmp (r : XReg) (u : DampIx) (d : Damper) : (s.setDmp u d).getX r = s.getX r := rfl
@[simp] theorem State.getX_setDcb (r : XReg) (u : DcbIx) (d : DcBlocker) : (s.setDcb u d).getX r = s.getX r := rfl
@[simp] theorem State.getX_dlWrite (r : XReg) (j : Chan) (v : Word) : (s.dlWrite j v).getX r = s.getX r := rfl
@[simp] theorem State.getX_lfoAdvance (r : XReg) (j : Chan) : (s.lfoAdvance j).getX r = s.getX r := rfl
@[simp] theorem State.getCh_advance (j : Chan) : s.advance.getCh j = s.getCh j := rfl
@[simp] theorem State.getCh_setX (j : Chan) (r : XReg) (v : Word) : (s.setX r v).getCh j = s.getCh j := rfl
@[simp] theorem State.getCh_setDmp (j : Chan) (u : DampIx) (d : Damper) : (s.setDmp u d).getCh j = s.getCh j := rfl
@[simp] theorem State.getCh_sWrite (j : Chan) (w : Nat) (v : Word) : (s.sWrite w v).getCh j = s.getCh j := rfl
@[simp] theorem State.getDmp_advance (u : DampIx) : s.advance.getDmp u = s.getDmp u := rfl
@[simp] theorem State.getDmp_setX (u : DampIx) (r : XReg) (v : Word) : (s.setX r v).getDmp u = s.getDmp u := rfl
@[simp] theorem State.getDmp_dlWrite (u : DampIx) (j : Chan) (v : Word) : (s.dlWrite j v).getDmp u = s.getDmp u := rfl
@[simp] theorem State.getDmp_lfoAdvance (u : DampIx) (j : Chan) : (s.lfoAdvance j).getDmp u = s.getDmp u := rfl
@[simp] theorem State.getDcb_advance (u : DcbIx) : s.advance.getDcb u = s.getDcb u := rfl
@[simp] theorem State.getDcb_setX (u : DcbIx) (r : XReg) (v : Word) : (s.setX r v).getDcb u = s.getDcb u := rfl

/-! ## Memory through the state -/

@[simp] theorem State.readByte_setX (r : XReg) (v : Word) (a : Nat) : (s.setX r v).readByte a = s.readByte a := rfl
@[simp] theorem State.readByte_setCh (j : Chan) (c : Channel) (a : Nat) : (s.setCh j c).readByte a = s.readByte a := rfl
@[simp] theorem State.readByte_setDmp (u : DampIx) (d : Damper) (a : Nat) :
    (s.setDmp u d).readByte a = s.readByte a := rfl
@[simp] theorem State.readByte_setDcb (u : DcbIx) (d : DcBlocker) (a : Nat) :
    (s.setDcb u d).readByte a = s.readByte a := rfl
@[simp] theorem State.readByte_advance (a : Nat) : s.advance.readByte a = s.readByte a := rfl
@[simp] theorem State.readByte_lfoAdvance (j : Chan) (a : Nat) : (s.lfoAdvance j).readByte a = s.readByte a := rfl
@[simp] theorem State.readWord_setX (r : XReg) (v : Word) (a : Nat) : (s.setX r v).readWord a = s.readWord a := rfl
@[simp] theorem State.readWord_advance (a : Nat) : s.advance.readWord a = s.readWord a := rfl
@[simp] theorem State.readWord_setCh (j : Chan) (c : Channel) (a : Nat) : (s.setCh j c).readWord a = s.readWord a := rfl
@[simp] theorem State.sramAddr_setX (r : XReg) (v : Word) (w : Nat) : (s.setX r v).sramAddr w = s.sramAddr w := rfl
@[simp] theorem State.sramAddr_lfoAdvance (j : Chan) (w : Nat) : (s.lfoAdvance j).sramAddr w = s.sramAddr w := rfl
@[simp] theorem State.sramAddr_dlWrite (j : Chan) (v : Word) (w : Nat) : (s.dlWrite j v).sramAddr w = s.sramAddr w := rfl

/-- A stored word reads back (20_memory.md R91). -/
theorem State.readWord_writeWord (a : Nat) (v : Word) : (s.writeWord a v).readWord a = some v :=
  Memory.readWord_writeWord _ _ _ _

/-- A stored word changes no byte outside it. -/
theorem State.readByte_writeWord (a : Nat) (v : Word) (b : Nat) (h : b < a ∨ a + 4 ≤ b) :
    (s.writeWord a v).readByte b = s.readByte b := Memory.read_writeWord_outside _ _ _ _ _ h

/-- A stored word changes no word beside it. -/
theorem State.readWord_writeWord_outside (a : Nat) (v : Word) (b : Nat) (h : b + 4 ≤ a ∨ a + 4 ≤ b) :
    (s.writeWord a v).readWord b = s.readWord b := Memory.readWord_writeWord_outside _ _ _ _ _ h

/-- `SRead` after `SWrite` (00_scope.md R9, 20_memory.md R91). -/
theorem State.sRead_sWrite (w u : Nat) (v : Word) :
    (s.sWrite w v).sRead u = if u % 2 ^ s.sramLog2 = w % 2 ^ s.sramLog2 then v else s.sRead u := by
  have hr : (s.sWrite w v).sRead u
      = ((s.writeWord (s.sramAddr w) v).readWord (s.sramAddr u)).getD (Config.unwrittenWord s.resets (s.sramAddr u)) := rfl
  rw [hr]
  split
  · next h =>
    have : s.sramAddr u = s.sramAddr w := by simp only [State.sramAddr, h]
    rw [this, State.readWord_writeWord]; rfl
  · next h =>
    rw [State.readWord_writeWord_outside]
    · rfl
    · simp only [State.sramAddr]; omega

/-- The sample RAM lies above the program RAM, so an instruction's store changes no program byte. -/
theorem State.sramAddr_ge (w : Nat) : Config.sramBase ≤ s.sramAddr w := Nat.le_add_right _ _

/-! ## Ring writes (42_delay.md R171) and phase steps (43_lfo.md R192) -/

theorem State.getCh_dlWrite (j i : Chan) (v : Word) :
    (s.dlWrite j v).getCh i = if i = j then (s.getCh j).stepCursor else s.getCh i := by
  unfold State.dlWrite
  rw [State.getCh_setCh]; rfl

theorem State.getCh_lfoAdvance (j i : Chan) :
    (s.lfoAdvance j).getCh i = if i = j then (s.getCh j).phaseAdvanced else s.getCh i := by
  unfold State.lfoAdvance
  rw [State.getCh_setCh]; rfl

/-- A ring write stores its value at the cursor's word. -/
theorem State.readWord_dlWrite (j : Chan) (v : Word) :
    (s.dlWrite j v).readWord (s.sramAddr (s.ringWord j)) = some v := State.readWord_writeWord s _ _

/-- A ring write changes no byte outside the cursor's word. -/
theorem State.readByte_dlWrite (j : Chan) (v : Word) (b : Nat)
    (h : b < s.sramAddr (s.ringWord j) ∨ s.sramAddr (s.ringWord j) + 4 ≤ b) :
    (s.dlWrite j v).readByte b = s.readByte b := State.readByte_writeWord s _ _ _ h

theorem State.sRead_dlWrite (j : Chan) (v : Word) (u : Nat) :
    (s.dlWrite j v).sRead u = if u % 2 ^ s.sramLog2 = s.ringWord j % 2 ^ s.sramLog2 then v else s.sRead u :=
  State.sRead_sWrite s _ _ _

/-- A phase step moves no cursor, so the ring word it will be written to is the same. -/
theorem State.ringWord_lfoAdvance (j i : Chan) : (s.lfoAdvance j).ringWord i = s.ringWord i := by
  unfold State.ringWord
  rw [State.getCh_lfoAdvance]
  split
  · next h => subst h; rfl
  · rfl

/-- A ring write to one channel moves no other channel's cursor. -/
theorem State.ringWord_dlWrite_other (j i : Chan) (v : Word) (h : i ≠ j) :
    (s.dlWrite j v).ringWord i = s.ringWord i := by
  unfold State.ringWord
  rw [State.getCh_dlWrite, if_neg h]

/-! ## Legal channels -/

theorem Channel.size_pos (c : Channel) : 0 < c.size := Nat.two_pow_pos _

theorem Channel.cursor_lt (c : Channel) : c.cursor < c.size := Nat.mod_lt _ c.size_pos

/-- Every ring index is masked (20_memory.md R89). -/
theorem Channel.slot_lt (c : Channel) (m : Int) : c.slot m < c.size := by
  have h := c.size_pos
  unfold Channel.slot
  have h1 : 0 ≤ ((c.cursor : Int) - m) % (c.size : Int) := Int.emod_nonneg _ (by omega)
  have h2 : ((c.cursor : Int) - m) % (c.size : Int) < c.size := Int.emod_lt_of_pos _ (by omega)
  omega

/-- A ring write brings the cursor into range (10_state.md R53). -/
theorem Channel.stepCursor_toNat (c : Channel) : c.stepCursor.dlCur.toNat = (c.cursor + 1) % c.size := by
  have h1 : (c.cursor + 1) % c.size < c.size := Nat.mod_lt _ c.size_pos
  have h2 : c.size < 2 ^ 32 := Nat.pow_lt_pow_right (by decide) (by have := c.dlLog2.isLt; omega)
  unfold Channel.stepCursor
  rw [BitVec.toNat_ofNat, Nat.mod_eq_of_lt (by omega)]

theorem Channel.Legal.size_le {k : Nat} {c : Channel} (h : c.Legal k) : c.size ≤ 2 ^ k :=
  Nat.pow_le_pow_right (by decide) h.2.2.2

theorem Channel.Legal.stepCursor {k : Nat} {c : Channel} (h : c.Legal k) : c.stepCursor.Legal k := by
  have h1 : (c.cursor + 1) % c.size < c.size := Nat.mod_lt _ c.size_pos
  have h2 := h.size_le
  refine ⟨h.1, ?_, h.2.2⟩
  rw [Channel.stepCursor_toNat]
  omega

theorem Channel.Legal.phaseAdvanced {k : Nat} {c : Channel} (h : c.Legal k) : c.phaseAdvanced.Legal k := h

/-! ## PREPARE -/

theorem vecMap_getElem {α β : Type} {n : Nat} (f : α → β) (v : Vector α n) (i : Nat) (h : i < n) :
    (vecMap f v)[i] = f v[i] := by simp [vecMap]

theorem State.getCh_clearAudio (j : Chan) : s.clearAudio.getCh j = { s.getCh j with dlCur := 0#32 } := by
  unfold State.getCh State.clearAudio
  rw [vecMap_getElem]

theorem State.getDmp_clearAudio (u : DampIx) : s.clearAudio.getDmp u = { s.getDmp u with lp := 0#32 } := by
  unfold State.getDmp State.clearAudio
  rw [vecMap_getElem]

theorem State.getDcb_clearAudio (u : DcbIx) : s.clearAudio.getDcb u = { s.getDcb u with x1 := 0#32, y1 := 0#32 } := by
  unfold State.getDcb State.clearAudio
  rw [vecMap_getElem]

theorem State.readByte_clearAudio_sample (a : Nat) (h : Config.sramBase ≤ a) : s.clearAudio.readByte a = some 0#8 :=
  Memory.read_clearSamples_sample _ _ h

theorem State.readByte_clearAudio_program (a : Nat) (h : a < Config.sramBase) :
    s.clearAudio.readByte a = s.readByte a := Memory.read_clearSamples_program _ _ _ h

end Sys2Proof.Machine
end

