-- ==== Sys2Proof/Laws/Fdn.lean ====
section
/-! SUPPORT. The two passes of FDN over its lines: what the reads give and leave, what the writes leave
(48_fdn.md R250 to R253). The lines use distinct channels, so no line sees another's phase, cursor or damper. -/

namespace Sys2Proof.Machine

/-- A read depends on the channel's block and on the memory only. -/
theorem State.dlRead_congr {s t : State} {j : Chan} (hc : t.getCh j = s.getCh j) (hm : t.mem = s.mem)
    (hp : t.prepared = s.prepared) (hr : t.resets = s.resets) (hk : t.sramLog2 = s.sramLog2) (d : Word) :
    t.dlRead j d = s.dlRead j d := by
  have hs : ∀ w, t.sRead w = s.sRead w := by
    intro w; simp only [State.sRead, State.ramWord, State.readWord, State.sramAddr, hm, hp, hr, hk]
  have ht : ∀ n : Int, t.tap j n = s.tap j n := by intro n; simp only [State.tap, hc, hs]
  simp only [State.dlRead, hc, ht]

theorem State.modRead_congr {s t : State} {j : Chan} (hc : t.getCh j = s.getCh j) (hm : t.mem = s.mem)
    (hp : t.prepared = s.prepared) (hr : t.resets = s.resets) (hk : t.sramLog2 = s.sramLog2) :
    t.modRead j = s.modRead j := by
  simp only [State.modRead, State.lfoOut, hc, State.dlRead_congr hc hm hp hr hk]

/-- Another channel's phase step changes no modulated read. -/
theorem State.modRead_lfoAdvance_other (s : State) {i j : Chan} (h : i ≠ j) : (s.lfoAdvance j).modRead i = s.modRead i :=
  State.modRead_congr (by rw [State.getCh_lfoAdvance, if_neg h]) rfl rfl rfl rfl

theorem lineChan_inj {i j : Line} : lineChan i = lineChan j ↔ i = j := by
  constructor
  · intro h
    have : (lineChan i).toNat = (lineChan j).toNat := by rw [h]
    simp only [lineChan, BitVec.toNat_setWidth] at this
    have h1 := i.isLt
    have h2 := j.isLt
    apply BitVec.eq_of_toNat_eq
    omega
  · rintro rfl; rfl

theorem mem_fdnLines (i : Line) : i ∈ fdnLines := by revert i; decide

theorem fdnLines_nodup : fdnLines.Nodup := by decide

/-! ## Step 1 -/

/-- The reads of the lines in `L`: their outputs are the modulated reads of the state before; only their phases move. -/
theorem fdnRead_foldl (L : List Line) (hL : L.Nodup) (o : Vector Word 16) (s : State) :
    (∀ i : Line, (L.foldl fdnRead (o, s)).1[i.toNat] = if i ∈ L then s.modRead (lineChan i) else o[i.toNat]) ∧
    (∀ j : Chan, (L.foldl fdnRead (o, s)).2.getCh j =
      if ∃ i ∈ L, j = lineChan i then (s.getCh j).phaseAdvanced else s.getCh j) ∧
    { (L.foldl fdnRead (o, s)).2 with ch := s.ch } = s := by
  induction L generalizing o s with
  | nil => simp
  | cons l L ih =>
    obtain ⟨hl, hL⟩ := List.nodup_cons.1 hL
    obtain ⟨h1, h2, h3⟩ := ih hL (o.set l.toNat (s.modRead (lineChan l))) (s.lfoAdvance (lineChan l))
    refine ⟨?_, ?_, ?_⟩
    · intro i
      refine (h1 i).trans ?_
      by_cases hi : i = l
      · subst hi; simp [hl]
      · have : lineChan i ≠ lineChan l := fun h => hi (lineChan_inj.1 h)
        have hne : ¬ l.toNat = i.toNat := fun h => hi (BitVec.eq_of_toNat_eq h.symm)
        rw [State.modRead_lfoAdvance_other s this, Vector.getElem_set, if_neg hne]
        simp [hi]
    · intro j
      refine (h2 j).trans ?_
      rw [State.getCh_lfoAdvance]
      by_cases hj : j = lineChan l
      · subst hj
        rw [if_pos rfl, if_neg, if_pos ⟨l, List.mem_cons_self, rfl⟩]
        rintro ⟨i, hi, h⟩
        rw [lineChan_inj.1 h] at hl
        exact hl hi
      · have : (∃ i ∈ l :: L, j = lineChan i) ↔ ∃ i ∈ L, j = lineChan i := by simp [hj]
        simp only [if_neg hj, this]
    · have := congrArg (fun u : State => { u with ch := s.ch }) h3
      exact this

/-- Step 1 of FDN: the 16 outputs are modulated reads of the state before the instruction (48_fdn.md R251). -/
theorem State.fdnReads_get (s : State) (i : Line) : s.fdnReads.1[i.toNat] = s.modRead (lineChan i) := by
  rw [State.fdnReads, (fdnRead_foldl fdnLines fdnLines_nodup _ s).1 i, if_pos (mem_fdnLines i)]

/-- Step 1 advances the phases of the lines' channels and no other. -/
theorem State.fdnReads_getCh (s : State) (j : Chan) :
    s.fdnReads.2.getCh j = if ∃ i, j = lineChan i then (s.getCh j).phaseAdvanced else s.getCh j := by
  rw [State.fdnReads, (fdnRead_foldl fdnLines fdnLines_nodup _ s).2.1 j]
  simp only [mem_fdnLines, true_and]

/-- Step 1 changes nothing but channel blocks. -/
theorem State.fdnReads_frame (s : State) : { s.fdnReads.2 with ch := s.ch } = s :=
  (fdnRead_foldl fdnLines fdnLines_nodup _ s).2.2

/-! ## Step 3 -/

/-- One line's write: its damper, its channel's cursor and its word of the ring, nothing else. -/
theorem fdnWrite_frame (inj : Word) (m : Vector Word 16) (s : State) (i : Line) :
    { fdnWrite inj m s i with ch := s.ch, dmp := s.dmp, mem := s.mem } = s := by
  unfold fdnWrite State.fdnDamp
  split <;> rfl

theorem fdnWrite_getCh (inj : Word) (m : Vector Word 16) (s : State) (i : Line) (j : Chan) :
    (fdnWrite inj m s i).getCh j = if j = lineChan i then (s.getCh j).stepCursor else s.getCh j := by
  unfold fdnWrite
  rw [State.getCh_dlWrite]
  have : ∀ j, (s.fdnDamp m i).getCh j = s.getCh j := by
    intro j; unfold State.fdnDamp; split <;> rfl
  simp only [this]
  split
  · next h => rw [h]
  · rfl

theorem fdnWrite_getDmp (inj : Word) (m : Vector Word 16) (s : State) (i u : Line) :
    (fdnWrite inj m s i).getDmp u =
      if u = i ∧ s.freeze = false then (s.getDmp u).step m[u.toNat] else s.getDmp u := by
  unfold fdnWrite
  rw [State.getDmp_dlWrite]
  unfold State.fdnDamp
  cases s.freeze
  · simp only [Bool.false_eq_true, if_false, and_true, State.getDmp_setDmp]
    split
    · next h => rw [h]
    · rfl
  · simp

/-- The value line i writes in state s. -/
theorem fdnWrite_value (inj : Word) (m : Vector Word 16) (s : State) (i : Line) :
    (fdnWrite inj m s i).readWord (s.sramAddr (s.ringWord (lineChan i))) =
      some (fadd (s.fdnFeedback inj m i) (s.fdnBias i)) := by
  have h1 : (s.fdnDamp m i).sramAddr = s.sramAddr := by unfold State.fdnDamp; split <;> rfl
  have h2 : (s.fdnDamp m i).ringWord = s.ringWord := by unfold State.fdnDamp; split <;> rfl
  have := State.readWord_dlWrite (s.fdnDamp m i) (lineChan i) (fadd (s.fdnFeedback inj m i) (s.fdnBias i))
  rwa [h1, h2] at this

theorem fdnWrite_outside (inj : Word) (m : Vector Word 16) (s : State) (i : Line) (b : Nat)
    (h : b < s.sramAddr (s.ringWord (lineChan i)) ∨ s.sramAddr (s.ringWord (lineChan i)) + 4 ≤ b) :
    (fdnWrite inj m s i).readByte b = s.readByte b := by
  have h1 : (s.fdnDamp m i).sramAddr = s.sramAddr := by unfold State.fdnDamp; split <;> rfl
  have h2 : (s.fdnDamp m i).ringWord = s.ringWord := by unfold State.fdnDamp; split <;> rfl
  have h3 : (s.fdnDamp m i).readByte b = s.readByte b := by unfold State.fdnDamp; split <;> rfl
  have := State.readByte_dlWrite (s.fdnDamp m i) (lineChan i) (fadd (s.fdnFeedback inj m i) (s.fdnBias i)) b
    (by rwa [h1, h2])
  rwa [h3] at this

theorem fdnWrite_outside_word (inj : Word) (m : Vector Word 16) (s : State) (i : Line) (b : Nat)
    (h : b + 4 ≤ s.sramAddr (s.ringWord (lineChan i)) ∨ s.sramAddr (s.ringWord (lineChan i)) + 4 ≤ b) :
    (fdnWrite inj m s i).readWord b = s.readWord b := by
  have hb : ∀ k, k < 4 → (fdnWrite inj m s i).readByte (b + k) = s.readByte (b + k) :=
    fun k hk => fdnWrite_outside inj m s i (b + k) (by omega)
  have h0 := hb 0 (by omega)
  rw [Nat.add_zero] at h0
  simp only [State.readByte] at hb h0
  simp only [State.readWord, Memory.readWord, h0, hb 1 (by omega), hb 2 (by omega), hb 3 (by omega)]

/-- One line's write leaves another line's feedback, bias and address as they were. -/
theorem fdnWrite_other (inj : Word) (m : Vector Word 16) (s : State) (i l : Line) (h : i ≠ l) :
    (fdnWrite inj m s l).fdnFeedback inj m i = s.fdnFeedback inj m i ∧
    (fdnWrite inj m s l).fdnBias i = s.fdnBias i ∧
    (fdnWrite inj m s l).sramAddr ((fdnWrite inj m s l).ringWord (lineChan i)) = s.sramAddr (s.ringWord (lineChan i)) := by
  have hf := fdnWrite_frame inj m s l
  have hfr : (fdnWrite inj m s l).freeze = s.freeze := by have := congrArg State.freeze hf; exact this
  have hbs : (fdnWrite inj m s l).bsign = s.bsign := by have := congrArg State.bsign hf; exact this
  have hbi : (fdnWrite inj m s l).bias = s.bias := by have := congrArg State.bias hf; exact this
  have hk : (fdnWrite inj m s l).sramLog2 = s.sramLog2 := by have := congrArg State.sramLog2 hf; exact this
  have hd : (fdnWrite inj m s l).getDmp i = s.getDmp i := by
    rw [fdnWrite_getDmp, if_neg (fun hh => h hh.1)]
  have hc : (fdnWrite inj m s l).getCh (lineChan i) = s.getCh (lineChan i) := by
    rw [fdnWrite_getCh, if_neg (fun hh => h (lineChan_inj.1 hh))]
  refine ⟨?_, ?_, ?_⟩
  · simp only [State.fdnFeedback, hfr, hd]
  · simp only [State.fdnBias, hbs, hbi]
  · simp only [State.sramAddr, State.ringWord, hk, hc]

/-- The writes of the lines in `L`. -/
theorem fdnWrite_foldl (inj : Word) (m : Vector Word 16) (L : List Line) (hL : L.Nodup) (s : State) :
    { L.foldl (fdnWrite inj m) s with ch := s.ch, dmp := s.dmp, mem := s.mem } = s ∧
    (∀ j : Chan, (L.foldl (fdnWrite inj m) s).getCh j =
      if ∃ i ∈ L, j = lineChan i then (s.getCh j).stepCursor else s.getCh j) ∧
    (∀ u : Line, (L.foldl (fdnWrite inj m) s).getDmp u =
      if u ∈ L ∧ s.freeze = false then (s.getDmp u).step m[u.toNat] else s.getDmp u) ∧
    (∀ b, (∀ i ∈ L, b < s.sramAddr (s.ringWord (lineChan i)) ∨ s.sramAddr (s.ringWord (lineChan i)) + 4 ≤ b) →
      (L.foldl (fdnWrite inj m) s).readByte b = s.readByte b) := by
  induction L generalizing s with
  | nil => simp
  | cons l L ih =>
    obtain ⟨hl, hL⟩ := List.nodup_cons.1 hL
    obtain ⟨h1, h2, h3, h4⟩ := ih hL (fdnWrite inj m s l)
    have hf := fdnWrite_frame inj m s l
    have hfr : (fdnWrite inj m s l).freeze = s.freeze := by have := congrArg State.freeze hf; exact this
    refine ⟨?_, ?_, ?_, ?_⟩
    · have e := congrArg (fun u : State => { u with ch := s.ch, dmp := s.dmp, mem := s.mem }) h1
      exact e.trans hf
    · intro j
      rw [List.foldl_cons, h2 j, fdnWrite_getCh]
      by_cases hj : j = lineChan l
      · subst hj
        rw [if_pos rfl, if_neg, if_pos ⟨l, List.mem_cons_self, rfl⟩]
        rintro ⟨i, hi, h⟩
        rw [lineChan_inj.1 h] at hl
        exact hl hi
      · have : (∃ i ∈ l :: L, j = lineChan i) ↔ ∃ i ∈ L, j = lineChan i := by simp [hj]
        simp only [if_neg hj, this]
    · intro u
      rw [List.foldl_cons, h3 u, fdnWrite_getDmp, hfr]
      by_cases hu : u = l
      · subst hu; simp [hl]
      · simp [hu]
    · intro b hb
      rw [List.foldl_cons, h4 b, fdnWrite_outside inj m s l b (hb l List.mem_cons_self)]
      intro i hi
      rw [(fdnWrite_other inj m s i l (fun h => hl (h ▸ hi))).2.2]
      exact hb i (List.mem_cons_of_mem _ hi)

/-- The word of a line that no later line of the list overwrites holds what the line wrote. -/
theorem fdnWrite_foldl_value (inj : Word) (m : Vector Word 16) (L R : List Line) (i : Line) (hL : (L ++ i :: R).Nodup)
    (s : State)
    (hR : ∀ l ∈ R, s.sramAddr (s.ringWord (lineChan l)) ≠ s.sramAddr (s.ringWord (lineChan i))) :
    ((L ++ i :: R).foldl (fdnWrite inj m) s).readWord (s.sramAddr (s.ringWord (lineChan i))) =
      some (fadd (s.fdnFeedback inj m i) (s.fdnBias i)) := by
  induction L generalizing s with
  | nil =>
    simp only [List.nil_append, List.foldl_cons] at hL ⊢
    obtain ⟨hi, hRn⟩ := List.nodup_cons.1 hL
    rw [← fdnWrite_value inj m s i]
    have hb : ∀ k, k < 4 → (R.foldl (fdnWrite inj m) (fdnWrite inj m s i)).readByte
        (s.sramAddr (s.ringWord (lineChan i)) + k) =
        (fdnWrite inj m s i).readByte (s.sramAddr (s.ringWord (lineChan i)) + k) := by
      intro k hk
      apply (fdnWrite_foldl inj m R hRn (fdnWrite inj m s i)).2.2.2
      intro l hl
      rw [(fdnWrite_other inj m s l i (fun h => hi (h ▸ hl))).2.2]
      have := hR l hl
      simp only [State.sramAddr] at this ⊢
      omega
    have h0 := hb 0 (by omega)
    rw [Nat.add_zero] at h0
    simp only [State.readByte] at hb h0
    simp only [State.readWord, Memory.readWord, h0, hb 1 (by omega), hb 2 (by omega), hb 3 (by omega)]
  | cons l L ih =>
    simp only [List.cons_append, List.foldl_cons] at hL ⊢
    obtain ⟨hl, hLn⟩ := List.nodup_cons.1 hL
    have hil : i ≠ l := fun h => hl (h ▸ List.mem_append_right _ List.mem_cons_self)
    obtain ⟨e1, e2, e3⟩ := fdnWrite_other inj m s i l hil
    have := ih hLn (fdnWrite inj m s l) (by
      intro r hr
      have hrl : r ≠ l := fun h => hl (h ▸ List.mem_append_right _ (List.mem_cons_of_mem _ hr))
      rw [e3, (fdnWrite_other inj m s r l hrl).2.2]
      exact hR r hr)
    rw [e1, e2, e3] at this
    exact this

end Sys2Proof.Machine
end

