-- ==== Sys2Proof/Laws/Exec.lean ====
section
/-! SUPPORT. What executing an instruction can change, said once for all of them. -/

namespace Sys2Proof.Machine

/-- What an instruction other than END leaves of a state: everything outside X, pc, BSIGN, the cursors, phases, damper
lowpasses, DC-blocker memories and the sample RAM. -/
structure Keeps (s t : State) : Prop where
  /-- Every other field. -/
  rest : { t with
    x := s.x, pc := s.pc, ch := s.ch, dmp := s.dmp, dcb := s.dcb, mem := s.mem, bsign := s.bsign } = s
  /-- The parameters of the channels. -/
  ch : ∀ j : Chan, { t.getCh j with dlCur := (s.getCh j).dlCur, lfoPh := (s.getCh j).lfoPh } = s.getCh j
  /-- The parameters of the dampers. -/
  dmp : ∀ u, { t.getDmp u with lp := (s.getDmp u).lp } = s.getDmp u
  /-- The parameters of the DC blockers. -/
  dcb : ∀ u, { t.getDcb u with x1 := (s.getDcb u).x1, y1 := (s.getDcb u).y1 } = s.getDcb u
  /-- Everything below the sample RAM. -/
  prog : ∀ a, a < 0x400000 → t.readByte a = s.readByte a

theorem Keeps.refl (s : State) : Keeps s s := ⟨rfl, fun _ => rfl, fun _ => rfl, fun _ => rfl, fun _ _ => rfl⟩

theorem Keeps.trans {s t u : State} (h : Keeps s t) (k : Keeps t u) : Keeps s u := by
  refine ⟨?_, fun j => ?_, fun j => ?_, fun j => ?_, fun a ha => (k.prog a ha).trans (h.prog a ha)⟩
  · have e := congrArg (fun v : State => { v with x := s.x, pc := s.pc, ch := s.ch, dmp := s.dmp, dcb := s.dcb, mem := s.mem, bsign := s.bsign }) k.rest
    exact e.trans h.rest
  · have e := congrArg (fun c : Channel => { c with dlCur := (s.getCh j).dlCur, lfoPh := (s.getCh j).lfoPh }) (k.ch j)
    exact e.trans (h.ch j)
  · have e := congrArg (fun c : Damper => { c with lp := (s.getDmp j).lp }) (k.dmp j)
    exact e.trans (h.dmp j)
  · have e := congrArg (fun c : DcBlocker => { c with x1 := (s.getDcb j).x1, y1 := (s.getDcb j).y1 }) (k.dcb j)
    exact e.trans (h.dcb j)

theorem Keeps.setX (s : State) (r : XReg) (v : Word) : Keeps s (s.setX r v) := ⟨rfl, fun _ => rfl, fun _ => rfl, fun _ => rfl, fun _ _ => rfl⟩
theorem Keeps.advance (s : State) : Keeps s s.advance := ⟨rfl, fun _ => rfl, fun _ => rfl, fun _ => rfl, fun _ _ => rfl⟩
theorem Keeps.lfoAdvance (s : State) (j : Chan) : Keeps s (s.lfoAdvance j) := by
  refine ⟨rfl, fun i => ?_, fun _ => rfl, fun _ => rfl, fun _ _ => rfl⟩
  rw [State.getCh_lfoAdvance]; split
  · next h => rw [h]; rfl
  · rfl
theorem Keeps.dlWrite (s : State) (j : Chan) (v : Word) : Keeps s (s.dlWrite j v) := by
  refine ⟨rfl, fun i => ?_, fun _ => rfl, fun _ => rfl, fun a ha => ?_⟩
  · rw [State.getCh_dlWrite]; split
    · next h => rw [h]; rfl
    · rfl
  · apply State.readByte_dlWrite
    left
    exact Nat.lt_of_lt_of_le ha (State.sramAddr_ge s _)
theorem Keeps.setDmp (s : State) (u : DampIx) (x : Word) : Keeps s (s.setDmp u ((s.getDmp u).step x)) := by
  refine ⟨rfl, fun i => rfl, fun i => ?_, fun _ => rfl, fun _ _ => rfl⟩
  rw [State.getDmp_setDmp]; split
  · next h => rw [h]; rfl
  · rfl
theorem Keeps.setDcb (s : State) (u : DcbIx) (x : Word) : Keeps s (s.setDcb u ((s.getDcb u).step x)) := by
  refine ⟨rfl, fun i => rfl, fun _ => rfl, fun i => ?_, fun _ _ => rfl⟩
  rw [State.getDcb_setDcb]; split
  · next h => rw [h]; rfl
  · rfl
theorem Keeps.ap (s : State) (j : Chan) (x : Word) : Keeps s (s.apNext j x) := (Keeps.lfoAdvance s j).trans (Keeps.dlWrite _ _ _)
theorem Keeps.cascade (L : List Chan) (s : State) (x : Word) : Keeps s (s.apCascade L x).2 := by
  induction L generalizing s x with
  | nil => exact Keeps.refl s
  | cons j L ih => exact (Keeps.ap s j x).trans (ih _ _)
theorem Keeps.fold {α : Type} (f : State → α → State) (h : ∀ s a, Keeps s (f s a)) (L : List α) (s : State) : Keeps s (L.foldl f s) := by
  induction L generalizing s with
  | nil => exact Keeps.refl s
  | cons a L ih => exact (h s a).trans (ih _)
theorem Keeps.fdnWrite (inj : Word) (m : Vector Word 16) (s : State) (i : Line) : Keeps s (fdnWrite inj m s i) := by
  unfold Sys2Proof.Machine.fdnWrite
  refine Keeps.trans ?_ (Keeps.dlWrite _ _ _)
  unfold State.fdnDamp; split
  · exact Keeps.refl s
  · exact Keeps.setDmp _ _ _
theorem Keeps.fdnReads (s : State) : Keeps s s.fdnReads.2 := by
  have h := s.fdnReads_frame
  have hc := s.fdnReads_getCh
  generalize s.fdnReads.2 = t at h hc
  refine ⟨?_, fun j => ?_, fun u => ?_, fun u => ?_, fun a _ => ?_⟩
  · exact congrArg (fun v : State => { v with x := s.x, pc := s.pc, ch := s.ch, dmp := s.dmp, dcb := s.dcb, mem := s.mem, bsign := s.bsign }) h
  · rw [hc]; split <;> rfl
  · have e := congrArg (fun v : State => v.getDmp u) h
    have e : t.getDmp u = s.getDmp u := e
    rw [e]
  · have e := congrArg (fun v : State => v.getDcb u) h
    have e : t.getDcb u = s.getDcb u := e
    rw [e]
  · have e := congrArg (fun v : State => v.readByte a) h
    exact e

theorem Keeps.withBsign (s : State) (b : Bool) : Keeps s { s with bsign := b } := ⟨rfl, fun _ => rfl, fun _ => rfl, fun _ => rfl, fun _ _ => rfl⟩
theorem Keeps.withX (s : State) (b) : Keeps s { s with x := b } := ⟨rfl, fun _ => rfl, fun _ => rfl, fun _ => rfl, fun _ _ => rfl⟩
theorem Keeps.withPc (s : State) (b) : Keeps s { s with pc := b } := ⟨rfl, fun _ => rfl, fun _ => rfl, fun _ => rfl, fun _ _ => rfl⟩

theorem pc_of_fold {α : Type} (f : State → α → State) (h : ∀ s a, (f s a).pc = s.pc) (L : List α) (s : State) : (L.foldl f s).pc = s.pc := by
  induction L generalizing s with
  | nil => rfl
  | cons a L ih => exact (ih _).trans (h s a)
theorem pc_cascade (L : List Chan) (s : State) (x : Word) : (s.apCascade L x).2.pc = s.pc := by
  induction L generalizing s x with
  | nil => rfl
  | cons j L ih => exact ih _ _
/-- What a legal instruction other than END can do: it answers a next state, leaves what `Keeps` names and moves pc on by
1 to 256. -/
theorem exec_keeps (i : Instr) (s : State) (hw : i.wellFormed = true) (he : i ≠ .endFrame) :
    ∃ t, exec i s = .next t ∧ Keeps s t ∧ s.pc < t.pc ∧ t.pc ≤ s.pc + 256 := by
  cases i
  case nop => exact ⟨_, rfl, Keeps.advance s, by simp, by simp⟩
  case endFrame => exact absurd rfl he
  case skip cond n8 =>
    have : cond ≠ 3#2 := by simpa [Instr.wellFormed] using hw
    refine ⟨_, (by simp only [exec, execSkip, if_neg this]; rfl), Keeps.withPc _ _, ?_, ?_⟩
    · simp only [skipTarget]; split <;> omega
    · simp only [skipTarget]; have := n8.isLt; split <;> omega
  case mov => exact ⟨_, rfl, (Keeps.setX _ _ _).trans (Keeps.advance _), by simp, by simp⟩
  case ldkh => exact ⟨_, rfl, (Keeps.setX _ _ _).trans (Keeps.advance _), by simp, by simp⟩
  case fadd => exact ⟨_, rfl, (Keeps.setX _ _ _).trans (Keeps.advance _), by simp [State.binary], by simp [State.binary]⟩
  case fsub => exact ⟨_, rfl, (Keeps.setX _ _ _).trans (Keeps.advance _), by simp [State.binary], by simp [State.binary]⟩
  case fmul => exact ⟨_, rfl, (Keeps.setX _ _ _).trans (Keeps.advance _), by simp [State.binary], by simp [State.binary]⟩
  case dlwr => exact ⟨_, rfl, (Keeps.dlWrite _ _ _).trans (Keeps.advance _), by simp, by simp⟩
  case dlrd => exact ⟨_, rfl, (Keeps.setX _ _ _).trans (Keeps.advance _), by simp, by simp⟩
  case dlrdm => exact ⟨_, rfl, ((Keeps.lfoAdvance _ _).trans (Keeps.setX _ _ _)).trans (Keeps.advance _), by simp, by simp⟩
  case lfo => exact ⟨_, rfl, ((Keeps.lfoAdvance _ _).trans (Keeps.setX _ _ _)).trans (Keeps.advance _), by simp, by simp⟩
  case ap => exact ⟨_, rfl, ((Keeps.ap _ _ _).trans (Keeps.setX _ _ _)).trans (Keeps.advance _), by simp [State.apNext], by simp [State.apNext]⟩
  case apc xd ch xs n =>
    have : ch.toNat + n.toNat ≤ 31 := by simpa [Instr.wellFormed] using hw
    refine ⟨_, (by simp only [exec, execApc, if_pos this]; rfl), ((Keeps.cascade _ _ _).trans (Keeps.setX _ _ _)).trans (Keeps.advance _), ?_, ?_⟩
    · simp [pc_cascade]
    · simp [pc_cascade]
  case damp => exact ⟨_, rfl, ((Keeps.setDmp _ _ _).trans (Keeps.setX _ _ _)).trans (Keeps.advance _), by simp, by simp⟩
  case had16 => exact ⟨_, rfl, (Keeps.withX _ _).trans (Keeps.advance _), by simp, by simp⟩
  case sclip => exact ⟨_, rfl, (Keeps.setX _ _ _).trans (Keeps.advance _), by simp, by simp⟩
  case width => exact ⟨_, rfl, ((Keeps.setX _ _ _).trans (Keeps.setX _ _ _)).trans (Keeps.advance _), by simp, by simp⟩
  case dcb => exact ⟨_, rfl, ((Keeps.setDcb _ _ _).trans (Keeps.setX _ _ _)).trans (Keeps.advance _), by simp, by simp⟩
  case fdn xd xs =>
    have hr : s.fdnReads.2.pc = s.pc := by
      have h := s.fdnReads_frame
      generalize s.fdnReads.2 = t at h
      have e := congrArg State.pc h
      exact e
    have hp : ∀ inj m (t : State), (t.fdnWrites inj m).pc = t.pc := by
      intro inj m t
      have h := (fdnWrite_foldl inj m fdnLines fdnLines_nodup t).1
      unfold State.fdnWrites
      generalize List.foldl (fdnWrite inj m) t fdnLines = u at h
      have e := congrArg State.pc h
      exact e
    have hk : ∀ inj m (t : State), Keeps t (t.fdnWrites inj m) := fun inj m t => Keeps.fold _ (Keeps.fdnWrite _ _) _ _
    have hk0 := Keeps.fdnReads s
    dsimp only [exec, execFdn]
    generalize s.fdnReads = r at hr hk0
    have hk1 := hk (fmul (s.getX xs) fQuarter) (fwht16 r.1) r.2
    have hp1 := hp (fmul (s.getX xs) fQuarter) (fwht16 r.1) r.2
    generalize r.2.fdnWrites (fmul (s.getX xs) fQuarter) (fwht16 r.1) = t at hk1 hp1
    refine ⟨_, rfl, Keeps.trans ((((hk0.trans hk1).trans (Keeps.setX _ _ _)).trans (Keeps.setX _ _ _)).trans (Keeps.withBsign _ (!s.bsign))) (Keeps.advance _), ?_, ?_⟩
    · show s.pc < t.pc + 1
      omega
    · show t.pc + 1 ≤ _
      omega

end Sys2Proof.Machine
end

