-- ==== Sys2Proof/Laws/Hadamard.lean ====
section
/-! SUPPORT. The Walsh-Hadamard transform element by element (46_hadamard.md R220). -/

namespace Sys2Proof.Machine

theorem at16_set16 (v : Vector Word 16) (i j : Nat) (w : Word) :
    at16 (set16 v i w) j = if i % 16 = j % 16 then w else at16 v j := by
  unfold at16 set16
  rw [Vector.getElem_set]

/-- One butterfly seen from any element. -/
theorem at16_butterfly (h i j : Nat) (v : Vector Word 16) :
    at16 (butterfly h v i) j =
      if (i + h) % 16 = j % 16 then foldScale h (fsub (at16 v i) (at16 v (i + h)))
      else if i % 16 = j % 16 then foldScale h (fadd (at16 v i) (at16 v (i + h)))
      else at16 v j := by
  simp only [butterfly, at16_set16]

/-- One stage seen from element j. -/
theorem at16_fwhtStage (h : Nat) (hh : h = 1 ∨ h = 2 ∨ h = 4 ∨ h = 8) (v : Vector Word 16) (j : Nat) (hj : j < 16) :
    at16 (fwhtStage v h) j = hadStage h (foldScale h) (at16 v) j := by
  rcases hh with rfl | rfl | rfl | rfl
  · have e : (List.range 16).filter (fun i => i &&& 1 == 0) = [0, 2, 4, 6, 8, 10, 12, 14] := by decide
    unfold fwhtStage hadStage
    rw [e]
    simp only [List.foldl_cons, List.foldl_nil, at16_butterfly]
    interval_cases j <;> simp
  · have e : (List.range 16).filter (fun i => i &&& 2 == 0) = [0, 1, 4, 5, 8, 9, 12, 13] := by decide
    unfold fwhtStage hadStage
    rw [e]
    simp only [List.foldl_cons, List.foldl_nil, at16_butterfly]
    interval_cases j <;> simp
  · have e : (List.range 16).filter (fun i => i &&& 4 == 0) = [0, 1, 2, 3, 8, 9, 10, 11] := by decide
    unfold fwhtStage hadStage
    rw [e]
    simp only [List.foldl_cons, List.foldl_nil, at16_butterfly]
    interval_cases j <;> simp
  · have e : (List.range 16).filter (fun i => i &&& 8 == 0) = [0, 1, 2, 3, 4, 5, 6, 7] := by decide
    unfold fwhtStage hadStage
    rw [e]
    simp only [List.foldl_cons, List.foldl_nil, at16_butterfly]
    interval_cases j <;> simp

/-- A stage reads elements 0..15 only. -/
theorem hadStage_congr {h : Nat} (hh : h = 1 ∨ h = 2 ∨ h = 4 ∨ h = 8) (f : Word → Word) {v w : Nat → Word}
    (e : ∀ i, i < 16 → v i = w i) (j : Nat) (hj : j < 16) : hadStage h f v j = hadStage h f w j := by
  unfold hadStage
  have h1 : j &&& h = 0 → j + h < 16 := by
    rcases hh with rfl | rfl | rfl | rfl <;> interval_cases j <;> simp
  rw [e j hj, e (j - h) (by omega)]
  split
  · next h0 => rw [e (j + h) (h1 h0)]
  · rfl

theorem foldScale_eq_id {h : Nat} (hh : h ≠ 8) : foldScale h = id := by
  funext w; simp [foldScale, hh]

/-- FWHT16 in one formula per element (46_hadamard.md R220). -/
theorem fwht16_get (v : Vector Word 16) (w : Nat → Word) (e : ∀ i, i < 16 → at16 v i = w i) (j : Nat) (hj : j < 16) :
    at16 (fwht16 v) j = hadamard w j := by
  have e8 : foldScale 8 = fun w => fmul w fQuarter := by funext w; simp [foldScale]
  have step (h : Nat) (hh : h = 1 ∨ h = 2 ∨ h = 4 ∨ h = 8) (u : Vector Word 16) (x : Nat → Word)
      (hu : ∀ i, i < 16 → at16 u i = x i) : ∀ i, i < 16 → at16 (fwhtStage u h) i = hadStage h (foldScale h) x i :=
    fun i hi => (at16_fwhtStage h hh u i hi).trans (hadStage_congr hh _ hu i hi)
  have s1 := step 1 (.inl rfl) v w e
  have s2 := step 2 (.inr (.inl rfl)) _ _ s1
  have s4 := step 4 (.inr (.inr (.inl rfl))) _ _ s2
  have s8 := step 8 (.inr (.inr (.inr rfl))) _ _ s4 j hj
  rw [e8, foldScale_eq_id (h := 1) (by decide), foldScale_eq_id (h := 2) (by decide),
    foldScale_eq_id (h := 4) (by decide)] at s8
  simp only [fwht16, List.foldl_cons, List.foldl_nil]
  exact s8

end Sys2Proof.Machine
end

