-- ==== Sys2Proof/Laws/HostBus.lean ====
section
/-! SUPPORT. The host address map: the addresses it covers, and the word a read of each returns, as 20_memory.md R82
gives them range by range. -/

namespace Sys2Proof.Machine

/-- The addresses the bus maps are those of the table. -/
theorem mapAligned_isSome_iff (k a : Nat) : (a % 4 = 0 ∧ ∃ t, mapAligned k a = some t) ↔ Mapped k a := by
  constructor
  · rintro ⟨ha, t, h⟩
    unfold mapAligned at h
    unfold Mapped
    by_cases h1 : a < 0x40
    · exact .inl ⟨a / 4, by omega, by omega⟩
    rw [if_neg h1] at h
    by_cases h2 : a < 0x80
    · exact .inr (.inl ⟨(a - 0x40) / 4, by omega, by omega⟩)
    rw [if_neg h2] at h
    by_cases h3 : a < 0xA0
    · right; right; left
      have : a % 16 / 4 < 3 := by
        by_contra hc
        have e : a % 16 / 4 = 3 := by omega
        rw [if_pos h3, e] at h
        cases h
      exact ⟨(a - 0x80) / 16, a % 16, by omega, by omega, by omega⟩
    rw [if_neg h3] at h
    by_cases h4 : a < 0x100
    · rw [if_pos h4] at h; cases h
    rw [if_neg h4] at h
    by_cases h5 : a < 0x200
    · exact .inr (.inr (.inr (.inl ⟨(a - 0x100) / 16, a % 16, by omega, by omega, by omega⟩)))
    rw [if_neg h5] at h
    by_cases h6 : a < 0x400
    · rw [if_pos h6] at h; cases h
    rw [if_neg h6] at h
    by_cases h7 : a < 0x800
    · exact .inr (.inr (.inr (.inr (.inl ⟨(a - 0x400) / 32, a % 32 / 4, by omega, by omega, by omega⟩))))
    rw [if_neg h7] at h
    by_cases h8 : a < 0x1000
    · rw [if_pos h8] at h; cases h
    rw [if_neg h8] at h
    by_cases h9 : a < 0x1400
    · exact .inr (.inr (.inr (.inr (.inr (.inl ⟨(a - 0x1000) / 4, by omega, by omega⟩)))))
    rw [if_neg h9] at h
    by_cases h10 : a < 0x2000
    · rw [if_pos h10] at h; cases h
    rw [if_neg h10] at h
    by_cases h11 : a < 0x3000
    · exact .inr (.inr (.inr (.inr (.inr (.inr (.inl ⟨(a - 0x2000) / 4, by omega, by omega⟩))))))
    rw [if_neg h11] at h
    by_cases h12 : a < 0x400000
    · rw [if_pos h12] at h; cases h
    rw [if_neg h12] at h
    by_cases h13 : a < 0x400000 + 4 * 2 ^ k
    · exact .inr (.inr (.inr (.inr (.inr (.inr (.inr ⟨(a - 0x400000) / 4, by omega, by omega⟩))))))
    rw [if_neg h13] at h
    cases h
  · rintro (⟨i, h, rfl⟩ | ⟨i, h, rfl⟩ | ⟨u, o, h, ho, rfl⟩ | ⟨u, o, h, ho, rfl⟩ | ⟨j, f, h, hf, rfl⟩ |
      ⟨i, h, rfl⟩ | ⟨i, h, rfl⟩ | ⟨w, h, rfl⟩)
    · refine ⟨by omega, ?_⟩
      unfold mapAligned; rw [if_pos (by omega)]; exact ⟨_, rfl⟩
    · refine ⟨by omega, ?_⟩
      unfold mapAligned; rw [if_neg (by omega), if_pos (by omega)]; exact ⟨_, rfl⟩
    · refine ⟨by omega, ?_⟩
      unfold mapAligned; rw [if_neg (by omega), if_neg (by omega), if_pos (by omega)]
      have : (0x80 + 0x10 * u + o) % 16 = o := by omega
      rw [this]
      rcases ho with rfl | rfl | rfl <;> exact ⟨_, rfl⟩
    · refine ⟨by omega, ?_⟩
      unfold mapAligned; iterate 4 rw [if_neg (by omega)]
      rw [if_pos (by omega)]; exact ⟨_, rfl⟩
    · refine ⟨by omega, ?_⟩
      unfold mapAligned; iterate 6 rw [if_neg (by omega)]
      rw [if_pos (by omega)]; exact ⟨_, rfl⟩
    · refine ⟨by omega, ?_⟩
      unfold mapAligned; iterate 8 rw [if_neg (by omega)]
      rw [if_pos (by omega)]; exact ⟨_, rfl⟩
    · refine ⟨by omega, ?_⟩
      unfold mapAligned; iterate 10 rw [if_neg (by omega)]
      rw [if_pos (by omega)]; exact ⟨_, rfl⟩
    · refine ⟨by omega, ?_⟩
      unfold mapAligned; iterate 12 rw [if_neg (by omega)]
      rw [if_pos (by omega)]; exact ⟨_, rfl⟩

/-- An access is refused exactly when it is not accepted (20_memory.md R84). -/
theorem State.busTarget_eq_none_iff (s : State) (a : Word) (bits : Nat) :
    s.busTarget a bits = none ↔ ¬ Accepted s a bits := by
  unfold State.busTarget Accepted
  rw [← mapAligned_isSome_iff]
  split
  · next h =>
    simp only [h.1, true_and]
    cases hm : mapAligned s.sramLog2 a.toNat
    · simp
    · simp [h.2]
  · next h =>
    simp only [true_iff]
    rintro ⟨rfl, h4, _⟩; exact h ⟨rfl, h4⟩

/-- A 32-bit access at an aligned mapped address reaches what the map names. -/
theorem State.busTarget_of_mapAligned (s : State) (a : Word) (t : Target) (h4 : a.toNat % 4 = 0)
    (h : mapAligned s.sramLog2 a.toNat = some t) : s.busTarget a 32 = some t := by
  unfold State.busTarget; rw [if_pos ⟨rfl, h4⟩, h]

/-- Nothing waits while BUSY = 0 (20_memory.md R86). -/
theorem State.mustWait_idle {s : State} {e : HostEvent} (h : s.seq = .idle) : s.mustWait e = false := by
  cases e <;> simp [State.mustWait, State.busy, h]

/-- STATUS as the sum of its bits (10_state.md R36). -/
theorem State.statusWord_eq (s : State) : s.statusWord =
    BitVec.ofNat 32 ((decide (s.seq ≠ .idle)).toNat + 2 * s.prepared.toNat + 4 * s.done.toNat + 8 * s.ill.toNat +
      16 * s.buserr.toNat) := by
  unfold State.statusWord State.busy
  cases decide (s.seq ≠ .idle) <;> cases s.prepared <;> cases s.done <;> cases s.ill <;> cases s.buserr <;> decide

/-- IRQEN as the sum of its bits (10_state.md R37). -/
theorem State.irqenWord_eq (s : State) : s.irqenWord =
    BitVec.ofNat 32 (4 * s.doneIe.toNat + 8 * s.illIe.toNat + 16 * s.buserrIe.toNat) := by
  unfold State.irqenWord
  cases s.doneIe <;> cases s.illIe <;> cases s.buserrIe <;> decide

/-- PARAMS as the sum of its fields (10_state.md R41). -/
theorem State.paramsWord_eq (s : State) : s.paramsWord =
    BitVec.ofNat 32 (2 ^ 24 * 1 + 2 ^ 16 * 5 + 2 ^ 8 * 8 + s.sramLog2 % 2 ^ 5) := by
  unfold State.paramsWord
  have h : s.sramLog2 % 2^5 < 32 := by omega
  have e : BitVec.ofNat 5 s.sramLog2 = BitVec.ofNat 5 (s.sramLog2 % 2^5) := by
    apply BitVec.eq_of_toNat_eq; simp
  rw [e]
  generalize s.sramLog2 % 2^5 = n at h
  interval_cases n <;> decide

/-! ## Where each register and word is mapped -/

/-- The address of X[r]. -/
theorem mapAligned_xReg (k : Nat) (r : XReg) : mapAligned k (0x40 + 4 * r.toNat) = some (.xReg r) := by
  have := r.isLt
  have e : (0x40 + 4 * r.toNat - 0x40) / 4 = r.toNat := by omega
  unfold mapAligned
  rw [if_neg (by omega), if_pos (by omega), e]; simp

/-- Word o of DCB[u]. -/
theorem mapAligned_dcb (k : Nat) (u : DcbIx) (o : Nat) (ho : o < 3) :
    mapAligned k (0x80 + 0x10 * u.toNat + 4 * o) = (dcbField o).map (.dcb u) := by
  have := u.isLt
  have e1 : (0x80 + 0x10 * u.toNat + 4 * o - 0x80) / 16 = u.toNat := by omega
  have e2 : (0x80 + 0x10 * u.toNat + 4 * o) % 16 / 4 = o := by omega
  unfold mapAligned
  rw [if_neg (by omega), if_neg (by omega), if_pos (by omega), e1, e2]; simp

/-- Word o of DMP[u]. -/
theorem mapAligned_dmp (k : Nat) (u : DampIx) (o : Nat) (ho : o < 4) :
    mapAligned k (0x100 + 0x10 * u.toNat + 4 * o) = some (.dmp u (dmpField o)) := by
  have := u.isLt
  have e1 : (0x100 + 0x10 * u.toNat + 4 * o - 0x100) / 16 = u.toNat := by omega
  have e2 : (0x100 + 0x10 * u.toNat + 4 * o) % 16 / 4 = o := by omega
  unfold mapAligned; iterate 4 rw [if_neg (by omega)]
  rw [if_pos (by omega), e1, e2]; simp

/-- Word o of CH[j]. -/
theorem mapAligned_ch (k : Nat) (j : Chan) (o : Nat) (ho : o < 8) :
    mapAligned k (0x400 + 0x20 * j.toNat + 4 * o) = some (.ch j (chField o)) := by
  have := j.isLt
  have e1 : (0x400 + 0x20 * j.toNat + 4 * o - 0x400) / 32 = j.toNat := by omega
  have e2 : (0x400 + 0x20 * j.toNat + 4 * o) % 32 / 4 = o := by omega
  unfold mapAligned; iterate 6 rw [if_neg (by omega)]
  rw [if_pos (by omega), e1, e2]; simp

/-- Program word i. -/
theorem mapAligned_prog (k i : Nat) (h : i ≤ 255) : mapAligned k (0x1000 + 4 * i) = some (.prog i) := by
  unfold mapAligned; iterate 8 rw [if_neg (by omega)]
  rw [if_pos (by omega)]; congr 2; omega

/-- Sine table entry i. -/
theorem mapAligned_sine (k i : Nat) (h : i ≤ 1023) : mapAligned k (0x2000 + 4 * i) = some (.sine i) := by
  unfold mapAligned; iterate 10 rw [if_neg (by omega)]
  rw [if_pos (by omega)]; congr 2; omega

/-- Sample word w. -/
theorem mapAligned_sram (k w : Nat) (h : w < 2 ^ k) : mapAligned k (0x400000 + 4 * w) = some (.sram w) := by
  unfold mapAligned; iterate 12 rw [if_neg (by omega)]
  rw [if_pos (by omega)]; congr 2; omega

/-! ## What a read returns -/

/-- A host read of aligned address `a` reaches a target that reads as `v`. -/
def ReadsAs (s : State) (a : Nat) (v : Word) : Prop :=
  a % 4 = 0 ∧ ∃ t, mapAligned s.sramLog2 a = some t ∧ s.readTarget t = v

/-- The words of DCB[u] read as its registers. -/
theorem readsAs_dcb (s : State) (u : DcbIx) (a o : Nat) (f : DcbField) (ha : a = 0x80 + 0x10 * u.toNat + 4 * o)
    (ho : o < 3) (hf : dcbField o = some f) : ReadsAs s a ((s.getDcb u).readField f) :=
  ⟨by omega, .dcb u f, by rw [ha, mapAligned_dcb _ u o ho, hf]; rfl, rfl⟩

/-- The words of DMP[u] read as its registers. -/
theorem readsAs_dmp (s : State) (u : DampIx) (a o : Nat) (ha : a = 0x100 + 0x10 * u.toNat + 4 * o) (ho : o < 4) :
    ReadsAs s a ((s.getDmp u).readField (dmpField o)) :=
  ⟨by omega, .dmp u (dmpField o), ha ▸ mapAligned_dmp _ u o ho, rfl⟩

/-- The words of CH[j] read as its registers. -/
theorem readsAs_ch (s : State) (j : Chan) (a o : Nat) (ha : a = 0x400 + 0x20 * j.toNat + 4 * o) (ho : o < 8) :
    ReadsAs s a ((s.getCh j).readField (chField o)) :=
  ⟨by omega, .ch j (chField o), ha ▸ mapAligned_ch _ j o ho, rfl⟩

/-- The sixteen global registers read as the target their word names. -/
theorem readsAs_global (s : State) (a : Nat) (v : Word) (ha : a % 4 = 0 ∧ a < 0x40)
    (hv : s.readTarget (globalTarget (a / 4)) = v) : ReadsAs s a v :=
  ⟨ha.1, _, if_pos ha.2, hv⟩

/-- A word that fits in fewer bits, zero-extended, is the number it holds. -/
theorem setWidth_eq_ofNat {n : Nat} (x : BitVec n) : x.setWidth 32 = BitVec.ofNat 32 x.toNat :=
  BitVec.eq_of_toNat_eq (by simp)

/-- A word that has been written reads as it. -/
theorem State.ramWord_of_readWord {s : State} {a : Nat} {v : Word} (h : s.readWord a = some v) : s.ramWord a = v := by
  rw [State.ramWord, h]; rfl

/-- Bit 0 alone, as a word. -/
theorem bitAt_zero (b : Bool) : bitAt 0 b = BitVec.ofNat 32 b.toNat := by cases b <;> rfl

/-- A read of a mapped address returns the value of the table. -/
theorem BusValue.readTarget {s : State} {a : Nat} {v : Word} (h : BusValue s a v) :
    a % 4 = 0 ∧ ∃ t, mapAligned s.sramLog2 a = some t ∧ s.readTarget t = v := by
  show ReadsAs s a v
  unfold BusValue at h
  obtain ⟨ha, hv⟩ | h := h
  · exact readsAs_global s a v (by omega) (by rw [ha, hv]; exact bitAt_zero _)
  obtain ⟨ha, hv⟩ | h := h
  · exact readsAs_global s a v (by omega) (by rw [ha, hv]; exact State.statusWord_eq s)
  obtain ⟨ha, hv⟩ | h := h
  · exact readsAs_global s a v (by omega) (by rw [ha, hv]; exact State.irqenWord_eq s)
  obtain ⟨ha, hv⟩ | h := h
  · exact readsAs_global s a v (by omega) (by rw [ha, hv]; exact rfl)
  obtain ⟨ha, hv⟩ | h := h
  · exact readsAs_global s a v (by omega) (by rw [ha, hv]; exact setWidth_eq_ofNat _)
  obtain ⟨ha, hv⟩ | h := h
  · exact readsAs_global s a v (by omega) (by rw [ha, hv]; exact rfl)
  obtain ⟨ha, hv⟩ | h := h
  · exact readsAs_global s a v (by omega) (by rw [ha, hv]; exact rfl)
  obtain ⟨ha, hv⟩ | h := h
  · exact readsAs_global s a v (by omega) (by rw [ha, hv]; exact State.paramsWord_eq s)
  obtain ⟨ha, hv⟩ | h := h
  · exact readsAs_global s a v (by omega) (by rw [ha, hv]; exact rfl)
  obtain ⟨ha, hv⟩ | h := h
  · exact readsAs_global s a v (by omega) (by rw [ha, hv]; exact rfl)
  obtain ⟨ha, hv⟩ | h := h
  · exact readsAs_global s a v (by omega) (by rw [ha, hv]; exact rfl)
  obtain ⟨ha, hv⟩ | h := h
  · exact readsAs_global s a v (by omega) (by rw [ha, hv]; exact rfl)
  obtain ⟨ha, hv⟩ | h := h
  · exact readsAs_global s a v (by omega) (by rw [ha, hv]; exact rfl)
  obtain ⟨ha, hv⟩ | h := h
  · exact readsAs_global s a v (by omega) (by rw [ha, hv]; exact setWidth_eq_ofNat _)
  obtain ⟨ha, hv⟩ | h := h
  · exact readsAs_global s a v (by omega) (by rw [ha, hv]; exact bitAt_zero _)
  obtain ⟨ha, hv⟩ | h := h
  · exact readsAs_global s a v (by omega) (by rw [ha, hv]; exact rfl)
  obtain ⟨r, rfl, rfl⟩ | h := h
  · exact ⟨by omega, .xReg r, mapAligned_xReg _ r, rfl⟩
  obtain ⟨u, h⟩ | h := h
  · obtain ⟨rfl, rfl⟩ | ⟨rfl, rfl⟩ | ⟨rfl, rfl⟩ := h
    · exact readsAs_dcb s u _ 0 .r (by omega) (by decide) rfl
    · exact readsAs_dcb s u _ 1 .x1 (by omega) (by decide) rfl
    · exact readsAs_dcb s u _ 2 .y1 (by omega) (by decide) rfl
  obtain ⟨u, h⟩ | h := h
  · obtain ⟨rfl, rfl⟩ | ⟨rfl, rfl⟩ | ⟨rfl, rfl⟩ | ⟨rfl, rfl⟩ := h
    · exact readsAs_dmp s u _ 0 (by omega) (by decide)
    · exact readsAs_dmp s u _ 1 (by omega) (by decide)
    · exact readsAs_dmp s u _ 2 (by omega) (by decide)
    · exact readsAs_dmp s u _ 3 (by omega) (by decide)
  obtain ⟨j, h⟩ | h := h
  · obtain ⟨rfl, rfl⟩ | h := h
    · exact readsAs_ch s j _ 0 (by omega) (by decide)
    obtain ⟨rfl, rfl⟩ | h := h
    · rw [← setWidth_eq_ofNat _]
      exact readsAs_ch s j _ 1 (by omega) (by decide)
    obtain ⟨rfl, rfl⟩ | ⟨rfl, rfl⟩ | ⟨rfl, rfl⟩ | h := h
    · exact readsAs_ch s j _ 2 (by omega) (by decide)
    · exact readsAs_ch s j _ 3 (by omega) (by decide)
    · exact readsAs_ch s j _ 4 (by omega) (by decide)
    obtain ⟨rfl, rfl⟩ | ⟨rfl, rfl⟩ | ⟨rfl, rfl⟩ := h
    · exact readsAs_ch s j _ 5 (by omega) (by decide)
    · exact readsAs_ch s j _ 6 (by omega) (by decide)
    · exact readsAs_ch s j _ 7 (by omega) (by decide)
  obtain ⟨i, hi, rfl, hv⟩ | h := h
  · exact ⟨by omega, .prog i, mapAligned_prog _ i hi, State.ramWord_of_readWord hv⟩
  obtain ⟨i, hi, rfl, rfl⟩ | ⟨w, hw, rfl, hv⟩ := h
  · exact ⟨by omega, .sine i, mapAligned_sine _ i hi, rfl⟩
  · refine ⟨by omega, .sram w, mapAligned_sram _ w hw, ?_⟩
    simp only [State.readTarget, State.sRead, State.sramAddr, Nat.mod_eq_of_lt hw]
    exact State.ramWord_of_readWord hv

end Sys2Proof.Machine
end

