-- ==== Sys2Proof/Laws/Rounding.lean ====
section
/-! SUPPORT. Rounding: `f32Round` gives the nearest binary32 pattern, ties to even, infinity from half a last place above
the largest finite number on (00_scope.md R11). The proof numbers the magnitudes: `magValue p` is the value of the
pattern whose bits 30:0 are p, it rises with p, and an exact number lies between two consecutive ones. -/

namespace Sys2Proof.Machine

/-- The value of the pattern with bits 30:0 equal to `p`, continued past the largest finite number. -/
def magValue (p : Nat) : ℚ :=
  if p < 2 ^ 23 then (p : ℚ) * 2 ^ (-149 : ℤ)
  else ((2 ^ 23 + p % 2 ^ 23 : Nat) : ℚ) * 2 ^ (((p / 2 ^ 23 : Nat) : ℤ) - 150)

theorem two_zpow_pos (e : ℤ) : (0 : ℚ) < 2 ^ e := zpow_pos (by norm_num) e

/-- Pattern Q * 2^23 + n stands for n last places of exponent Q - 149. -/
theorem magValue_split (Q n : Nat) (hn : n ≤ 2 ^ 24) (h : 2 ^ 23 ≤ n ∨ Q = 0) :
    magValue (Q * 2 ^ 23 + n) = (n : ℚ) * 2 ^ ((Q : ℤ) - 149) := by
  unfold magValue
  by_cases hs : Q * 2 ^ 23 + n < 2 ^ 23
  · have hQ : Q = 0 := by omega
    subst hQ
    rw [if_pos hs]; simp
  · rw [if_neg hs]
    by_cases hc : n = 2 ^ 24
    · subst hc
      have h1 : (Q * 2 ^ 23 + 2 ^ 24) / 2 ^ 23 = Q + 2 := by omega
      have h2 : (Q * 2 ^ 23 + 2 ^ 24) % 2 ^ 23 = 0 := by omega
      rw [h1, h2]
      have : (((Q + 2 : Nat) : ℤ) - 150) = ((Q : ℤ) - 149) + 1 := by push_cast; ring
      rw [this, zpow_add₀ (by norm_num)]
      push_cast; ring
    · have hge : 2 ^ 23 ≤ n := by omega
      have h1 : (Q * 2 ^ 23 + n) / 2 ^ 23 = Q + 1 := by omega
      have h2 : 2 ^ 23 + (Q * 2 ^ 23 + n) % 2 ^ 23 = n := by omega
      rw [h1, h2]
      have : (((Q + 1 : Nat) : ℤ) - 150) = (Q : ℤ) - 149 := by push_cast; ring
      rw [this]

theorem magValue_lt_succ (p : Nat) : magValue p < magValue (p + 1) := by
  have key : ∀ Q n : Nat, n + 1 ≤ 2 ^ 24 → (2 ^ 23 ≤ n ∨ Q = 0) →
      magValue (Q * 2 ^ 23 + n) < magValue (Q * 2 ^ 23 + n + 1) := by
    intro Q n hn h
    have := magValue_split Q (n + 1) hn (by omega)
    rw [Nat.add_assoc, this, magValue_split Q n (by omega) h]
    have := two_zpow_pos ((Q : ℤ) - 149)
    push_cast; nlinarith
  by_cases hp : p < 2 ^ 23
  · simpa using key 0 p (by omega) (.inr rfl)
  · have := key (p / 2 ^ 23 - 1) (2 ^ 23 + p % 2 ^ 23) (by omega) (.inl (by omega))
    rwa [show (p / 2 ^ 23 - 1) * 2 ^ 23 + (2 ^ 23 + p % 2 ^ 23) = p by omega] at this

theorem magValue_strictMono : StrictMono magValue := strictMono_nat_of_lt_succ magValue_lt_succ

theorem magValue_zero : magValue 0 = 0 := by simp [magValue]

theorem magValue_nonneg (p : Nat) : 0 ≤ magValue p := by
  rw [← magValue_zero]; exact magValue_strictMono.monotone (Nat.zero_le p)

/-! ## Rounding to an integer number of last places -/

/-- `roundShift` is the nearest integer to m / 2^sh, ties to even. -/
theorem roundShift_spec (m sh : Nat) :
    (roundShift m sh = m / 2 ^ sh ∧ 2 * (m % 2 ^ sh) ≤ 2 ^ sh ∧ (2 * (m % 2 ^ sh) = 2 ^ sh → roundShift m sh % 2 = 0)) ∨
    (roundShift m sh = m / 2 ^ sh + 1 ∧ 2 ^ sh ≤ 2 * (m % 2 ^ sh) ∧
      (2 * (m % 2 ^ sh) = 2 ^ sh → roundShift m sh % 2 = 0)) := by
  unfold roundShift
  simp only
  split
  · left; exact ⟨rfl, by omega, by omega⟩
  · split
    · right; exact ⟨rfl, by omega, by omega⟩
    · rcases Nat.mod_two_eq_zero_or_one (m / 2 ^ sh) with h | h
      · left; rw [h]; exact ⟨rfl, by omega, by omega⟩
      · right; rw [h]; exact ⟨rfl, by omega, by omega⟩

/-- The exact number in last places, its floor f, and which neighbour the rounding takes. -/
theorem roundMant_spec (m : Nat) (e : Int) :
    ∃ (f : Nat) (r : ℚ), (m : ℚ) * 2 ^ e = ((f : ℚ) + r) * 2 ^ (ulpExp m e) ∧ 0 ≤ r ∧ r < 1 ∧
      ((roundMant m e = f ∧ r ≤ 1 / 2 ∧ (r = 1 / 2 → roundMant m e % 2 = 0)) ∨
        (roundMant m e = f + 1 ∧ 1 / 2 ≤ r ∧ (r = 1 / 2 → roundMant m e % 2 = 0))) := by
  unfold roundMant
  simp only
  split
  · next h =>
    refine ⟨m * 2 ^ (e - ulpExp m e).toNat, 0, ?_, le_refl _, by norm_num, .inl ⟨rfl, by norm_num, by norm_num⟩⟩
    have : e = ulpExp m e + ((e - ulpExp m e).toNat : ℤ) := by omega
    conv_lhs => rw [this, zpow_add₀ (by norm_num : (2 : ℚ) ≠ 0), zpow_natCast]
    push_cast; ring
  · next h =>
    generalize hs : (ulpExp m e - e).toNat = sh
    have he : ulpExp m e = e + (sh : ℤ) := by omega
    have hpos : (0 : ℚ) < 2 ^ sh := by positivity
    have hdm : ((2 ^ sh : Nat) : ℚ) * ((m / 2 ^ sh : Nat) : ℚ) + ((m % 2 ^ sh : Nat) : ℚ) = (m : ℚ) := by
      exact_mod_cast Nat.div_add_mod m (2 ^ sh)
    have hlt : ((m % 2 ^ sh : Nat) : ℚ) < 2 ^ sh := by exact_mod_cast Nat.mod_lt m (Nat.two_pow_pos sh)
    refine ⟨m / 2 ^ sh, ((m % 2 ^ sh : Nat) : ℚ) / 2 ^ sh, ?_, by positivity, by rwa [div_lt_one hpos], ?_⟩
    · rw [he, zpow_add₀ (by norm_num : (2 : ℚ) ≠ 0), zpow_natCast]
      push_cast at hdm
      field_simp
      linarith [hdm]
    · have hcast : ∀ {a b : Nat}, a ≤ b → (a : ℚ) ≤ (b : ℚ) := fun h => by exact_mod_cast h
      have hhalf : ((m % 2 ^ sh : Nat) : ℚ) / 2 ^ sh = 1 / 2 → 2 * (m % 2 ^ sh) = 2 ^ sh := by
        intro h
        rw [div_eq_div_iff hpos.ne' (by norm_num)] at h
        have : (((m % 2 ^ sh) * 2 : Nat) : ℚ) = ((1 * 2 ^ sh : Nat) : ℚ) := by push_cast; linarith
        have := Nat.cast_injective this
        omega
      rcases roundShift_spec m sh with ⟨h1, h2, h3⟩ | ⟨h1, h2, h3⟩
      · refine .inl ⟨h1, ?_, fun h => h3 (hhalf h)⟩
        rw [div_le_div_iff₀ hpos (by norm_num)]
        have := hcast h2; push_cast at this ⊢; linarith
      · refine .inr ⟨h1, ?_, fun h => h3 (hhalf h)⟩
        rw [div_le_div_iff₀ (by norm_num) hpos]
        have := hcast h2; push_cast at this ⊢; linarith

/-- The exact number fills between 23 and 24 bits of last places, or the last place is the subnormals'. -/
theorem ulpExp_range (m : Nat) (e : Int) (hm : 0 < m) :
    -149 ≤ ulpExp m e ∧ (m : ℚ) * 2 ^ e < 2 ^ 24 * 2 ^ (ulpExp m e) ∧
      (2 ^ 23 * 2 ^ (ulpExp m e) ≤ (m : ℚ) * 2 ^ e ∨ ulpExp m e = -149) := by
  have hlo : ((2 : ℚ) ^ Nat.log2 m) ≤ m := by exact_mod_cast Nat.log2_self_le hm.ne'
  have hhi : (m : ℚ) < 2 ^ (Nat.log2 m + 1) := by exact_mod_cast Nat.lt_log2_self
  have hep := two_zpow_pos e
  have hlt : (m : ℚ) * 2 ^ e < 2 ^ ((Nat.log2 m : ℤ) + 1 + e) := by
    rw [zpow_add₀ (by norm_num : (2 : ℚ) ≠ 0), show ((Nat.log2 m : ℤ) + 1) = ((Nat.log2 m + 1 : Nat) : ℤ) by push_cast; ring,
      zpow_natCast]
    exact mul_lt_mul_of_pos_right hhi hep
  have hge : (2 : ℚ) ^ ((Nat.log2 m : ℤ) + e) ≤ (m : ℚ) * 2 ^ e := by
    rw [zpow_add₀ (by norm_num : (2 : ℚ) ≠ 0), zpow_natCast]
    exact mul_le_mul_of_nonneg_right hlo hep.le
  have hq : (Nat.log2 m : ℤ) + e - 23 ≤ ulpExp m e := le_max_left _ _
  refine ⟨le_max_right _ _, ?_, ?_⟩
  · refine lt_of_lt_of_le hlt ?_
    rw [show (2 : ℚ) ^ 24 = 2 ^ (24 : ℤ) by norm_num, ← zpow_add₀ (by norm_num : (2 : ℚ) ≠ 0)]
    exact zpow_le_zpow_right₀ (by norm_num) (by omega)
  · rcases max_choice ((Nat.log2 m : ℤ) + e - 23) (-149) with h | h
    · left
      have h' : ulpExp m e = (Nat.log2 m : ℤ) + e - 23 := h
      rw [h', show (2 : ℚ) ^ 23 = 2 ^ (23 : ℤ) by norm_num, ← zpow_add₀ (by norm_num : (2 : ℚ) ≠ 0)]
      rw [show (23 : ℤ) + ((Nat.log2 m : ℤ) + e - 23) = (Nat.log2 m : ℤ) + e by ring]
      exact hge
    · exact .inr h

/-- The pattern before it is cut off at infinity. -/
def roundPattern (m : Nat) (e : Int) : Nat := (ulpExp m e + 149).toNat * 2 ^ 23 + roundMant m e

/-- Pattern P is nearest to the positive number V among the magnitudes, and the even one of two equally near ones. -/
def NearestPattern (P : Nat) (V : ℚ) : Prop :=
  ∀ p, |magValue P - V| ≤ |magValue p - V| ∧
    (|magValue p - V| = |magValue P - V| → magValue p ≠ magValue P → P % 2 = 0)

/-- A number f + r last places of exponent Q - 149, rounded to n of them by the side of r it lies on, gives the nearest
pattern. -/
theorem nearestPattern_of_split (Q f n : Nat) (r : ℚ) (hf : f + 1 ≤ 2 ^ 24) (hf2 : 2 ^ 23 ≤ f ∨ Q = 0) (hr0 : 0 ≤ r)
    (hr1 : r < 1)
    (hn : (n = f ∧ r ≤ 1 / 2 ∧ (r = 1 / 2 → n % 2 = 0)) ∨ (n = f + 1 ∧ 1 / 2 ≤ r ∧ (r = 1 / 2 → n % 2 = 0))) :
    NearestPattern (Q * 2 ^ 23 + n) (((f : ℚ) + r) * 2 ^ ((Q : ℤ) - 149)) := by
  intro p
  have hu := two_zpow_pos ((Q : ℤ) - 149)
  generalize hud : (2 : ℚ) ^ ((Q : ℤ) - 149) = u at *
  have hPf : magValue (Q * 2 ^ 23 + f) = f * u := by rw [magValue_split Q f (by omega) hf2, hud]
  have hPf1 : magValue (Q * 2 ^ 23 + (f + 1)) = (f + 1) * u := by
    rw [magValue_split Q (f + 1) hf (by omega), hud]; push_cast; ring
  have hpar : (Q * 2 ^ 23 + n) % 2 = n % 2 := by omega
  have hval : magValue (Q * 2 ^ 23 + n) = n * u := by
    rcases hn with ⟨h, -, -⟩ | ⟨h, -, -⟩
    · rw [h, hPf]
    · rw [h, hPf1]; push_cast; ring
  rw [hpar, hval]
  have hside : magValue p ≤ f * u ∨ (f + 1) * u ≤ magValue p := by
    rcases Nat.lt_or_ge (Q * 2 ^ 23 + f) p with h | h
    · right; rw [← hPf1]; exact magValue_strictMono.monotone h
    · left; rw [← hPf]; exact magValue_strictMono.monotone h
  generalize magValue p = w at *
  rcases hn with ⟨h, hr, hev⟩ | ⟨h, hr, hev⟩
  · rw [h] at hev ⊢
    have e1 : |(f : ℚ) * u - (f + r) * u| = r * u := by
      rw [show (f : ℚ) * u - (f + r) * u = -(r * u) by ring, abs_neg, abs_of_nonneg (by positivity)]
    rw [e1]
    rcases hside with hw | hw
    · have e2 : |w - (f + r) * u| = (f + r) * u - w := by
        rw [abs_of_nonpos (by nlinarith)]; ring
      rw [e2]
      exact ⟨by nlinarith, fun h1 h2 => absurd (by nlinarith) h2⟩
    · have e2 : |w - (f + r) * u| = w - (f + r) * u := abs_of_nonneg (by nlinarith)
      rw [e2]
      refine ⟨by nlinarith, fun h1 _ => hev ?_⟩
      by_contra hne
      have : r < 1 / 2 := lt_of_le_of_ne hr hne
      nlinarith
  · rw [h] at hev ⊢
    have e1 : |((f + 1 : Nat) : ℚ) * u - (f + r) * u| = (1 - r) * u := by
      rw [show ((f + 1 : Nat) : ℚ) * u - (f + r) * u = (1 - r) * u by push_cast; ring, abs_of_nonneg (by nlinarith)]
    rw [e1]
    rcases hside with hw | hw
    · have e2 : |w - (f + r) * u| = (f + r) * u - w := by
        rw [abs_of_nonpos (by nlinarith)]; ring
      rw [e2]
      refine ⟨by nlinarith, fun h1 _ => hev ?_⟩
      by_contra hne
      have : 1 / 2 < r := lt_of_le_of_ne hr (Ne.symm hne)
      nlinarith
    · have e2 : |w - (f + r) * u| = w - (f + r) * u := abs_of_nonneg (by nlinarith)
      rw [e2]
      refine ⟨by nlinarith, fun h1 h2 => absurd ?_ h2⟩
      push_cast; nlinarith

/-- The floor of the exact number in last places fits 24 bits and fills 23, or the last place is the subnormals'. -/
theorem roundMant_range (m : Nat) (e : Int) (hm : 0 < m) {f : Nat} {r : ℚ}
    (hV : (m : ℚ) * 2 ^ e = ((f : ℚ) + r) * 2 ^ (ulpExp m e)) (hr0 : 0 ≤ r) (hr1 : r < 1) :
    ulpExp m e = (((ulpExp m e + 149).toNat : Nat) : ℤ) - 149 ∧ f + 1 ≤ 2 ^ 24 ∧
      (2 ^ 23 ≤ f ∨ (ulpExp m e + 149).toNat = 0) := by
  obtain ⟨hq, hlt, hge⟩ := ulpExp_range m e hm
  have hu := two_zpow_pos (ulpExp m e)
  rw [hV] at hlt hge
  refine ⟨by omega, ?_, ?_⟩
  · have hf1 : (f : ℚ) < 2 ^ 24 := by nlinarith
    have : f < 2 ^ 24 := by exact_mod_cast hf1
    omega
  · rcases hge with h | h
    · left
      have h1 : (2 : ℚ) ^ 23 < f + 1 := by nlinarith
      have : 2 ^ 23 < f + 1 := by exact_mod_cast h1
      omega
    · right; omega

/-- No magnitude is nearer to the exact number than the rounded one, and of two equally near ones it is the even one. -/
theorem roundPattern_nearest (m : Nat) (e : Int) (hm : 0 < m) : NearestPattern (roundPattern m e) ((m : ℚ) * 2 ^ e) := by
  obtain ⟨f, r, hV, hr0, hr1, hn⟩ := roundMant_spec m e
  obtain ⟨hQ, hf, hf2⟩ := roundMant_range m e hm hV hr0 hr1
  have := nearestPattern_of_split (ulpExp m e + 149).toNat f (roundMant m e) r hf hf2 hr0 hr1 hn
  rwa [← hQ, ← hV] at this

/-! ## Patterns -/

/-- Sign and magnitude of an assembled pattern. -/
theorem f32OfMag_toNat (neg : Bool) (p : Nat) (hp : p < 2 ^ 31) :
    (f32OfMag neg p).toNat = (if neg then 2 ^ 31 else 0) + p := by
  unfold f32OfMag
  rw [BitVec.toNat_ofNat, Nat.mod_eq_of_lt]
  split <;> omega

theorem f32Sign_f32OfMag (neg : Bool) (p : Nat) (hp : p < 2 ^ 31) : f32Sign (f32OfMag neg p) = neg := by
  unfold f32Sign
  rw [f32OfMag_toNat neg p hp]
  cases neg
  · simp; omega
  · simp

theorem f32Mag_f32OfMag (neg : Bool) (p : Nat) (hp : p < 2 ^ 31) : f32Mag (f32OfMag neg p) = p := by
  unfold f32Mag
  rw [f32OfMag_toNat neg p hp]
  cases neg <;> simp <;> omega

theorem f32Mag_lt (a : Word) : f32Mag a < 2 ^ 31 := Nat.mod_lt _ (by decide)

/-- Every pattern is its sign and its magnitude. -/
theorem f32OfMag_sign_mag (a : Word) : f32OfMag (f32Sign a) (f32Mag a) = a := by
  apply BitVec.eq_of_toNat_eq
  have ha := a.isLt
  rw [f32OfMag_toNat _ _ (f32Mag_lt a)]
  unfold f32Sign f32Mag
  simp only [decide_eq_true_eq]
  split <;> omega

theorem f32Exp_eq (a : Word) : f32Exp a = f32Mag a / 2 ^ 23 := by unfold f32Exp f32Mag; omega

theorem f32Frac_eq (a : Word) : f32Frac a = f32Mag a % 2 ^ 23 := by unfold f32Frac f32Mag; omega

/-- The value of a finite pattern is its sign times the value of its magnitude. -/
theorem f32Value_eq (a : Word) (h : f32IsFinite a = true) :
    f32Value a = (if f32Sign a then -1 else 1) * magValue (f32Mag a) := by
  have hm : f32Mag a < 0x7F800000 := by simpa [f32IsFinite] using h
  unfold f32Value f32Unpack
  rw [f32Exp_eq, f32Frac_eq]
  have h255 : f32Mag a / 2 ^ 23 ≠ 255 := by omega
  rw [if_neg h255]
  unfold magValue
  by_cases h0 : f32Mag a < 2 ^ 23
  · rw [if_pos (by omega), if_pos h0, Nat.mod_eq_of_lt h0]
    simp only [FVal.toRat]; ring
  · rw [if_neg (by omega), if_neg h0]
    simp only [FVal.toRat]; ring

theorem f32IsFinite_f32OfMag (neg : Bool) (p : Nat) (hp : p < 0x7F800000) : f32IsFinite (f32OfMag neg p) = true := by
  unfold f32IsFinite
  rw [f32Mag_f32OfMag neg p (by omega)]
  simpa using hp

theorem f32Value_f32OfMag (neg : Bool) (p : Nat) (hp : p < 0x7F800000) :
    f32Value (f32OfMag neg p) = (if neg then -1 else 1) * magValue p := by
  rw [f32Value_eq _ (f32IsFinite_f32OfMag neg p hp), f32Sign_f32OfMag neg p (by omega), f32Mag_f32OfMag neg p (by omega)]

theorem f32OfMag_lsb (neg : Bool) (p : Nat) (hp : p < 2 ^ 31) : (f32OfMag neg p).getLsbD 0 = decide (p % 2 = 1) := by
  rw [BitVec.getLsbD, f32OfMag_toNat neg p hp, Nat.testBit_zero]
  cases neg
  · simp
  · simp; omega

theorem magValue_max : magValue 0x7F7FFFFF = 2 ^ 128 - 2 ^ 104 := by
  have := magValue_split 253 0xFFFFFF (by norm_num) (.inl (by norm_num))
  norm_num at this
  rw [this]; norm_num

theorem magValue_overflow : magValue 0x7F800000 = 2 ^ 128 := by
  have := magValue_split 253 0x1000000 (by norm_num) (.inl (by norm_num))
  norm_num at this
  rw [this]; norm_num

/-- Rounding the magnitude: finite exactly below half a last place above the largest finite number. -/
theorem NearestPattern.lt_iff {P : Nat} {V : ℚ} (hN : NearestPattern P V) :
    P < 0x7F800000 ↔ V < 2 ^ 128 - 2 ^ 103 := by
  obtain ⟨hmax, hmaxt⟩ := hN 0x7F7FFFFF
  obtain ⟨hov, hovt⟩ := hN 0x7F800000
  rw [magValue_max] at hmax hmaxt
  rw [magValue_overflow] at hov hovt
  constructor
  · intro hlt
    by_contra hV
    push Not at hV
    have h1 : magValue (P) ≤ 2 ^ 128 - 2 ^ 104 := by
      rw [← magValue_max]; exact magValue_strictMono.monotone (by omega)
    generalize hw : magValue (P) = w at *
    have e1 : |w - V| = V - w := by rw [abs_of_nonpos (by linarith)]; ring
    rw [e1] at hov hovt
    rcases le_total V (2 ^ 128) with hVo | hVo
    · have e2 : |2 ^ 128 - V| = 2 ^ 128 - V := abs_of_nonneg (by linarith)
      rw [e2] at hov hovt
      have hVe : V = 2 ^ 128 - 2 ^ 103 := by linarith
      have hwe : w = 2 ^ 128 - 2 ^ 104 := by linarith
      have hev := hovt (by rw [hVe, hwe]; ring) (by rw [hwe]; norm_num)
      have : P = 0x7F7FFFFF := by
        apply magValue_strictMono.injective
        rw [hw, hwe, magValue_max]
      omega
    · have e2 : |2 ^ 128 - V| = V - 2 ^ 128 := by rw [abs_of_nonpos (by linarith)]; ring
      rw [e2] at hov
      have : (0 : ℚ) < 2 ^ 104 := by norm_num
      linarith
  · intro hV
    by_contra hge
    push Not at hge
    have h1 : (2 : ℚ) ^ 128 ≤ magValue (P) := by
      rw [← magValue_overflow]; exact magValue_strictMono.monotone hge
    generalize magValue (P) = w at *
    have e1 : |w - V| = w - V := abs_of_nonneg (by linarith [show (0 : ℚ) < 2 ^ 103 by norm_num])
    rw [e1] at hmax
    rcases le_total V (2 ^ 128 - 2 ^ 104) with hVm | hVm
    · rw [abs_of_nonneg (by linarith)] at hmax
      linarith [show (0 : ℚ) < 2 ^ 104 by norm_num]
    · rw [abs_of_nonpos (by linarith)] at hmax
      linarith

/-- The nearest pattern, with a sign and cut off at infinity, is the correct rounding (00_scope.md R11). -/
theorem NearestPattern.roundsTo (neg : Bool) {P : Nat} {V : ℚ} (hV : 0 < V) (hN : NearestPattern P V) :
    F32RoundsTo (f32OfMag neg (min P 0x7F800000)) ((if neg then -1 else 1) * V) := by
  have hneg : decide ((if neg then -1 else 1) * (V) < 0) = neg := by
    cases neg
    · simp only [Bool.false_eq_true, if_false, one_mul, decide_eq_false_iff_not, not_lt]; exact hV.le
    · simp only [if_true, decide_eq_true_eq]; linarith
  have habs : |(if neg then -1 else 1) * (V)| = V := by
    cases neg
    · simp only [Bool.false_eq_true, if_false, one_mul]; exact abs_of_pos hV
    · simp only [if_true]; rw [neg_one_mul, abs_neg]; exact abs_of_pos hV
  unfold F32RoundsTo
  rw [habs, hneg]
  split
  · next hlt =>
    have hfin := hN.lt_iff.2 hlt
    rw [min_eq_left hfin.le]
    refine ⟨f32IsFinite_f32OfMag neg _ hfin, ?_, ?_⟩
    · rw [f32Sign_f32OfMag neg _ (by omega), hneg]
    · intro c hc
      rw [f32Value_eq c hc, f32Value_f32OfMag neg _ hfin, f32OfMag_lsb neg _ (by omega)]
      obtain ⟨hn, ht⟩ := hN (f32Mag c)
      obtain ⟨hn0, ht0⟩ := hN 0
      rw [magValue_zero] at hn0 ht0
      have hpn := magValue_nonneg (f32Mag c)
      generalize magValue (f32Mag c) = w at *
      generalize magValue (P) = v at *
      have h0 : |0 - V| = V := by rw [zero_sub, abs_neg]; exact abs_of_pos hV
      rw [h0] at hn0 ht0
      have hodd : P % 2 = 0 → decide (P % 2 = 1) = false := by
        intro h; simp [h]
      have sameSign : |(if neg then (-1 : ℚ) else 1) * v - (if neg then -1 else 1) * V| = |v - V| := by
        cases neg <;> simp only [Bool.false_eq_true, if_false, if_true]
        · ring_nf
        · rw [show -1 * v - -1 * V = -(v - V) by ring, abs_neg]
      rw [sameSign]
      by_cases hs : f32Sign c = neg
      · have sameC : |(if f32Sign c then (-1 : ℚ) else 1) * w - (if neg then -1 else 1) * V| = |w - V| := by
          rw [hs]
          cases neg <;> simp only [Bool.false_eq_true, if_false, if_true]
          · ring_nf
          · rw [show -1 * w - -1 * V = -(w - V) by ring, abs_neg]
        rw [sameC]
        refine ⟨hn, fun h1 h2 => hodd (ht h1 ?_)⟩
        intro h; apply h2; rw [h, hs]
      · have otherC : |(if f32Sign c then (-1 : ℚ) else 1) * w - (if neg then -1 else 1) * V| = w + V := by
          have : f32Sign c = !neg := by revert hs; cases f32Sign c <;> cases neg <;> decide
          rw [this]
          cases neg <;> simp only [Bool.not_true, Bool.not_false, Bool.false_eq_true, if_false, if_true]
          · rw [show -1 * w - 1 * V = -(w + V) by ring, abs_neg, abs_of_nonneg (by linarith)]
          · rw [show 1 * w - -1 * V = w + V by ring, abs_of_nonneg (by linarith)]
        rw [otherC]
        refine ⟨by linarith, fun h1 h2 => hodd (ht0 (by linarith) ?_)⟩
        intro h; apply h2
        have : w = 0 := by rw [← h] at h1; rw [zero_sub, abs_neg, abs_of_pos hV] at h1; linarith
        rw [this, ← h]; ring
  · next hge =>
    have hnf : ¬ P < 0x7F800000 := fun h => hge (hN.lt_iff.1 h)
    rw [min_eq_right (by omega)]; rfl

theorem f32Round_eq (neg : Bool) (m : Nat) (e : Int) (hm : 0 < m) :
    f32Round neg m e = f32OfMag neg (min (roundPattern m e) 0x7F800000) := by
  unfold f32Round roundMag roundPattern; rw [if_neg (by omega)]

/-- What `f32Round` answers: the exact number (-1)^neg * m * 2^e, correctly rounded (00_scope.md R11). -/
theorem f32Round_roundsTo (neg : Bool) (m : Nat) (e : Int) (hm : 0 < m) :
    F32RoundsTo (f32Round neg m e) ((if neg then -1 else 1) * ((m : ℚ) * 2 ^ e)) := by
  rw [f32Round_eq neg m e hm]
  exact (roundPattern_nearest m e hm).roundsTo neg (mul_pos (by exact_mod_cast hm) (two_zpow_pos e))

/-- A quotient of 26 significant bits or more with everything below folded into one odd last bit rounds as any number
strictly between its two even neighbours does. -/
theorem f32Round_sticky_roundsTo (neg : Bool) (q : Nat) (e : Int) (hq : 2 ^ 25 ≤ q) (V : ℚ)
    (h1 : ((2 * q : Nat) : ℚ) * 2 ^ e < V) (h2 : V < ((2 * q + 2 : Nat) : ℚ) * 2 ^ e) :
    F32RoundsTo (f32Round neg (2 * q + 1) e) ((if neg then -1 else 1) * V) := by
  have hm : 0 < 2 * q + 1 := by omega
  have hV : 0 < V := lt_of_le_of_lt (mul_nonneg (by positivity) (two_zpow_pos e).le) h1
  rw [f32Round_eq neg _ e hm]
  refine NearestPattern.roundsTo neg hV ?_
  obtain ⟨f, r, hE, hr0, hr1, hn⟩ := roundMant_spec (2 * q + 1) e
  obtain ⟨hQ, hf, hf2⟩ := roundMant_range (2 * q + 1) e hm hE hr0 hr1
  have hlog : 26 ≤ Nat.log2 (2 * q + 1) := by
    by_contra hc
    have : 2 * q + 1 < 2 ^ (Nat.log2 (2 * q + 1) + 1) := Nat.lt_log2_self
    have : 2 ^ (Nat.log2 (2 * q + 1) + 1) ≤ 2 ^ 26 := Nat.pow_le_pow_right (by decide) (by omega)
    omega
  have hsh : e + 3 ≤ ulpExp (2 * q + 1) e := le_trans (by omega) (le_max_left _ _)
  obtain ⟨sh, hshe⟩ : ∃ sh : Nat, ulpExp (2 * q + 1) e = e + ((sh + 2 : Nat) : ℤ) :=
    ⟨(ulpExp (2 * q + 1) e - e).toNat - 2, by omega⟩
  have hue : (2 : ℚ) ^ (ulpExp (2 * q + 1) e) = 2 ^ e * 2 ^ (sh + 2) := by
    rw [hshe, zpow_add₀ (by norm_num : (2 : ℚ) ≠ 0), zpow_natCast]
  have he := two_zpow_pos e
  have hp : (0 : ℚ) < 2 ^ (sh + 2) := by positivity
  -- the odd remainder of 2q+1 below the last place
  rw [hue] at hE
  have hE' : ((2 * q + 1 : Nat) : ℚ) = ((f : ℚ) + r) * 2 ^ (sh + 2) := by
    have : ((2 * q + 1 : Nat) : ℚ) * 2 ^ e = (((f : ℚ) + r) * 2 ^ (sh + 2)) * 2 ^ e := by rw [hE]; ring
    exact mul_right_cancel₀ he.ne' this
  obtain ⟨ρ, hρ⟩ : ∃ ρ : Nat, 2 * q + 1 = f * 2 ^ (sh + 2) + ρ := by
    refine ⟨2 * q + 1 - f * 2 ^ (sh + 2), ?_⟩
    have : ((f * 2 ^ (sh + 2) : Nat) : ℚ) ≤ ((2 * q + 1 : Nat) : ℚ) := by rw [hE']; push_cast; nlinarith
    have : f * 2 ^ (sh + 2) ≤ 2 * q + 1 := by exact_mod_cast this
    omega
  have hr : r * 2 ^ (sh + 2) = ρ := by
    have : ((2 * q + 1 : Nat) : ℚ) = (f : ℚ) * 2 ^ (sh + 2) + ρ := by rw [hρ]; push_cast; ring
    rw [hE'] at this; linarith
  have hodd : ρ % 2 = 1 := by
    have : f * 2 ^ (sh + 2) = 2 * (f * 2 ^ (sh + 1)) := by rw [pow_succ]; ring
    omega
  have hρ1 : ρ < 2 ^ (sh + 2) := by
    have : (ρ : ℚ) < 2 ^ (sh + 2) := by rw [← hr]; nlinarith
    exact_mod_cast this
  have hpow : 2 ^ (sh + 2) = 4 * 2 ^ sh := by rw [pow_add]; ring
  -- V as f + r' last places, on the same side of the middle
  obtain ⟨r', hr'⟩ : ∃ r' : ℚ, V = ((f : ℚ) + r') * (2 ^ e * 2 ^ (sh + 2)) :=
    ⟨V / (2 ^ e * 2 ^ (sh + 2)) - f, by field_simp; ring⟩
  have hlo : (ρ : ℚ) - 1 < r' * 2 ^ (sh + 2) := by
    have hA : ((2 * q : Nat) : ℚ) = ((f : ℚ) * 2 ^ (sh + 2) + ρ) - 1 := by
      have : ((2 * q + 1 : Nat) : ℚ) = (f : ℚ) * 2 ^ (sh + 2) + ρ := by rw [hρ]; push_cast; ring
      push_cast at this ⊢; linarith
    rw [hA, hr', show ((f : ℚ) + r') * (2 ^ e * 2 ^ (sh + 2)) = (((f : ℚ) + r') * 2 ^ (sh + 2)) * 2 ^ e by ring] at h1
    have := lt_of_mul_lt_mul_right h1 he.le
    linarith
  have hhi : r' * 2 ^ (sh + 2) < (ρ : ℚ) + 1 := by
    have hA : ((2 * q + 2 : Nat) : ℚ) = ((f : ℚ) * 2 ^ (sh + 2) + ρ) + 1 := by
      have : ((2 * q + 1 : Nat) : ℚ) = (f : ℚ) * 2 ^ (sh + 2) + ρ := by rw [hρ]; push_cast; ring
      push_cast at this ⊢; linarith
    rw [hA, hr', show ((f : ℚ) + r') * (2 ^ e * 2 ^ (sh + 2)) = (((f : ℚ) + r') * 2 ^ (sh + 2)) * 2 ^ e by ring] at h2
    have := lt_of_mul_lt_mul_right h2 he.le
    linarith
  have hpq : (2 : ℚ) ^ (sh + 2) = 4 * 2 ^ sh := by rw [pow_add]; ring
  have h2sh : (0 : ℚ) < 2 ^ sh := by positivity
  have hr0' : 0 ≤ r' := by
    have : (1 : ℚ) ≤ ρ := by exact_mod_cast (by omega : 1 ≤ ρ)
    by_contra hc
    push Not at hc
    nlinarith
  have hr1' : r' < 1 := by
    have : ρ + 1 ≤ 2 ^ (sh + 2) := by omega
    have : (ρ : ℚ) + 1 ≤ 2 ^ (sh + 2) := by exact_mod_cast this
    by_contra hc
    push Not at hc
    nlinarith
  have hfin : ((f : ℚ) + r') * (2 ^ e * 2 ^ (sh + 2)) = ((f : ℚ) + r') * 2 ^ (ulpExp (2 * q + 1) e) := by rw [hue]
  rw [hr', hfin, hQ]
  refine nearestPattern_of_split _ f _ r' hf hf2 hr0' hr1' ?_
  rcases hn with ⟨h, hle, -⟩ | ⟨h, hge, -⟩
  · left
    have : (ρ : ℚ) ≤ 2 * 2 ^ sh := by rw [← hr, hpq]; nlinarith
    have : ρ ≤ 2 * 2 ^ sh := by exact_mod_cast this
    have : ρ + 1 ≤ 2 * 2 ^ sh := by omega
    have : (ρ : ℚ) + 1 ≤ 2 * 2 ^ sh := by exact_mod_cast this
    have hlt : r' < 1 / 2 := by
      rw [hpq] at hhi
      by_contra hc
      push Not at hc
      nlinarith
    exact ⟨h, hlt.le, fun hh => absurd hh hlt.ne⟩
  · right
    have : 2 * (2 : ℚ) ^ sh ≤ ρ := by rw [← hr, hpq]; nlinarith
    have : 2 * 2 ^ sh ≤ ρ := by exact_mod_cast this
    have : 2 * 2 ^ sh + 1 ≤ ρ := by omega
    have : 2 * (2 : ℚ) ^ sh + 1 ≤ ρ := by exact_mod_cast this
    have hlt : 1 / 2 < r' := by
      rw [hpq] at hlo
      by_contra hc
      push Not at hc
      nlinarith
    exact ⟨h, hlt.le, fun hh => absurd hh hlt.ne'⟩

end Sys2Proof.Machine
end

