-- ==== Sys2Proof/Laws/Step.lean ====
section
/-! SUPPORT. What a step can do, said once: it takes the oldest host event, or it is a step of the sequencer from the
state whose oldest event is dropped if it is a pause. -/

namespace Sys2Proof.Machine

/-- The state a step of the sequencer starts from: a pause at the head of the inbox has been taken. -/
def State.afterPass (s : State) : State :=
  match s.inbox with
  | .pass :: rest => { s with inbox := rest }
  | _ => s

/-- What a sequencer step from u can answer with. -/
def SequencerStep (u t : State) : Prop :=
  (u.seq = .idle ∧ t = u) ∨
  (∃ g, u.seq = .preparing g ∧ t = u.finishPrepare g) ∨
  (u.seq = .running ∧ 256 ≤ u.pc ∧ t = u.endFrame) ∨
  (∃ w e, u.seq = .running ∧ u.pc < 256 ∧ u.pRead u.pc = some w ∧ decodeWord w = .error e ∧ t = u.raiseIllegal w) ∨
  (∃ w i, u.seq = .running ∧ u.pc < 256 ∧ u.pRead u.pc = some w ∧ decodeWord w = .ok i ∧ exec i u = .next t)

/-- The answer of a sequencer action. -/
def Action.answer : Action → Answer
  | .done t => .next t
  | .stop f => .fault f
  | .run i t => exec i t

theorem step_eq (s : State) : step s = s.nextAction.answer := by unfold step Action.answer; rfl

theorem State.sequence_cases {u t : State} (h : u.sequence.answer = .next t) : SequencerStep u t := by
  unfold State.sequence at h
  split at h
  · next hs => left; cases h; exact ⟨hs, rfl⟩
  · next g hs => right; left; cases h; exact ⟨g, hs, rfl⟩
  · next hs =>
    right; right
    unfold State.fetch at h
    have h256 : Config.progWords = 256 := rfl
    split at h
    · next hp => left; cases h; exact ⟨hs, by omega, rfl⟩
    · next hp =>
      right
      split at h
      · cases h
      · next w hw =>
        split at h
        · next e he => left; cases h; exact ⟨w, e, hs, by omega, hw, he, rfl⟩
        · next i hi => right; exact ⟨w, i, hs, by omega, hw, hi, h⟩

/-- What a step can do: an event that does not wait is taken, or the sequencer moves. -/
theorem step_cases {s t : State} (h : step s = .next t) :
    (∃ e rest, s.inbox = e :: rest ∧ e ≠ .pass ∧ s.mustWait e = false ∧ t = { s with inbox := rest }.takeEvent e) ∨
    SequencerStep s.afterPass t := by
  rw [step_eq] at h
  unfold State.nextAction at h
  split at h
  · next hi => right; simp only [State.afterPass, hi]; exact State.sequence_cases h
  · next rest hi => right; simp only [State.afterPass, hi]; exact State.sequence_cases h
  · next e rest hne hi =>
    split at h
    · right
      have : s.afterPass = s := by
        unfold State.afterPass
        rw [hi]
        cases e <;> first | rfl | exact absurd rfl (hne · )
      rw [this]
      exact State.sequence_cases h
    · next hw =>
      left
      cases h
      exact ⟨e, rest, hi, hne, by simpa using hw, rfl⟩

/-- With nothing from the host a step is a step of the sequencer. -/
theorem step_inbox_nil {s : State} (h : s.inbox = []) : step s = s.sequence.answer := by
  rw [step_eq, State.nextAction, h]

/-- A pause lets the sequencer move. -/
theorem step_pass {s : State} {rest : List HostEvent} (h : s.inbox = .pass :: rest) :
    step s = { s with inbox := rest }.sequence.answer := by
  rw [step_eq, State.nextAction, h]

/-- An access that waits lets the sequencer move and stays. -/
theorem step_waits {s : State} {e : HostEvent} {rest : List HostEvent} (h : s.inbox = e :: rest)
    (hw : s.mustWait e = true) : step s = s.sequence.answer := by
  rw [step_eq, State.nextAction, h]
  cases e
  case pass => cases hw
  all_goals simp only [hw, if_true]

/-- An event that does not wait is taken. -/
theorem step_takes {s : State} {e : HostEvent} {rest : List HostEvent} (h : s.inbox = e :: rest) (hp : e ≠ .pass)
    (hw : s.mustWait e = false) : step s = .next ({ s with inbox := rest }.takeEvent e) := by
  rw [step_eq, State.nextAction, h]
  cases e <;> first | (simp only [hw, Bool.false_eq_true, if_false]; rfl) | exact absurd rfl hp

/-- A running frame executes the instruction its program word decodes to. -/
theorem State.sequence_run {u : State} {w : Word} {i : Instr} (hs : u.seq = .running) (hp : u.pc < 256)
    (hw : u.pRead u.pc = some w) (hd : decodeWord w = .ok i) : u.sequence.answer = exec i u := by
  have : ¬ Config.progWords ≤ u.pc := by have : Config.progWords = 256 := rfl; omega
  simp only [State.sequence, hs, State.fetch, if_neg this, hw, hd, Action.answer]

end Sys2Proof.Machine
end

