-- ==== Sys2Proof/Machine/Assembler.lean ====
section
/-! DEFINITION. The assembler of 30_encoding.md R118 and R119: the text of an instruction, the operands it computes and
the checks it makes, and the pseudo-instructions. No step of the machine uses it. -/

namespace Sys2Proof.Machine

/-! ## Syntax (R118) -/

/-- `X0`..`X15`. -/
def asmX (r : XReg) : String := "X" ++ toString r.toNat

/-- `C0`..`C31`. -/
def asmC (j : Chan) : String := "C" ++ toString j.toNat

/-- `U0`..`U15`. -/
def asmU (u : Nat) : String := "U" ++ toString u

/-- `#<number>`. -/
def asmImm (n : Nat) : String := "#" ++ toString n

/-- A mnemonic and its operands, separated by commas. -/
def asmLine (mnemonic : String) : List String → String
  | [] => mnemonic
  | operands => mnemonic ++ " " ++ String.intercalate ", " operands

/-- SKIP's mnemonic for a condition (R118); cond 3 has no form. -/
def asmSkip (cond : BitVec 2) : Option String :=
  match cond.toNat with
  | 0 => some "SKIP"
  | 1 => some "SKIP.F"
  | 2 => some "SKIP.NF"
  | _ => none

/-- The line of assembly that stands for an instruction (R118); a SKIP with cond = 3 has none. -/
def asmText : Instr → Option String
  | .nop => some (asmLine "NOP" [])
  | .endFrame => some (asmLine "END" [])
  | .skip cond n8 => (asmSkip cond).map fun m => asmLine m [asmImm n8.toNat]
  | .mov xd xs => some (asmLine "MOV" [asmX xd, asmX xs])
  | .ldkh xd imm16 => some (asmLine "LDKH" [asmX xd, asmImm imm16.toNat])
  | .fadd xd xs xt => some (asmLine "FADD" [asmX xd, asmX xs, asmX xt])
  | .fsub xd xs xt => some (asmLine "FSUB" [asmX xd, asmX xs, asmX xt])
  | .fmul xd xs xt => some (asmLine "FMUL" [asmX xd, asmX xs, asmX xt])
  | .dlwr ch xs => some (asmLine "DLWR" [asmC ch, asmX xs])
  | .dlrd xd ch xs => some (asmLine "DLRD" [asmX xd, asmC ch, asmX xs])
  | .dlrdm xd ch => some (asmLine "DLRDM" [asmX xd, asmC ch])
  | .lfo xd ch => some (asmLine "LFO" [asmX xd, asmC ch])
  | .ap xd ch xs => some (asmLine "AP" [asmX xd, asmC ch, asmX xs])
  | .apc xd ch xs n => some (asmLine "APC" [asmX xd, asmC ch, asmX xs, asmImm (n.toNat + 1)])
  | .damp xd u xs => some (asmLine "DAMP" [asmX xd, asmU u.toNat, asmX xs])
  | .had16 => some (asmLine "HAD16" [])
  | .sclip xd xs => some (asmLine "SCLIP" [asmX xd, asmX xs])
  | .width xl xr => some (asmLine "WIDTH" [asmX xl, asmX xr])
  | .dcb xd u xs => some (asmLine "DCB" [asmX xd, asmU u.toNat, asmX xs])
  | .fdn xd xs => some (asmLine "FDN" [asmX xd, asmX xs])

/-- The n8 of a SKIP at `pc` to a label that names program word `label`: `label - pc - 1`, refused outside 0..255
(R118). -/
def skipDistance (pc label : Nat) : Option (BitVec 8) :=
  if pc < label ∧ label - pc - 1 ≤ 255 then some (BitVec.ofNat 8 (label - pc - 1)) else none

/-- The n of an APC of `len` sections: `len - 1`, len 1..8 (R118). -/
def apcCount (len : Nat) : Option (BitVec 3) := if 1 ≤ len ∧ len ≤ 8 then some (BitVec.ofNat 3 (len - 1)) else none

/-! ## Pseudo-instructions (R119) -/

/-- A pseudo-instruction; `b` after its label has been resolved by `skipDistance`. -/
inductive Pseudo where
  /-- `LDK Xd, v`. -/
  | ldk (xd : XReg) (v : Word)
  /-- `CLR Xd`. -/
  | clr (xd : XReg)
  /-- `B #n8`. -/
  | b (n8 : BitVec 8)
  /-- `HALT`. -/
  | halt
deriving DecidableEq, Repr

/-- The expansion of a pseudo-instruction; an LDK whose low 16 bits are not all 0 is refused (R119). -/
def Pseudo.expand : Pseudo → Option Instr
  | .ldk xd v => if wordField v 0 16 = 0#16 then some (.ldkh xd (wordField v 16 16)) else none
  | .clr xd => some (.ldkh xd 0#16)
  | .b n8 => some (.skip 0#2 n8)
  | .halt => some .endFrame

end Sys2Proof.Machine
end

