-- ==== Sys2Proof/Tests/Slice0.lean ====
section
/-! SUPPORT. The model's own tests. Expected values are the spec's: 95_test_vectors.md and the examples of the rules,
cited at each test. The last section shows, for each obligation with hypotheses, that they can be met. -/

namespace Sys2Proof.Tests

open Sys2Proof.Machine

/-! ## Well-formedness: an ill-formed term for each check -/

theorem test_skip_cond3_is_ill_formed : (Instr.skip 3#2 5#8).wellFormed = false := by decide
theorem test_apc_past_channel31_is_ill_formed : (Instr.apc 0#4 25#5 0#4 7#3).wellFormed = false := by decide
theorem test_apc_to_channel31_is_well_formed : (Instr.apc 0#4 24#5 0#4 7#3).wellFormed = true := by decide

/-! ## Decoding: words written out bit by bit from the patterns of 30_encoding.md R115 -/

-- op 000000
theorem test_decode_nop : decodeWord 0b00000000000000000000000000000000#32 = .ok .nop := by decide
theorem test_decode_end : decodeWord 0b00000100000000000000000000000000#32 = .ok .endFrame := by decide
-- op 000010, cond 01, zero 0000000000000000, n8 00000010
theorem test_decode_skip : decodeWord 0b00001001000000000000000000000010#32 = .ok (.skip 1#2 2#8) := by decide
-- op 000011, xd 1111, xs 0111
theorem test_decode_mov : decodeWord 0b00001111110111000000000000000000#32 = .ok (.mov 15#4 7#4) := by decide
-- op 000100, xd 1001, zero 000000, imm16 1011111010000000
theorem test_decode_ldkh : decodeWord 0b00010010010000001011111010000000#32 = .ok (.ldkh 9#4 0xBE80#16) := by decide
-- op 000101, xd 0001, xs 0010, xt 0011
theorem test_decode_fadd : decodeWord 0b00010100010010001100000000000000#32 = .ok (.fadd 1#4 2#4 3#4) := by decide
theorem test_decode_fsub : decodeWord 0b00011000010010001100000000000000#32 = .ok (.fsub 1#4 2#4 3#4) := by decide
theorem test_decode_fmul : decodeWord 0b00011100010010001100000000000000#32 = .ok (.fmul 1#4 2#4 3#4) := by decide
-- op 001000, zero 0000, xs 1111, zero 0000, ch 11110
theorem test_decode_dlwr : decodeWord 0b00100000001111000011110000000000#32 = .ok (.dlwr 30#5 15#4) := by decide
-- op 001001, xd 0011, xs 0100, zero 0000, ch 00111
theorem test_decode_dlrd : decodeWord 0b00100100110100000000111000000000#32 = .ok (.dlrd 3#4 7#5 4#4) := by decide
theorem test_decode_dlrdm : decodeWord 0b00101000100000000010000000000000#32 = .ok (.dlrdm 2#4 16#5) := by decide
theorem test_decode_lfo : decodeWord 0b00101101010000000000011000000000#32 = .ok (.lfo 5#4 3#5) := by decide
theorem test_decode_ap : decodeWord 0b00110000010000000010100000000000#32 = .ok (.ap 1#4 20#5 0#4) := by decide
-- op 001101, xd 0001, xs 0000, zero 0000, ch 10100, n 001
theorem test_decode_apc : decodeWord 0b00110100010000000010100001000000#32 = .ok (.apc 1#4 20#5 0#4 1#3) := by decide
-- op 001110, xd 0001, xs 0010, zero 00000, u 1111
theorem test_decode_damp : decodeWord 0b00111000010010000001111000000000#32 = .ok (.damp 1#4 15#4 2#4) := by decide
theorem test_decode_had16 : decodeWord 0b00111100000000000000000000000000#32 = .ok .had16 := by decide
theorem test_decode_sclip : decodeWord 0b01000000010010000000000000000000#32 = .ok (.sclip 1#4 2#4) := by decide
theorem test_decode_width : decodeWord 0b01000100010010000000000000000000#32 = .ok (.width 1#4 2#4) := by decide
-- op 010010, xd 0001, xs 0010, zero 00000000, u 1
theorem test_decode_dcb : decodeWord 0b01001000010010000000001000000000#32 = .ok (.dcb 1#4 1#1 2#4) := by decide
theorem test_decode_fdn : decodeWord 0b01001111110011000000000000000000#32 = .ok (.fdn 15#4 3#4) := by decide

-- the illegal words of 95_test_vectors.md 2.1, each refused by name
theorem test_decode_skip_cond3 : decodeWord 0x0B000005#32 = .error .skipCond := by decide
theorem test_decode_apc_range : decodeWord 0x340033C0#32 = .error .apcRange := by decide
theorem test_decode_must_be_zero : decodeWord 0x38002000#32 = .error .mustBeZero := by decide
theorem test_decode_reserved : decodeWord 0xFFFFFFFF#32 = .error .reservedOpcode := by decide
theorem test_decode_short : decodeBytes [0#8, 0#8, 0#8] = .error .short := by decide
-- the bytes of 0x1448C000 from the lowest address up (20_memory.md R83)
theorem test_decode_bytes : decodeBytes [0x00#8, 0xC0#8, 0x48#8, 0x14#8] = .ok (.fadd 1#4 2#4 3#4, []) := by decide
theorem test_decode_table_word : decodeTableWord 32 0x34402840 = some (.apc 1#4 20#5 0#4 1#3) := by decide

/-! ## The assembler (30_encoding.md R118, R119) -/

theorem test_asm_apc : asmText (.apc 1#4 20#5 0#4 1#3) = some "APC X1, C20, X0, #2" := by decide
theorem test_asm_skip : asmText (.skip 2#2 1#8) = some "SKIP.NF #1" := by decide
theorem test_asm_ldk : (Pseudo.ldk 3#4 0x3F000000#32).expand = some (.ldkh 3#4 0x3F00#16) := by decide
theorem test_asm_ldk_outnorm_refused : (Pseudo.ldk 3#4 0x3EB504F3#32).expand = none := by decide
theorem test_asm_label_backwards_refused : skipDistance 5 5 = none ∧ skipDistance 5 261 = some 255#8 ∧
    skipDistance 5 262 = none := by decide

/-! ## One step of each instruction -/

/-- A prepared block with SRAM_LOG2 = 12, as 95_test_vectors.md starts from. -/
def base : State := { State.resetWith 12 with prepared := true }

/-- What register r holds after one step that executes word w. -/
def xAfter (s : State) (w : Nat) (r : XReg) : Option Word :=
  match step (s.withFetchWord 32 w) with
  | .next t => some (t.getX r)
  | _ => none

/-- A view of the state after one step that executes word w. -/
def after {α : Type} (s : State) (w : Nat) (f : State → α) : Option α :=
  match step (s.withFetchWord 32 w) with
  | .next t => some (f t)
  | _ => none

-- R144, R142
theorem test_nop : after base 0x00000000 (fun t => (t.pc, t.frames, t.done)) = some (1, 0#32, false) := by decide
theorem test_end : after base 0x04000000 (fun t => (t.pc, t.frames, t.done, t.busy)) = some (0, 1#32, true, false) := by
  decide
-- R143: SKIP.F #2 at pc 5
theorem test_skip_f_taken :
    after { base with freeze := true, seq := .running, pc := 5 } 0x09000002 (·.pc) = some 8 := by decide
theorem test_skip_f_not_taken :
    after { base with seq := .running, pc := 5 } 0x09000002 (·.pc) = some 6 := by decide
-- R145, R146
theorem test_mov_keeps_payload : xAfter (base.setX 2#4 0x7FC00001#32) 0x0D480000 5#4 = some 0x7FC00001#32 := by decide
theorem test_ldkh : xAfter base 0x1100BE80 4#4 = some 0xBE800000#32 := by decide
-- R160 to R162, 95 2.3
theorem test_fadd : xAfter ((base.setX 0#4 0x3F800000#32).setX 1#4 0x3F000000#32) 0x14804000 2#4 = some 0x3FC00000#32 := by
  decide
theorem test_fadd_tie_to_even :
    xAfter ((base.setX 0#4 0x4B800000#32).setX 1#4 0x3F800000#32) 0x14804000 2#4 = some 0x4B800000#32 := by decide
theorem test_fsub_below_power_of_two :
    xAfter ((base.setX 0#4 0x4B800000#32).setX 1#4 0x3F800000#32) 0x18804000 2#4 = some 0x4B7FFFFF#32 := by decide
theorem test_fmul_subnormal_kept :
    xAfter ((base.setX 0#4 0x00800000#32).setX 1#4 0x3F000000#32) 0x1C804000 2#4 = some 0x00400000#32 := by decide

/-- Channel 20 of 95_test_vectors.md 2.4.1: a ring of 8 words at 0x100, after DLWR of 1, 2, 4, 8, 16. -/
def ring : State :=
  [0x3F800000#32, 0x40000000#32, 0x40800000#32, 0x41000000#32, 0x41800000#32].foldl (fun s v => s.dlWrite 20#5 v)
    (base.setCh 20#5 { base.getCh 20#5 with dlBase := 0x100#32, dlLog2 := 3#5, dlCur := 0#32 })

-- R175: the example, cursor 7 wraps to 0, and 95 2.4.4: a cursor of 0x1D is masked first
theorem test_dlwr_wraps :
    after ((ring.setCh 20#5 { ring.getCh 20#5 with dlCur := 7#32 }).setX 1#4 0x7FC00001#32) 0x20042800
      (fun t => (t.sRead 0x107, (t.getCh 20#5).dlCur)) = some (0x7FC00001#32, 0#32) := by decide
theorem test_dlwr_masks_the_cursor :
    after ((ring.setCh 20#5 { ring.getCh 20#5 with dlCur := 0x1D#32 }).setX 1#4 0x3F800000#32) 0x20042800
      (fun t => (t.sRead 0x105, (t.getCh 20#5).dlCur)) = some (0x3F800000#32, 6#32) := by decide
-- R176: delay 2.5 and the clamp to DMAX
theorem test_dlrd_fraction : xAfter (ring.setX 2#4 0x40200000#32) 0x24482800 1#4 = some 0x40B40000#32 := by decide
theorem test_dlrd_clamped : xAfter (ring.setX 2#4 0x42C80000#32) 0x24482800 1#4 = some 0x3F800000#32 := by decide
-- R173 by hand, log entry 27, in units of p's last place: p = 2^24 - 1, 5p rounds down by 3 and 2p - 5p up by 2, so b = 5
-- and the read is p + 5/8, which rounds to 2^24
theorem test_constant_signal_follows_r173 :
    catmullRom 0x3FFFFFFF#32 0x3FFFFFFF#32 0x3FFFFFFF#32 0x3FFFFFFF#32 0x3F000000#32 = 0x40000000#32 := by decide
-- R177
set_option maxRecDepth 20000 in
theorem test_dlrdm :
    after (ring.setCh 20#5 { ring.getCh 20#5 with
      dlen := 0x40000000#32, lfoDepth := 0x3F000000#32, lfoPh := 0x40000000#32, lfoInc := 0x01000000#32 }) 0x28402800
      (fun t => (t.getX 1#4, (t.getCh 20#5).lfoPh)) = some (0x40B40000#32, 0x41000000#32) := by decide
-- R193, 95 2.5
theorem test_lfo_wraps :
    after (base.setCh 3#5 { base.getCh 3#5 with
      lfoPh := 0xFFFFFF00#32, lfoInc := 0x00000200#32, lfoDepth := 0x40400000#32 }) 0x2D400600
      (fun t => (t.getX 5#4, (t.getCh 3#5).lfoPh)) = some (0xB596C000#32, 0x00000100#32) := by decide
theorem test_lfo_sine : lfoSin 0x12345678#32 = 0x3EDD3A2F#32 := by decide

/-- Channel 20 of R201, its ring cleared. -/
def allpass : State :=
  (base.setCh 20#5 { base.getCh 20#5 with
    dlBase := 0x100#32, dlLog2 := 3#5, dlCur := 0#32, dlen := 0x40000000#32, apG := 0x3F000000#32 }).setX 0#4 0x3F800000#32

-- R201 and 95 2.6: the first frame of each impulse
theorem test_ap : after allpass 0x30402800 (fun t => (t.getX 1#4, t.sRead 0x100, (t.getCh 20#5).dlCur)) =
    some (0xBF000000#32, 0x3F800000#32, 1#32) := by decide
set_option maxRecDepth 20000 in
theorem test_apc :
    after (allpass.setCh 21#5 { allpass.getCh 21#5 with
      dlBase := 0x108#32, dlLog2 := 3#5, dlCur := 0#32, dlen := 0x40400000#32, apG := 0xBF000000#32 }) 0x34402840
      (fun t => (t.getX 1#4, (t.getCh 20#5).dlCur, (t.getCh 21#5).dlCur)) = some (0xBE800000#32, 1#32, 1#32) := by decide
-- R211: DMP[3], first frame
theorem test_damp :
    after ((base.setDmp 3#4 { glow := 0x3F666666#32, ghigh := 0x3F000000#32, xc := 0x3E800000#32, lp := 0#32 }).setX 0#4
      0x3F800000#32) 0x38400600 (fun t => (t.getX 1#4, (t.getDmp 3#4).lp)) = some (0x3F19999A#32, 0x3E800000#32) := by decide
-- R221: X5 = 1, and the opposite infinities
theorem test_had16 : after (base.setX 5#4 0x3F800000#32) 0x3C000000 (fun t => (t.getX 0#4, t.getX 1#4, t.getX 12#4)) =
    some (0x3E800000#32, 0xBE800000#32, 0xBE800000#32) := by decide
theorem test_had16_infinities :
    after ((base.setX 0#4 0x7F800000#32).setX 1#4 0xFF800000#32) 0x3C000000 (fun t => (t.getX 2#4, t.getX 3#4)) =
      some (0x7FC00000#32, 0x7F800000#32) := by decide
-- R231 and 95 2.9.1: the maximum, one ulp above 1
theorem test_sclip_one : xAfter (base.setX 1#4 0x3F800000#32) 0x40440000 1#4 = some 0x3F471C72#32 := by decide
theorem test_sclip_maximum : xAfter (base.setX 1#4 0x403EEDA9#32) 0x40440000 1#4 = some 0x3F800001#32 := by decide
-- R235 and 95 2.9.2
theorem test_width :
    after { (base.setX 0#4 0x3F400000#32).setX 1#4 0xBE800000#32 with width := 0x40000000#32 } 0x44040000
      (fun t => (t.getX 0#4, t.getX 1#4)) = some (0x3FA00000#32, 0xBF400000#32) := by decide
theorem test_width_signed_zero :
    after ((base.setX 0#4 0x80000000#32).setX 1#4 0x80000000#32) 0x44040000 (fun t => (t.getX 0#4, t.getX 1#4)) =
      some (0x00000000#32, 0x80000000#32) := by decide
-- R241 and 95 2.9.3
theorem test_dcb :
    after ((base.setDcb 1#1 { r := 0x3F7EB852#32, x1 := 0x3F800000#32, y1 := 0x3F800000#32 }).setX 1#4 0x3F800000#32)
      0x48440200 (fun t => (t.getX 1#4, (t.getDcb 1#1).y1)) = some (0x3F7EB852#32, 0x3F7EB852#32) := by decide
theorem test_dcb_nan :
    after (base.setX 1#4 0x7FC00001#32) 0x48440000
      (fun t => (t.getX 1#4, (t.getDcb 0#1).x1, (t.getDcb 0#1).y1)) =
      some (0x7FC00000#32, 0x7FC00001#32, 0x7FC00000#32) := by decide
-- 95 2.10.2, frame 0: silence out, line 0 gets 0.25, line 1 gets -0.25, BSIGN toggles; the right output wraps to X0
set_option maxRecDepth 20000 in
theorem test_fdn : after (base.setX 3#4 0x3F800000#32) 0x4FCC0000
    (fun t => (t.getX 15#4, t.getX 0#4, t.sRead 0, t.sRead 128, t.bsign)) =
      some (0#32, 0#32, 0x3E800000#32, 0xBE800000#32, true) := by decide
-- 95 2.10.3, frame 0: frozen, only the bias is written
set_option maxRecDepth 20000 in
theorem test_fdn_frozen : after { base.setX 2#4 0x3F800000#32 with freeze := true } 0x4D080000
    (fun t => (t.sRead 0, t.sRead 128)) = some (0x21800000#32, 0xA1800000#32) := by decide

/-! ## Frames and the host bus (95_test_vectors.md 2.2) -/

/-- The state after one step. -/
def next (s : State) : State :=
  match step s with
  | .next t => t
  | _ => s

/-- The state after the host's events, an idle block. -/
def host (s : State) (es : List HostEvent) : State := es.foldl (fun s e => next { s with inbox := [e] }) s

-- an illegal word aborts (60_exceptions.md R272)
theorem test_illegal_word_aborts : after { base with seq := .running, pc := 7 } 0x0B000005
    (fun t => (t.ill, t.illPc, t.illWord, t.frames, t.busy)) = some (true, 7#8, 0x0B000005#32, 1#32, false) := by decide
-- a fetch of an unwritten word is the model's fault (70_reset_and_hazards.md R302)
theorem test_fetch_unwritten : step { base with seq := .running } = .fault (.fetchUnwritten 0) := by rfl
theorem test_go_before_prepare : host State.reset [.write 0#32 32 4#32] = { State.reset with inbox := [] } := by decide
theorem test_id_and_params : (host State.reset [.read 0x18#32 32, .read 0x1C#32 32]).replies =
    [0x44555301#32, 0x01050814#32] := by decide
theorem test_refused_read :
    let t := host State.reset [.read 2#32 32, .read 0x8C#32 32]
    t.replies = [0#32, 0#32] ∧ t.buserr = true ∧ t.buserrAddr = 2#32 := by decide
theorem test_w1c_buserr :
    let t := host State.reset [.read 2#32 32, .write 4#32 32 0x10#32]
    t.buserr = false ∧ t.buserrAddr = 2#32 := by decide
theorem test_dl_log2_warl : (host (State.resetWith 12) [.write 0x404#32 32 31#32, .read 0x404#32 32,
    .write 0x404#32 32 0x25#32, .read 0x404#32 32, .write 0x404#32 32 0#32, .read 0x404#32 32]).replies =
    [12#32, 5#32, 3#32] := by decide
theorem test_sine_table_read : (host State.reset [.write 0x2400#32 32 0#32, .read 0x2400#32 32]).replies =
    [0x3F800000#32] ∧ (host State.reset [.write 0x2400#32 32 0#32]).buserr = false := by decide
theorem test_prepare_and_go : (host (State.resetWith 12) [.write 0x1000#32 32 0x04000000#32, .write 0#32 32 6#32, .pass,
    .pass, .read 4#32 32, .read 0xC#32 32]).replies = [6#32, 1#32] := by decide
theorem test_irq : (host { base with done := true } [.write 8#32 32 4#32]).irq = true ∧
    (host { base with done := true } [.write 8#32 32 8#32]).irq = false := by decide
theorem test_memory_write_keeps_form : Memory.wf true (Memory.writeWord true [] 0x400000 0x3F800000#32) = true := by decide

/-! ## Witnesses: for each obligation with hypotheses, states and operands that meet them, clause by clause -/

/-- A running frame whose next word is w. -/
def running (w : Nat) : State := base.withFetchWord 32 w

/-- A running frame at the last program word, which is w. -/
def runningLast (w : Nat) : State := { base with seq := .running, pc := 255 }.withFetchWord 32 w

/-- An idle block with these host events. -/
def idle (es : List HostEvent) : State := { base with inbox := es }

theorem mapped_of_target {k a : Nat} (h : a % 4 = 0 ∧ (mapAligned k a).isSome = true) : Mapped k a :=
  (mapAligned_isSome_iff k a).1 ⟨h.1, Option.isSome_iff_exists.1 h.2⟩

theorem refused_of_target {s : State} {a : Word} {bits : Nat} (h : s.busTarget a bits = none) : ¬ Accepted s a bits :=
  (State.busTarget_eq_none_iff s a bits).1 h

theorem other_read {a : Word} {bits : Nat} (h : ¬ (a = 4#32 ∧ bits = 32)) : OtherAccess (.read a bits) :=
  .inr ⟨a, bits, rfl, h⟩

theorem other_write (a v : Word) (bits : Nat) : OtherAccess (.write a bits v) := .inl ⟨a, bits, v, rfl⟩

theorem wit_DecodeOfEncode : (Instr.apc 15#4 24#5 0#4 7#3).wellFormed = true ∧ (Instr.skip 2#2 255#8).wellFormed = true := by
  decide
theorem wit_EncodeOfDecode : decodeWord 0x340031C0#32 = .ok (.apc 0#4 24#5 0#4 7#3) := by decide
theorem wit_illegal : ¬ LegalWord 0xFFFFFFFF#32 ∧ ¬ LegalWord 0x340033C0#32 ∧ ¬ LegalWord 0x0B000005#32 := by
  unfold LegalWord extraCondition; decide
theorem wit_LegalWordsAreTheInstructions :
    (0x340031C0#32 &&& 0xFC03C03F#32 = 0x34000000#32 ∧ (0x34000000#32, 0xFC03C03F#32) ∈ opcodeMap) ∧
    ((runningLast 0xFFFFFFFF).inbox = [] ∧ (runningLast 0xFFFFFFFF).seq = .running ∧ (runningLast 0xFFFFFFFF).pc < 256 ∧
      (runningLast 0xFFFFFFFF).pRead (runningLast 0xFFFFFFFF).pc = some 0xFFFFFFFF#32) := by decide
theorem wit_StepRunsDecodedInstruction :
    (runningLast 0x04000000).seq = .running ∧ (runningLast 0x04000000).pc = 255 ∧
    (runningLast 0x04000000).readByte 0x13FC = some 0#8 ∧ (runningLast 0x04000000).readByte 0x13FD = some 0#8 ∧
    (runningLast 0x04000000).readByte 0x13FE = some 0#8 ∧ (runningLast 0x04000000).readByte 0x13FF = some 4#8 ∧
    decodeBytes [0#8, 0#8, 0#8, 4#8] = .ok (.endFrame, []) ∧ (runningLast 0x04000000).inbox = [] ∧
    { running 0x04000000 with inbox := [.pass] }.inbox = [.pass] := by decide
theorem wit_StepRunsDecodedInstruction_waiting : OtherAccess (.read 0x40#32 32) ∧ OtherAccess (.read 4#32 16) ∧
    OtherAccess (.write 4#32 32 0#32) := ⟨other_read (by decide), other_read (by decide), other_write _ _ _⟩
theorem wit_IllegalWordAbortsTheFrame :
    ((running 0xFFFFFFFF).inbox = [] ∧ (running 0xFFFFFFFF).seq = .running ∧
      (running 0xFFFFFFFF).pRead (running 0xFFFFFFFF).pc = some 0xFFFFFFFF#32) ∧
    ((idle [.write 0#32 32 4#32]).seq = .idle ∧ (idle [.write 0#32 32 4#32]).prepared = true ∧
      (4#32).getLsbD 1 = false ∧ (4#32).getLsbD 2 = true) ∧
    (after { base with ill := true } 0 (·.ill) = some true) ∧
    ((next { base with ill := true, inbox := [.write 4#32 32 8#32] }).ill = false ∧
      (next { base with ill := true, inbox := [.reset] }).ill = false) := by decide
theorem wit_FetchAtTheEdges :
    ({ base with seq := .running, pc := 256 }.inbox = [] ∧ { base with seq := .running, pc := 511 }.inbox = []) ∧
    ({ base with seq := .running, pc := 255 }.pRead 255 = none) := by decide

/-- A program RAM the host has filled with zeros: 256 NOPs (30_encoding.md R117). -/
def nops : State := { base with seq := .running, mem := (List.range 1024).map fun k => (0x1000 + k, 0#8) }

theorem read_of_mem (p : Bool) (m : Memory) (a : Nat) (h : a ∈ m.map Prod.fst) : ∃ v, Memory.read p m a = some v := by
  induction m with
  | nil => cases h
  | cons c m ih =>
    unfold Memory.read
    split
    · exact ⟨_, rfl⟩
    · next hne =>
      rcases List.mem_cons.1 h with h | h
      · exact absurd h hne
      · exact ih h

theorem wit_EveryFrameEnds : nops.seq = .running ∧ nops.inbox = [] ∧ ∀ i, i < 256 → ∃ w, nops.pRead i = some w := by
  refine ⟨rfl, rfl, fun i hi => ?_⟩
  have key : ∀ k, k < 4 → ∃ v, Memory.read true nops.mem (0x1000 + 4 * i + k) = some v := by
    intro k hk
    apply read_of_mem
    simp only [nops, List.map_map, List.mem_map, List.mem_range, Function.comp]
    exact ⟨4 * i + k, by omega, by omega⟩
  obtain ⟨b0, h0⟩ := key 0 (by decide)
  obtain ⟨b1, h1⟩ := key 1 (by decide)
  obtain ⟨b2, h2⟩ := key 2 (by decide)
  obtain ⟨b3, h3⟩ := key 3 (by decide)
  refine ⟨wordOfBytes b0 b1 b2 b3, ?_⟩
  show Memory.readWord true nops.mem (0x1000 + 4 * i) = _
  rw [Nat.add_zero] at h0
  rw [Memory.readWord, h0, h1, h2, h3]

theorem wit_OnlyStatusReadsProceedWhileBusy :
    (({ running 0 with inbox := [.read 4#32 32] } : State).seq ≠ .idle) ∧
    (({ running 0 with inbox := [.write 0#32 32 4#32] } : State).seq ≠ .idle) ∧ (idle [.read 0#32 32]).seq = .idle := by
  decide
theorem wit_RefusedAccess : ¬ Accepted base 0x8C#32 32 ∧ ¬ Accepted base 2#32 32 ∧ ¬ Accepted base 0#32 16 ∧
    ¬ Accepted base 0xA0#32 32 ∧ ¬ Accepted base 0x3000#32 32 ∧ ¬ Accepted base 0x404000#32 32 :=
  ⟨refused_of_target (by decide), refused_of_target (by decide), refused_of_target (by decide),
    refused_of_target (by decide), refused_of_target (by decide), refused_of_target (by decide)⟩
theorem wit_RefusedAccess_waiting :
    ({ running 0 with inbox := [.write 0x8C#32 32 0#32] } : State).seq ≠ .idle ∧
    (next { running 0 with inbox := [.write 0x8C#32 32 0#32] }).pc = 1 := by decide
theorem wit_MappedAccessIsNeverRefused : Mapped base.sramLog2 0x3C ∧ Mapped base.sramLog2 0x2FFC ∧
    Mapped base.sramLog2 0x7E8 ∧ Mapped base.sramLog2 0x38 ∧ Mapped base.sramLog2 0x403FFC ∧
    (0xFFFFFFFE#32 &&& 1#32 = 0#32 &&& 1#32) ∧ 0x408 + 0x20 * 31 = 0x7E8 :=
  ⟨mapped_of_target (by decide), mapped_of_target (by decide), mapped_of_target (by decide),
    mapped_of_target (by decide), mapped_of_target (by decide), by decide, rfl⟩
theorem wit_HostReadsReturnTheMap : BusValue base 0x403FFC 0#32 ∧ BusValue base 0x2FFC (sineT 1023) ∧
    BusValue (running 7) 0x1000 7#32 ∧ BusValue base 0x7FC 0#32 ∧ BusValue base 0x98 0#32 := by
  refine ⟨?_, ?_, ?_, ?_, ?_⟩
  · iterate 22 right
    exact ⟨4095, by decide, by decide, by decide⟩
  · iterate 21 right
    exact .inl ⟨1023, by decide, by decide, rfl⟩
  · iterate 20 right
    exact .inl ⟨0, by decide, by decide, by decide⟩
  · iterate 19 right
    exact .inl ⟨31#5, by decide⟩
  · iterate 17 right
    exact .inl ⟨1#1, by decide⟩
theorem wit_HostWritesStore : Mapped base.sramLog2 0x13FC ∧ Mapped base.sramLog2 0x403FFC ∧ Mapped base.sramLog2 0x8 ∧
    (idle [.write 0x13FC#32 32 1#32]).seq = .idle :=
  ⟨mapped_of_target (by decide), mapped_of_target (by decide), mapped_of_target (by decide), rfl⟩
theorem wit_CtrlWriteStartsSequences : (idle [.write 0#32 32 6#32]).seq = .idle ∧ { base with prepared := false }.seq = .idle ∧
    ({ base with seq := .preparing true } : State).inbox = [] := by decide
theorem wit_StatusBitsAreSticky : (idle [.write 4#32 32 0x1C#32]).seq = .idle ∧
    (next { base with done := true, ill := true, buserr := true, inbox := [.write 4#32 32 0x14#32] }).done = false ∧
    (next { base with done := true, ill := true, buserr := true, inbox := [.write 4#32 32 0x14#32] }).ill = true := by decide
theorem wit_NoReset : NoReset (running 0) ∧ NoReset (idle [.write 4#32 32 0x14#32]) :=
  ⟨fun rest h => (by cases h), fun rest h => (by cases h)⟩
theorem wit_InterruptEnable : (idle [.write 8#32 32 0xFFFFFFFF#32, .read 8#32 32]).seq = .idle ∧
    (idle [.reset]).inbox = [.reset] := by decide
theorem wit_IdentificationRegisters : (idle [.read 0x1C#32 32]).seq = .idle ∧ base.sramLog2 < 32 := by decide
theorem wit_RingSizeIsLegalised : 10 ≤ base.sramLog2 ∧ base.sramLog2 ≤ 24 ∧
    (idle [.write 0x7E4#32 32 31#32, .read 0x7E4#32 32]).seq = .idle ∧
    BitVec.ofNat 32 (0x404 + 0x20 * (31#5).toNat) = 0x7E4#32 ∧ (State.resetWith 24).sramLog2 = 24 ∧
    ((0 : Int) ≤ 127 ∧ (127 : Int) < (base.getCh 0#5).size ∧ (base.getCh 0#5).dlCur = 0#32) := by decide
theorem wit_PrepareClearsTheAudioState : (idle [.write 0#32 32 2#32]).seq = .idle ∧ (2#32).getLsbD 1 = true ∧
    ({ base with seq := .preparing false } : State).inbox = [] := by decide
theorem wit_ResetValues : 10 ≤ (State.resetWith 10).sramLog2 ∧ (State.resetWith 24).sramLog2 ≤ 24 ∧
    ({ running 0 with inbox := [.reset] } : State).inbox = [.reset] ∧ 10 ≤ (running 0).sramLog2 ∧ (running 0).sramLog2 ≤ 24 := by
  decide
theorem wit_ResetRings : ((State.resetWith 10).getCh 31#5).InRing 10 1023 := ⟨31, by decide, by decide⟩
theorem wit_FramesCountsFrameEnds : after base 0x04000000 (·.frames) = some 1#32 ∧ after base 0 (·.frames) = some 0#32 ∧
    (idle [.read 0xC#32 32]).seq = .idle := by decide
theorem wit_FirstIllegalInstructionIsKept :
    after base 0xFFFFFFFF (fun t => (t.ill, t.illPc)) = some (true, 0#8) ∧
    after { base with ill := true, illPc := 9#8 } 0xFFFFFFFF (·.illPc) = some 9#8 ∧
    (idle [.read 0x10#32 32, .read 0x14#32 32]).seq = .idle := by decide
theorem wit_FirstRefusedAddressIsKept : (next (idle [.read 0x8C#32 32])).buserrAddr = 0x8C#32 ∧
    (next { base with buserr := true, inbox := [.read 0x8C#32 32] }).buserrAddr = 0#32 ∧
    (idle [.read 0x3C#32 32]).seq = .idle := by decide
theorem wit_FloorAndFraction : f32IsFinite 0x40000000#32 = true ∧ f32Value 0x40000000#32 = 2 ∧
    f32IsFinite 0x4B7FFFFF#32 = true ∧ f32Value 0x4B7FFFFF#32 = 2 ^ 24 - 1 := by
  refine ⟨by decide, ?_, by decide, ?_⟩ <;> norm_num [f32Value, f32Unpack, f32Exp, f32Frac, f32Sign, FVal.toRat]
theorem wit_ComparisonIsOrdered : f32IsNaN 0x7F800001#32 = true ∧ f32IsFinite 0x7F7FFFFF#32 = true ∧
    f32IsFinite 0x80000000#32 = true := by decide
theorem wit_ArithmeticLaws : f32IsFinite 0x00800000#32 = true ∧ f32Value 0x3F800000#32 * f32Value 0x3E800000#32 = 1 / 4 ∧
    f32IsNaN 0xFF800000#32 = false := by
  refine ⟨by decide, ?_, by decide⟩
  norm_num [f32Value, f32Unpack, f32Exp, f32Frac, f32Sign, FVal.toRat]
theorem wit_arithmetic : f32IsFinite 0x3F800000#32 = true ∧ f32Value 0x3F800000#32 = 1 ∧ f32Value 0xBF800000#32 = -1 ∧
    f32Value 0#32 = 0 ∧ f32Mag 0x80000000#32 = 0 ∧ f32Mag 0xFF800000#32 = 0x7F800000 ∧ f32IsNaN 0x7FC00001#32 = true := by
  refine ⟨by decide, ?_, ?_, ?_, by decide, by decide, by decide⟩ <;>
    norm_num [f32Value, f32Unpack, f32Exp, f32Frac, f32Sign, FVal.toRat]
theorem wit_NopAndEnd : (1#32).extractLsb' 26 6 = 0#6 ∧ (1#32) ≠ 0#32 := by decide
theorem wit_SkipJumpsForward : (2#2) ≠ 3#2 ∧ (running 0x080000FF).seq = .running ∧ (running 0x080000FF).inbox = [] ∧
    after base 0x080000FF (·.pc) = some 256 := by decide
theorem wit_DelayLineRemembers : ((ring.getCh 20#5).Legal ring.sramLog2) ∧
    (List.replicate 8 0x3F800000#32).length ≤ (ring.getCh 20#5).size := by
  unfold Channel.Legal; decide
theorem wit_DelayIsClamped : 3 ≤ (ring.getCh 20#5).dlLog2.toNat ∧ (ring.getCh 20#5).dlLog2.toNat ≤ 24 ∧
    f32IsFinite 0x42C80000#32 = true ∧ f32IsNaN 0x7F800001#32 = true ∧
    (ring.getCh 20#5).clampDelay 0x40A00000#32 = 0x40A00000#32 := by decide
theorem wit_DlrdReadsTheCubic : 3 ≤ (ring.getCh 20#5).dlLog2.toNat ∧ (ring.getCh 20#5).dlLog2.toNat ≤ 24 ∧
    fsub ((ring.getCh 20#5).clampDelay 0x40200000#32) (i2f (f32Floor ((ring.getCh 20#5).clampDelay 0x40200000#32))) =
      0x3F000000#32 := by decide
theorem wit_SineIsExactAtTableSteps : (0x40000000#32).extractLsb' 0 22 = 0#22 ∧ (0xFFC00000#32).extractLsb' 0 22 = 0#22 := by
  decide
theorem wit_ApcIsACascadeOfAp : (6 : Nat) < 7 ∧ (24#5).toNat + 6 + 1 ≤ 31 := by decide
theorem wit_ApcFrame : (24#5).toNat + (7#3).toNat ≤ 31 ∧ (31#5).toNat + (0#3).toNat ≤ 31 := by decide
theorem wit_Had16TransformsAllRegisters : f32IsNaN ((base.setX 15#4 0x7FC00001#32).getX 15#4) = true ∧
    xAfter (base.setX 15#4 0x7FC00001#32) 0x3C000000 8#4 = some 0x7FC00000#32 := by decide
theorem wit_HadamardIsSylvester : (∀ j : XReg, f32IsFinite (base.getX j) = true ∧ f32Value (base.getX j) = (0 : Int)) ∧
    (∀ j, j < 16 → |(fun _ : Nat => (0 : Int)) j| ≤ 2 ^ 20) := by
  refine ⟨fun j => ?_, by decide⟩
  have : base.getX j = 0#32 := by revert j; decide
  rw [this]
  refine ⟨by decide, ?_⟩
  norm_num [f32Value, f32Unpack, f32Exp, f32Frac, f32Sign, FVal.toRat]
theorem wit_SclipClipsSoftly : flt 0x40400000#32 0x40400000#32 = false ∧ flt 0xC0400000#32 0xC0400000#32 = false ∧
    f32IsNaN 0x7F800000#32 = false ∧ flt 0x7F800000#32 0x40400000#32 = false := by decide
theorem wit_WidthScalesTheSide : { base with width := 0#32 }.width = 0#32 ∧
    after { (base.setX 0#4 0x3F800000#32) with width := 0#32 } 0x44040000 (fun t => (t.getX 0#4, t.getX 1#4)) =
      some (0x3F000000#32, 0x3F000000#32) := by decide
theorem wit_FdnNoninterference : { base with freeze := true }.freeze = true := by decide
theorem wit_FdnWriteBack : ∀ w : DampIx, (0#4).toNat < w.toNat →
    base.sramAddr (base.ringWord (BitVec.ofNat 5 w.toNat)) ≠ base.sramAddr (base.ringWord 0#5) := by decide
theorem wit_Inv : (State.resetWith 10).Inv where
  size := by decide
  pcRange := by decide
  ready := by decide
  channels := by unfold Channel.Legal; decide
  canonical := by decide
  inRam := by decide
theorem wit_StepKeepsInvariant : step (State.resetWith 10) = .next (State.resetWith 10) := by rfl
theorem wit_ParametersHoldForTheFrame : (running 0).seq = .running ∧ (running 0).inbox = [] ∧
    after base 0 (·.width) = some 0x3F800000#32 := by decide
theorem wit_OnlyTheHostWritesTheProgram :
    (next (idle [.write 0x13FC#32 32 1#32])).readByte 0x13FC ≠ (idle [.write 0x13FC#32 32 1#32]).readByte 0x13FC ∧
    (next { running 7 with inbox := [.reset] }).readByte 0x1000 ≠ (running 7).readByte 0x1000 := by decide
theorem wit_LegalInstructionsAlwaysComplete : (Instr.fdn 15#4 15#4).wellFormed = true ∧ Instr.fdn 15#4 15#4 ≠ .endFrame := by
  decide

end Sys2Proof.Tests
end

section
/-! SUPPORT. What a pattern unpacks to, the value of a finite pattern, and the comparison (00_scope.md R10, R11). -/

namespace Sys2Proof.Machine

/-! ## What a pattern unpacks to -/

theorem f32Unpack_of_nan {a : Word} (h : f32IsNaN a = true) : f32Unpack a = .nan := by
  have hmag := f32Mag_lt a
  have hnan : 0x7F800000 < f32Mag a := by simpa [f32IsNaN] using h
  unfold f32Unpack
  rw [f32Exp_eq, f32Frac_eq, if_pos (by omega), if_neg (by omega)]

theorem f32Unpack_of_inf {a : Word} (h : f32Mag a = 0x7F800000) : f32Unpack a = .inf (f32Sign a) := by
  unfold f32Unpack
  rw [f32Exp_eq, f32Frac_eq, h, if_pos (by decide), if_pos (by decide)]

/-- A finite pattern is a 24-bit significand with an exponent no smaller than the subnormals'. -/
theorem f32Unpack_of_finite {a : Word} (h : f32IsFinite a = true) :
    ∃ (m : Nat) (e : Int), f32Unpack a = .fin (f32Sign a) m e ∧ m < 2 ^ 24 ∧ -149 ≤ e ∧ (m = 0 ↔ f32Mag a = 0) := by
  have hfin : f32Mag a < 0x7F800000 := by simpa [f32IsFinite] using h
  unfold f32Unpack
  rw [f32Exp_eq, f32Frac_eq, if_neg (by omega)]
  split
  · exact ⟨_, _, rfl, by omega, by omega, by omega⟩
  · exact ⟨_, _, rfl, by omega, by omega, by omega⟩

/-- Every pattern is a NaN, an infinity or finite. -/
theorem f32_nan_or_inf_or_finite (a : Word) :
    f32IsNaN a = true ∨ f32Mag a = 0x7F800000 ∨ f32IsFinite a = true := by
  unfold f32IsNaN f32IsFinite
  simp only [decide_eq_true_eq]
  omega

theorem not_nan_of_mag_le {a : Word} (h : f32Mag a ≤ 0x7F800000) : f32IsNaN a = false := by
  simpa [f32IsNaN] using h

theorem not_nan_of_finite {a : Word} (h : f32IsFinite a = true) : f32IsNaN a = false :=
  not_nan_of_mag_le (by simp only [f32IsFinite, decide_eq_true_eq] at h; omega)

theorem f32Unpack_eq_nan_iff (a : Word) : f32Unpack a = .nan ↔ f32IsNaN a = true := by
  refine ⟨fun h => ?_, f32Unpack_of_nan⟩
  rcases f32_nan_or_inf_or_finite a with hn | hi | hf
  · exact hn
  · rw [f32Unpack_of_inf hi] at h; cases h
  · obtain ⟨m, e, hu, -⟩ := f32Unpack_of_finite hf
    rw [hu] at h; cases h

theorem f32Unpack_eq_inf_iff (a : Word) (s : Bool) :
    f32Unpack a = .inf s ↔ f32Mag a = 0x7F800000 ∧ f32Sign a = s := by
  refine ⟨fun h => ?_, fun ⟨hi, hs⟩ => hs ▸ f32Unpack_of_inf hi⟩
  rcases f32_nan_or_inf_or_finite a with hn | hi | hf
  · rw [f32Unpack_of_nan hn] at h; cases h
  · rw [f32Unpack_of_inf hi] at h; cases h; exact ⟨hi, rfl⟩
  · obtain ⟨m, e, hu, -⟩ := f32Unpack_of_finite hf
    rw [hu] at h; cases h

/-- The zeros are the two patterns of magnitude 0. -/
theorem f32Unpack_eq_zero_iff (a : Word) : (∃ s e, f32Unpack a = .fin s 0 e) ↔ f32Mag a = 0 := by
  rcases f32_nan_or_inf_or_finite a with hn | hi | hf
  · have : f32Mag a ≠ 0 := by intro h; simp [f32IsNaN, h] at hn
    simp [f32Unpack_of_nan hn, this]
  · simp [f32Unpack_of_inf hi, hi]
  · obtain ⟨m, e, hu, -, -, hm⟩ := f32Unpack_of_finite hf
    simp [hu, hm]

/-! ## The value of a finite pattern -/

theorem f32Value_of_unpack {a : Word} {x : FVal} (h : f32Unpack a = x) : f32Value a = x.toRat := by
  rw [f32Value, h]

theorem FVal.toRat_fin (s : Bool) (m : Nat) (e : Int) :
    (FVal.fin s m e).toRat = (if s then -1 else 1) * ((m : ℚ) * 2 ^ e) := mul_assoc _ _ _

theorem FVal.toRat_neg (x : FVal) : x.neg.toRat = -x.toRat := by
  cases x with
  | nan => simp [FVal.neg, FVal.toRat]
  | inf s => simp [FVal.neg, FVal.toRat]
  | fin s m e => cases s <;> simp [FVal.neg, FVal.toRat]

theorem FVal.toRat_fin_eq_zero_iff (s : Bool) (m : Nat) (e : Int) : (FVal.fin s m e).toRat = 0 ↔ m = 0 := by
  cases s <;> simp [FVal.toRat, (two_zpow_pos e).ne']

/-- The numbers the finite patterns stand for, counted from 0 in both directions: the odd continuation of `magValue`. -/
def keyValue (k : Int) : ℚ := k.sign * magValue k.natAbs

theorem keyValue_natCast (n : Nat) : keyValue n = magValue n := by
  rcases Nat.eq_zero_or_pos n with rfl | hn
  · simp [keyValue, magValue_zero]
  · simp [keyValue, Int.sign_eq_one_of_pos (Int.natCast_pos.2 hn)]

theorem keyValue_neg (k : Int) : keyValue (-k) = -keyValue k := by simp [keyValue]

theorem keyValue_strictMono : StrictMono keyValue := by
  refine strictMono_of_odd_strictMonoOn_nonneg keyValue_neg fun x hx y hy hxy => ?_
  obtain ⟨m, rfl⟩ := Int.eq_ofNat_of_zero_le hx
  obtain ⟨n, rfl⟩ := Int.eq_ofNat_of_zero_le hy
  rw [keyValue_natCast, keyValue_natCast]
  exact magValue_strictMono (by exact_mod_cast hxy)

theorem f32Value_eq_keyValue {a : Word} (h : f32IsFinite a = true) : f32Value a = keyValue (f32Key a) := by
  rw [f32Value_eq a h, f32Key]
  split
  · rw [keyValue_neg, keyValue_natCast, neg_one_mul]
  · rw [keyValue_natCast, one_mul]

theorem f32Value_abs_lt {a : Word} (h : f32IsFinite a = true) : |f32Value a| < 2 ^ 128 - 2 ^ 103 := by
  have hmag : f32Mag a ≤ 0x7F7FFFFF := by simp only [f32IsFinite, decide_eq_true_eq] at h; omega
  have habs : |f32Value a| = magValue (f32Mag a) := by
    rw [f32Value_eq a h]
    split <;> simp [abs_of_nonneg (magValue_nonneg _)]
  calc |f32Value a| ≤ magValue 0x7F7FFFFF := habs ▸ magValue_strictMono.monotone hmag
    _ = 2 ^ 128 - 2 ^ 104 := magValue_max
    _ < 2 ^ 128 - 2 ^ 103 := by norm_num

/-! ## The comparison (00_scope.md R11) -/

theorem flt_eq_true_iff (a b : Word) :
    flt a b = true ↔ f32IsNaN a = false ∧ f32IsNaN b = false ∧ f32Key a < f32Key b := by
  simp [flt, and_assoc]

theorem flt_of_nan {a b : Word} (h : f32IsNaN a = true ∨ f32IsNaN b = true) : flt a b = false := by
  rcases h with h | h <;> simp [flt, h]

theorem flt_irrefl (a : Word) : flt a a = false := by simp [flt]

theorem flt_iff_value_lt {a b : Word} (ha : f32IsFinite a = true) (hb : f32IsFinite b = true) :
    flt a b = true ↔ f32Value a < f32Value b := by
  rw [flt_eq_true_iff, f32Value_eq_keyValue ha, f32Value_eq_keyValue hb, keyValue_strictMono.lt_iff_lt]
  simp [not_nan_of_finite ha, not_nan_of_finite hb]

/-- The key of a finite pattern lies strictly between those of the infinities. -/
theorem f32Key_bounds {a : Word} (h : f32IsFinite a = true) : -0x7F800000 < f32Key a ∧ f32Key a < 0x7F800000 := by
  simp only [f32IsFinite, decide_eq_true_eq] at h
  unfold f32Key
  split <;> omega

theorem flt_infinities {a : Word} (h : f32IsFinite a = true) :
    flt a 0x7F800000#32 = true ∧ flt 0x7F800000#32 a = false ∧ flt 0xFF800000#32 a = true ∧
      flt a 0xFF800000#32 = false := by
  obtain ⟨hlo, hhi⟩ := f32Key_bounds h
  have hpos : f32Key 0x7F800000#32 = 0x7F800000 := by decide
  have hneg : f32Key 0xFF800000#32 = -0x7F800000 := by decide
  have hnan := not_nan_of_finite h
  refine ⟨?_, ?_, ?_, ?_⟩
  · exact (flt_eq_true_iff _ _).2 ⟨hnan, by decide, by omega⟩
  · rw [← Bool.not_eq_true, flt_eq_true_iff]; omega
  · exact (flt_eq_true_iff _ _).2 ⟨by decide, hnan, by omega⟩
  · rw [← Bool.not_eq_true, flt_eq_true_iff]; omega

/-- Settles O27: the keys order the values, the NaNs compare false, and the infinities' keys bound the finite ones. -/
theorem comparisonIsOrdered : Obligations.ComparisonIsOrdered := by
  intro a b
  exact ⟨flt_of_nan, flt_iff_value_lt, flt_infinities, by decide, flt_irrefl a⟩

end Sys2Proof.Machine
end

section
/-! SUPPORT. NaN results (00_scope.md R12): each operation answers the canonical NaN or no NaN, and which of the two is
decided by the values its operands unpack to. -/

namespace Sys2Proof.Machine

/-! ## Results that are no NaN -/

theorem f32IsNaN_f32OfMag (neg : Bool) {p : Nat} (hp : p ≤ 0x7F800000) : f32IsNaN (f32OfMag neg p) = false :=
  not_nan_of_mag_le (by rwa [f32Mag_f32OfMag neg p (by omega)])

theorem f32IsNaN_f32Inf (neg : Bool) : f32IsNaN (f32Inf neg) = false := f32IsNaN_f32OfMag neg le_rfl

theorem f32IsNaN_f32Round (neg : Bool) (m : Nat) (e : Int) : f32IsNaN (f32Round neg m e) = false := by
  unfold f32Round
  split
  · exact f32IsNaN_f32OfMag neg (Nat.zero_le _)
  · exact f32IsNaN_f32OfMag neg (min_le_right _ _)

theorem f32IsNaN_addFin (s : Bool) (m : Nat) (e : Int) (t : Bool) (n : Nat) (f : Int) :
    f32IsNaN (addFin s m e t n f) = false := by
  unfold addFin
  simp only
  split
  · exact f32IsNaN_f32OfMag _ (Nat.zero_le _)
  · exact f32IsNaN_f32Round _ _ _

/-! ## The operations on values -/

/-- `r` is the canonical NaN when `invalid` holds, and no NaN otherwise. -/
def NaNExactly (r : Word) (invalid : Prop) : Prop :=
  (invalid ∧ r = canonicalNaN) ∨ (¬ invalid ∧ f32IsNaN r = false)

theorem NaNExactly.canonical {r : Word} {P : Prop} (h : NaNExactly r P) (hn : f32IsNaN r = true) : r = 0x7FC00000#32 := by
  rcases h with ⟨-, h⟩ | ⟨-, h⟩
  · exact h
  · rw [h] at hn; cases hn

theorem NaNExactly.isNaN_iff {r : Word} {P : Prop} (h : NaNExactly r P) : f32IsNaN r = true ↔ P := by
  rcases h with ⟨hP, h⟩ | ⟨hP, h⟩
  · subst h; exact iff_of_true (by decide) hP
  · rw [h]; exact iff_of_false (by decide) hP

/-- An infinity of either sign. -/
def FVal.IsInf (x : FVal) : Prop := ∃ s, x = .inf s

/-- A zero of either sign. -/
def FVal.IsZero (x : FVal) : Prop := ∃ s e, x = .fin s 0 e

theorem addVal_nanExactly (x y : FVal) :
    NaNExactly (addVal x y) (x = .nan ∨ y = .nan ∨ ∃ s, x = .inf s ∧ y = .inf (!s)) := by
  cases x with
  | nan => exact .inl ⟨.inl rfl, rfl⟩
  | inf s =>
    cases y with
    | nan => exact .inl ⟨.inr (.inl rfl), rfl⟩
    | inf t =>
      by_cases h : s = t
      · exact .inr ⟨by simp [h], by simp only [addVal, if_pos h, f32IsNaN_f32Inf]⟩
      · exact .inl ⟨by simpa using Bool.eq_not_of_ne (Ne.symm h), by simp only [addVal, if_neg h]⟩
    | fin t n f => exact .inr ⟨by simp, f32IsNaN_f32Inf s⟩
  | fin s m e =>
    cases y with
    | nan => exact .inl ⟨.inr (.inl rfl), rfl⟩
    | inf t => exact .inr ⟨by simp, f32IsNaN_f32Inf t⟩
    | fin t n f => exact .inr ⟨by simp, f32IsNaN_addFin s m e t n f⟩

theorem mulVal_nanExactly (x y : FVal) :
    NaNExactly (mulVal x y) (x = .nan ∨ y = .nan ∨ (x.IsInf ∧ y.IsZero) ∨ (x.IsZero ∧ y.IsInf)) := by
  unfold FVal.IsInf FVal.IsZero
  cases x with
  | nan => exact .inl ⟨.inl rfl, rfl⟩
  | inf s =>
    cases y with
    | nan => exact .inl ⟨.inr (.inl rfl), rfl⟩
    | inf t => exact .inr ⟨by simp, f32IsNaN_f32Inf (s != t)⟩
    | fin t n f =>
      by_cases h : n = 0
      · exact .inl ⟨by simp [h], by simp only [mulVal, if_pos h]⟩
      · exact .inr ⟨by simp [h], by simp only [mulVal, if_neg h, f32IsNaN_f32Inf]⟩
  | fin s m e =>
    cases y with
    | nan => exact .inl ⟨.inr (.inl rfl), rfl⟩
    | inf t =>
      by_cases h : m = 0
      · exact .inl ⟨by simp [h], by simp only [mulVal, if_pos h]⟩
      · exact .inr ⟨by simp [h], by simp only [mulVal, if_neg h, f32IsNaN_f32Inf]⟩
    | fin t n f => exact .inr ⟨by simp, f32IsNaN_f32Round _ _ _⟩

theorem divFin_nanExactly (s : Bool) (m : Nat) (e : Int) (t : Bool) (n : Nat) (f : Int) :
    NaNExactly (divFin s m e t n f) (m = 0 ∧ n = 0) := by
  unfold divFin
  by_cases hn : n = 0
  · by_cases hm : m = 0
    · exact .inl ⟨⟨hm, hn⟩, by rw [if_pos hn, if_pos hm]⟩
    · exact .inr ⟨fun h => hm h.1, by rw [if_pos hn, if_neg hm, f32IsNaN_f32Inf]⟩
  · exact .inr ⟨fun h => hn h.2, by rw [if_neg hn]; exact f32IsNaN_f32Round _ _ _⟩

theorem divVal_nanExactly (x y : FVal) :
    NaNExactly (divVal x y) (x = .nan ∨ y = .nan ∨ (x.IsZero ∧ y.IsZero) ∨ (x.IsInf ∧ y.IsInf)) := by
  unfold FVal.IsInf FVal.IsZero
  cases x with
  | nan => exact .inl ⟨.inl rfl, rfl⟩
  | inf s =>
    cases y with
    | nan => exact .inl ⟨.inr (.inl rfl), rfl⟩
    | inf t => exact .inl ⟨by simp, rfl⟩
    | fin t n f => exact .inr ⟨by simp, f32IsNaN_f32Inf (s != t)⟩
  | fin s m e =>
    cases y with
    | nan => exact .inl ⟨.inr (.inl rfl), rfl⟩
    | inf t => exact .inr ⟨by simp, f32IsNaN_f32OfMag (s != t) (Nat.zero_le _)⟩
    | fin t n f => simpa [divVal] using divFin_nanExactly s m e t n f

/-! ## The operations on patterns -/

theorem f32Unpack_isInf_iff (a : Word) : (f32Unpack a).IsInf ↔ f32Mag a = 0x7F800000 := by
  simp [FVal.IsInf, f32Unpack_eq_inf_iff]

theorem f32Unpack_isZero_iff (a : Word) : (f32Unpack a).IsZero ↔ f32Mag a = 0 := f32Unpack_eq_zero_iff a

theorem FVal.neg_eq_nan_iff (x : FVal) : x.neg = .nan ↔ x = .nan := by cases x <;> simp [FVal.neg]

theorem FVal.neg_eq_inf_not_iff (x : FVal) (s : Bool) : x.neg = .inf (!s) ↔ x = .inf s := by
  cases x <;> simp [FVal.neg]

theorem fadd_nanExactly (a b : Word) :
    NaNExactly (fadd a b) (f32IsNaN a = true ∨ f32IsNaN b = true ∨
      (f32Mag a = 0x7F800000 ∧ f32Mag b = 0x7F800000 ∧ f32Sign a ≠ f32Sign b)) := by
  have h := addVal_nanExactly (f32Unpack a) (f32Unpack b)
  simp only [f32Unpack_eq_nan_iff, f32Unpack_eq_inf_iff] at h
  have hinf : (∃ s, (f32Mag a = 0x7F800000 ∧ f32Sign a = s) ∧ f32Mag b = 0x7F800000 ∧ f32Sign b = !s) ↔
      (f32Mag a = 0x7F800000 ∧ f32Mag b = 0x7F800000 ∧ f32Sign a ≠ f32Sign b) := by
    cases f32Sign a <;> cases f32Sign b <;> simp
  rwa [hinf] at h

theorem fsub_nanExactly (a b : Word) :
    NaNExactly (fsub a b) (f32IsNaN a = true ∨ f32IsNaN b = true ∨
      (f32Mag a = 0x7F800000 ∧ f32Mag b = 0x7F800000 ∧ f32Sign a = f32Sign b)) := by
  have h := addVal_nanExactly (f32Unpack a) (f32Unpack b).neg
  simp only [FVal.neg_eq_nan_iff, FVal.neg_eq_inf_not_iff, f32Unpack_eq_nan_iff, f32Unpack_eq_inf_iff] at h
  have hinf : (∃ s, (f32Mag a = 0x7F800000 ∧ f32Sign a = s) ∧ f32Mag b = 0x7F800000 ∧ f32Sign b = s) ↔
      (f32Mag a = 0x7F800000 ∧ f32Mag b = 0x7F800000 ∧ f32Sign a = f32Sign b) := by
    cases f32Sign a <;> cases f32Sign b <;> simp
  rwa [hinf] at h

theorem fmul_nanExactly (a b : Word) :
    NaNExactly (fmul a b) (f32IsNaN a = true ∨ f32IsNaN b = true ∨
      (f32Mag a = 0x7F800000 ∧ f32Mag b = 0) ∨ (f32Mag a = 0 ∧ f32Mag b = 0x7F800000)) := by
  have h := mulVal_nanExactly (f32Unpack a) (f32Unpack b)
  rwa [f32Unpack_eq_nan_iff, f32Unpack_eq_nan_iff, f32Unpack_isInf_iff, f32Unpack_isInf_iff, f32Unpack_isZero_iff,
    f32Unpack_isZero_iff] at h

theorem fdiv_nanExactly (a b : Word) :
    NaNExactly (fdiv a b) (f32IsNaN a = true ∨ f32IsNaN b = true ∨
      (f32Mag a = 0 ∧ f32Mag b = 0) ∨ (f32Mag a = 0x7F800000 ∧ f32Mag b = 0x7F800000)) := by
  have h := divVal_nanExactly (f32Unpack a) (f32Unpack b)
  rwa [f32Unpack_eq_nan_iff, f32Unpack_eq_nan_iff, f32Unpack_isInf_iff, f32Unpack_isInf_iff, f32Unpack_isZero_iff,
    f32Unpack_isZero_iff] at h

/-- Settles O26: each operation answers the canonical NaN exactly when it is invalid or an operand is a NaN. -/
theorem naNResultsAreCanonical : Obligations.NaNResultsAreCanonical := by
  intro a b
  have ha := fadd_nanExactly a b
  have hs := fsub_nanExactly a b
  have hm := fmul_nanExactly a b
  have hd := fdiv_nanExactly a b
  exact ⟨ha.canonical, hs.canonical, hm.canonical, hd.canonical, ha.isNaN_iff, hs.isNaN_iff, hm.isNaN_iff, hd.isNaN_iff⟩

end Sys2Proof.Machine
end

section
/-! SUPPORT. Exact and correctly rounded results (00_scope.md R11, R14): a result that is itself a finite pattern is not rounded;
sums, differences and quotients are the exact ones, rounded once. -/

namespace Sys2Proof.Machine

/-! ## Exact results -/

/-- Rounding a number that a finite pattern stands for gives that number. -/
theorem F32RoundsTo.exact {r c : Word} (h : F32RoundsTo r (f32Value c)) (hc : f32IsFinite c = true) :
    f32IsFinite r = true ∧ f32Value r = f32Value c := by
  unfold F32RoundsTo at h
  rw [if_pos (f32Value_abs_lt hc)] at h
  obtain ⟨hfin, -, hnear⟩ := h
  have hle := (hnear c hc).1
  rw [sub_self, abs_zero] at hle
  exact ⟨hfin, sub_eq_zero.1 (abs_nonpos_iff.1 hle)⟩

theorem f32OfMag_zero_exact (neg : Bool) : f32IsFinite (f32OfMag neg 0) = true ∧ f32Value (f32OfMag neg 0) = 0 :=
  ⟨f32IsFinite_f32OfMag neg 0 (by decide), by rw [f32Value_f32OfMag neg 0 (by decide), magValue_zero, mul_zero]⟩

/-- The last place of a number of 24 significant bits is no coarser than the number's own exponent. -/
theorem ulpExp_le {m : Nat} {e : Int} (hm : 0 < m) (hm24 : m < 2 ^ 24) (he : -149 ≤ e) : ulpExp m e ≤ e := by
  have hlog : Nat.log2 m < 24 := (Nat.log2_lt hm.ne').2 hm24
  unfold ulpExp
  omega

/-- The pattern of a number that is a whole number of last places stands for that number. -/
theorem magValue_roundPattern_of_ulpExp_le {m : Nat} {e : Int} (hm : 0 < m) (h : ulpExp m e ≤ e) :
    magValue (roundPattern m e) = (m : ℚ) * 2 ^ e := by
  have hmant : roundMant m e = m * 2 ^ (e - ulpExp m e).toNat := by unfold roundMant; exact if_pos h
  have hval : (m : ℚ) * 2 ^ e = ((roundMant m e : ℚ) + 0) * 2 ^ (ulpExp m e) := by
    have he : e = ((e - ulpExp m e).toNat : ℤ) + ulpExp m e := by omega
    conv_lhs => rw [he, zpow_add₀ (by norm_num : (2 : ℚ) ≠ 0), zpow_natCast]
    rw [hmant]; push_cast; ring
  obtain ⟨hQ, hf, hf2⟩ := roundMant_range m e hm hval le_rfl one_pos
  rw [roundPattern, magValue_split _ _ (by omega) hf2, ← hQ, hval, add_zero]

/-- A number of 24 significant bits in the exponent range is not rounded. -/
theorem f32Round_exact (neg : Bool) {m : Nat} {e : Int} (hm : m < 2 ^ 24) (he : -149 ≤ e)
    (hlt : (m : ℚ) * 2 ^ e < 2 ^ 128) :
    f32IsFinite (f32Round neg m e) = true ∧ f32Value (f32Round neg m e) = (FVal.fin neg m e).toRat := by
  rw [FVal.toRat_fin]
  rcases Nat.eq_zero_or_pos m with rfl | hpos
  · simpa [f32Round] using f32OfMag_zero_exact neg
  · have hval := magValue_roundPattern_of_ulpExp_le hpos (ulpExp_le hpos hm he)
    have hfin : roundPattern m e < 0x7F800000 := by
      rwa [← magValue_strictMono.lt_iff_lt, magValue_overflow, hval]
    rw [f32Round_eq neg m e hpos, min_eq_left hfin.le]
    exact ⟨f32IsFinite_f32OfMag neg _ hfin, by rw [f32Value_f32OfMag neg _ hfin, hval]⟩

/-! ## Sums and differences -/

theorem scaled_mul_zpow (s : Bool) (m : Nat) {e g : Int} (h : g ≤ e) :
    (scaled s m e g : ℚ) * 2 ^ g = (FVal.fin s m e).toRat := by
  have he : (2 : ℚ) ^ e = 2 ^ (e - g).toNat * 2 ^ g := by
    rw [← zpow_natCast, ← zpow_add₀ (by norm_num : (2 : ℚ) ≠ 0)]; congr 1; omega
  rw [FVal.toRat_fin, he]
  cases s <;> simp [scaled, mul_assoc]

/-- `f32Round` of an integer's sign and magnitude rounds that integer times the power of two. -/
theorem f32Round_int_roundsTo {z : Int} (hz : z ≠ 0) (g : Int) :
    F32RoundsTo (f32Round (decide (z < 0)) z.natAbs g) ((z : ℚ) * 2 ^ g) := by
  have h := f32Round_roundsTo (decide (z < 0)) z.natAbs g (Int.natAbs_pos.2 hz)
  have hsign : (if decide (z < 0) = true then (-1 : ℚ) else 1) * ((z.natAbs : ℚ) * 2 ^ g) = (z : ℚ) * 2 ^ g := by
    rw [← mul_assoc]
    congr 1
    rcases lt_or_gt_of_ne hz with h | h
    · rw [if_pos (by simpa using h), Nat.cast_natAbs, abs_of_neg h]; push_cast; ring
    · rw [if_neg (by simpa using h.le), Nat.cast_natAbs, abs_of_pos h, one_mul]
  rwa [hsign] at h

/-- The sum of two finite numbers: rounded once, or a zero when it is zero. -/
theorem addFin_spec (s : Bool) (m : Nat) (e : Int) (t : Bool) (n : Nat) (f : Int) {v : ℚ}
    (hv : v = (FVal.fin s m e).toRat + (FVal.fin t n f).toRat) :
    (v ≠ 0 → F32RoundsTo (addFin s m e t n f) v) ∧ (v = 0 → addFin s m e t n f = f32OfMag (s && t) 0) := by
  rw [← scaled_mul_zpow s m (min_le_left e f), ← scaled_mul_zpow t n (min_le_right e f), ← add_mul, ← Int.cast_add] at hv
  have hz : v = 0 ↔ scaled s m e (min e f) + scaled t n f (min e f) = 0 := by
    rw [hv, mul_eq_zero, or_iff_left (two_zpow_pos _).ne', Int.cast_eq_zero]
  unfold addFin
  refine ⟨fun h => ?_, fun h => if_pos (hz.1 h)⟩
  have hne := mt hz.2 h
  simp only [if_neg hne]
  rw [hv]
  exact f32Round_int_roundsTo hne _

theorem fadd_spec {a b : Word} (ha : f32IsFinite a = true) (hb : f32IsFinite b = true) :
    (f32Value a + f32Value b ≠ 0 → F32RoundsTo (fadd a b) (f32Value a + f32Value b)) ∧
    (f32Value a + f32Value b = 0 → fadd a b = f32OfMag (f32Sign a && f32Sign b) 0) := by
  obtain ⟨m, e, hua, -⟩ := f32Unpack_of_finite ha
  obtain ⟨n, f, hub, -⟩ := f32Unpack_of_finite hb
  rw [fadd, hua, hub]
  exact addFin_spec _ m e _ n f (by rw [f32Value_of_unpack hua, f32Value_of_unpack hub])

theorem fsub_spec {a b : Word} (ha : f32IsFinite a = true) (hb : f32IsFinite b = true) :
    (f32Value a - f32Value b ≠ 0 → F32RoundsTo (fsub a b) (f32Value a - f32Value b)) ∧
    (f32Value a - f32Value b = 0 → fsub a b = f32OfMag (f32Sign a && !f32Sign b) 0) := by
  obtain ⟨m, e, hua, -⟩ := f32Unpack_of_finite ha
  obtain ⟨n, f, hub, -⟩ := f32Unpack_of_finite hb
  rw [fsub, hua, hub]
  exact addFin_spec _ m e _ n f (by
    rw [f32Value_of_unpack hua, f32Value_of_unpack hub, sub_eq_add_neg, ← FVal.toRat_neg]; rfl)

/-- A difference that a finite pattern stands for is not rounded. -/
theorem fsub_exact {a b c : Word} (ha : f32IsFinite a = true) (hb : f32IsFinite b = true) (hc : f32IsFinite c = true)
    (h : f32Value c = f32Value a - f32Value b) :
    f32IsFinite (fsub a b) = true ∧ f32Value (fsub a b) = f32Value a - f32Value b := by
  obtain ⟨hround, hzero⟩ := fsub_spec ha hb
  by_cases h0 : f32Value a - f32Value b = 0
  · rw [hzero h0, h0]; exact f32OfMag_zero_exact _
  · have hr := hround h0
    rw [← h] at hr ⊢
    exact hr.exact hc

/-! ## I2F, floor and the fraction (00_scope.md R14) -/

theorem i2f_exact {n : Nat} (hn : n < 2 ^ 24) : f32IsFinite (i2f n) = true ∧ f32Value (i2f n) = n := by
  have hlt : (n : ℚ) * 2 ^ (0 : ℤ) < 2 ^ 128 := by
    rw [zpow_zero, mul_one]
    exact lt_of_lt_of_le (by exact_mod_cast hn) (by norm_num : (2 : ℚ) ^ 24 ≤ 2 ^ 128)
  simpa [i2f, FVal.toRat_fin] using f32Round_exact false hn (by decide) hlt

/-- A positive finite pattern is its floor and a fraction below 1 that a finite pattern stands for. -/
theorem f32Floor_add_fraction {d : Word} (hd : f32IsFinite d = true) (h0 : 0 < f32Value d) :
    ∃ c : Word, f32IsFinite c = true ∧ 0 ≤ f32Value c ∧ f32Value c < 1 ∧ f32Value d = f32Floor d + f32Value c := by
  obtain ⟨m, e, hu, hm, he, -⟩ := f32Unpack_of_finite hd
  have hval : f32Value d = (m : ℚ) * 2 ^ e := by
    have hv := f32Value_of_unpack hu
    rw [FVal.toRat_fin] at hv
    have hnn : (0 : ℚ) ≤ (m : ℚ) * 2 ^ e := mul_nonneg (Nat.cast_nonneg m) (two_zpow_pos e).le
    cases hs : f32Sign d
    · simpa [hs] using hv
    · rw [hs] at hv; simp only [if_true] at hv; linarith
  by_cases hint : 0 ≤ e
  · have hfloor : f32Floor d = m * 2 ^ e.toNat := by simp only [f32Floor, hu, if_pos hint]
    have hz := f32OfMag_zero_exact false
    refine ⟨f32OfMag false 0, hz.1, hz.2.ge, by rw [hz.2]; exact one_pos, ?_⟩
    obtain ⟨k, rfl⟩ := Int.eq_ofNat_of_zero_le hint
    rw [hval, hfloor, hz.2]
    simp
  · obtain ⟨k, rfl⟩ : ∃ k : Nat, e = -(k : ℤ) := ⟨(-e).toNat, by omega⟩
    have hfloor : f32Floor d = m / 2 ^ k := by
      simp only [f32Floor, hu, if_neg hint, neg_neg, Int.toNat_natCast]
    have hk : (0 : ℚ) < 2 ^ k := by positivity
    have hmod : ((m % 2 ^ k : Nat) : ℚ) < 2 ^ k := by exact_mod_cast Nat.mod_lt m (Nat.two_pow_pos k)
    have hlt1 : ((m % 2 ^ k : Nat) : ℚ) * 2 ^ (-(k : ℤ)) < 1 := by
      rw [zpow_neg, zpow_natCast, ← div_eq_mul_inv, div_lt_one hk]; exact hmod
    obtain ⟨hfin, hc⟩ := f32Round_exact false ((Nat.mod_le m (2 ^ k)).trans_lt hm) he
      (hlt1.trans (by norm_num))
    rw [FVal.toRat_fin, if_neg (by decide), one_mul] at hc
    refine ⟨f32Round false (m % 2 ^ k) (-(k : ℤ)), hfin, ?_, hc ▸ hlt1, ?_⟩
    · rw [hc]; exact mul_nonneg (Nat.cast_nonneg _) (two_zpow_pos _).le
    · have hdm : (2 : ℚ) ^ k * ((m / 2 ^ k : Nat) : ℚ) + ((m % 2 ^ k : Nat) : ℚ) = m := by
        exact_mod_cast Nat.div_add_mod m (2 ^ k)
      rw [hval, hfloor, hc, ← hdm, zpow_neg, zpow_natCast]
      field_simp

/-- Settles O25: the floor has at most 24 bits, so I2F is exact on it, and the fraction is itself a pattern, so the
subtraction does not round. -/
theorem floorAndFractionAreExact : Obligations.FloorAndFractionAreExact := by
  refine ⟨fun d hd h2 h24 => ?_, fun n hn => i2f_exact hn⟩
  obtain ⟨c, hc, hc0, hc1, hsplit⟩ := f32Floor_add_fraction hd (two_pos.trans_le h2)
  have hlt : f32Floor d < 2 ^ 24 := by
    have : (f32Floor d : ℚ) < 2 ^ 24 := by linarith
    exact_mod_cast this
  obtain ⟨hifin, hival⟩ := i2f_exact hlt
  obtain ⟨hfin, hval⟩ := fsub_exact hd hifin hc (by rw [hival]; linarith)
  exact ⟨by linarith, by linarith, hfin, hval.trans (by rw [hival])⟩

/-! ## Quotients -/

/-- The exact quotient, counted in units of the place of `divFin`'s sticky bit. -/
theorem FVal.toRat_fin_div (s : Bool) (m : Nat) (e : Int) (t : Bool) (n : Nat) (f : Int) :
    (FVal.fin s m e).toRat / (FVal.fin t n f).toRat =
      (if s != t then -1 else 1) * (2 * (((m * 2 ^ 50 : Nat) : ℚ) / n) * 2 ^ (e - f - 51)) := by
  have hpow : (2 : ℚ) ^ e / 2 ^ f = 2 ^ 51 * 2 ^ (e - f - 51) := by
    rw [← zpow_natCast, ← zpow_add₀ (by norm_num : (2 : ℚ) ≠ 0), ← zpow_sub₀ (by norm_num : (2 : ℚ) ≠ 0)]
    congr 1; push_cast; ring
  have habs : ((m : ℚ) * 2 ^ e) / (n * 2 ^ f) = 2 * (((m * 2 ^ 50 : Nat) : ℚ) / n) * 2 ^ (e - f - 51) := by
    rw [mul_div_mul_comm, hpow]; push_cast; ring
  rw [FVal.toRat_fin, FVal.toRat_fin, mul_div_mul_comm, habs]
  cases s <;> cases t <;> simp

/-- The quotient of two nonzero finite numbers, rounded once: when the integer quotient is not exact, the sticky bit
stands for everything below it. -/
theorem divFin_roundsTo (s : Bool) {m : Nat} (e : Int) (t : Bool) {n : Nat} (f : Int) (hm : m ≠ 0) (hn : n ≠ 0)
    (hn24 : n < 2 ^ 24) :
    F32RoundsTo (divFin s m e t n f) ((FVal.fin s m e).toRat / (FVal.fin t n f).toRat) := by
  have hnq : (0 : ℚ) < n := by exact_mod_cast Nat.pos_of_ne_zero hn
  have hbits : 2 ^ 26 ≤ m * 2 ^ 50 / n := by
    rw [Nat.le_div_iff_mul_le (Nat.pos_of_ne_zero hn)]
    have : 1 ≤ m := Nat.one_le_iff_ne_zero.2 hm
    omega
  have hu := two_zpow_pos (e - f - 51)
  rw [FVal.toRat_fin_div]
  unfold divFin
  rw [if_neg hn]
  simp only
  generalize m * 2 ^ 50 = M at *
  have hdm : (n : ℚ) * ((M / n : Nat) : ℚ) + ((M % n : Nat) : ℚ) = M := by exact_mod_cast Nat.div_add_mod M n
  by_cases hr : M % n = 0
  · rw [if_pos hr, add_zero]
    have hexact : 2 * ((M : ℚ) / n) = ((2 * (M / n) : Nat) : ℚ) := by
      rw [← hdm, hr]; push_cast; field_simp; ring
    rw [hexact]
    exact f32Round_roundsTo _ _ _ (by omega)
  · rw [if_neg hr]
    have hr0 : (0 : ℚ) < ((M % n : Nat) : ℚ) := by exact_mod_cast Nat.pos_of_ne_zero hr
    have hr1 : ((M % n : Nat) : ℚ) < n := by exact_mod_cast Nat.mod_lt M (Nat.pos_of_ne_zero hn)
    refine f32Round_sticky_roundsTo _ (M / n) _ (by omega) _ ?_ ?_
    · refine mul_lt_mul_of_pos_right ?_ hu
      have : ((M / n : Nat) : ℚ) < M / n := by rw [lt_div_iff₀ hnq]; linarith
      push_cast; linarith
    · refine mul_lt_mul_of_pos_right ?_ hu
      have : (M : ℚ) / n < ((M / n : Nat) : ℚ) + 1 := by rw [div_lt_iff₀ hnq]; linarith
      push_cast; linarith

theorem divFin_zero_left (s : Bool) (e : Int) (t : Bool) {n : Nat} (f : Int) (hn : n ≠ 0) :
    divFin s 0 e t n f = f32OfMag (s != t) 0 := by
  simp [divFin, hn, f32Round]

theorem divFin_zero_right (s : Bool) {m : Nat} (e : Int) (t : Bool) (f : Int) (hm : m ≠ 0) :
    divFin s m e t 0 f = f32Inf (s != t) := by
  simp [divFin, hm]

theorem fdiv_finite {a b : Word} (ha : f32IsFinite a = true) (hb : f32IsFinite b = true) (hb0 : f32Value b ≠ 0) :
    (f32Value a ≠ 0 → F32RoundsTo (fdiv a b) (f32Value a / f32Value b)) ∧
    (f32Value a = 0 → fdiv a b = f32OfMag (f32Sign a != f32Sign b) 0) := by
  obtain ⟨m, e, hua, -⟩ := f32Unpack_of_finite ha
  obtain ⟨n, f, hub, hn24, -⟩ := f32Unpack_of_finite hb
  rw [f32Value_of_unpack hub] at hb0 ⊢
  rw [f32Value_of_unpack hua, fdiv, hua, hub]
  have hn := mt (FVal.toRat_fin_eq_zero_iff _ n f).2 hb0
  refine ⟨fun ha0 => divFin_roundsTo _ e _ f (mt (FVal.toRat_fin_eq_zero_iff _ m e).2 ha0) hn hn24, fun ha0 => ?_⟩
  obtain rfl := (FVal.toRat_fin_eq_zero_iff _ m e).1 ha0
  exact divFin_zero_left _ e _ f hn

theorem fdiv_by_zero {a b : Word} (ha : f32IsFinite a = true) (ha0 : f32Value a ≠ 0) (hb : f32Mag b = 0) :
    fdiv a b = f32Inf (f32Sign a != f32Sign b) := by
  obtain ⟨m, e, hua, -⟩ := f32Unpack_of_finite ha
  obtain ⟨n, f, hub, -, -, hn⟩ := f32Unpack_of_finite (a := b) (by simp [f32IsFinite, hb])
  obtain rfl := hn.2 hb
  rw [f32Value_of_unpack hua] at ha0
  rw [fdiv, hua, hub]
  exact divFin_zero_right _ e _ f (mt (FVal.toRat_fin_eq_zero_iff _ m e).2 ha0)

theorem fdiv_by_inf {a b : Word} (ha : f32IsFinite a = true) (hb : f32Mag b = 0x7F800000) :
    fdiv a b = f32OfMag (f32Sign a != f32Sign b) 0 := by
  obtain ⟨m, e, hua, -⟩ := f32Unpack_of_finite ha
  rw [fdiv, hua, f32Unpack_of_inf hb, divVal]

theorem fdiv_inf {a b : Word} (ha : f32Mag a = 0x7F800000) (hb : f32IsFinite b = true) :
    fdiv a b = f32Inf (f32Sign a != f32Sign b) := by
  obtain ⟨n, f, hub, -⟩ := f32Unpack_of_finite hb
  rw [fdiv, hub, f32Unpack_of_inf ha, divVal]

/-- Settles O29: one lemma per kind of operands. -/
theorem divisionRoundsCorrectly : Obligations.DivisionRoundsCorrectly := by
  intro a b
  exact ⟨fdiv_finite, fdiv_by_zero, fdiv_by_inf, fdiv_inf⟩

end Sys2Proof.Machine
end

section
/-! SUPPORT. The host's accesses, as steps: what an idle block does with a read and a write of a mapped word, what a reset
leaves, which addresses reach STATUS and the program RAM, and what a write to a target leaves alone (20_memory.md R82). -/

namespace Sys2Proof.Machine

/-! ## Accesses of an idle block -/

/-- A read returns the same whatever the host sends later. -/
theorem State.readTarget_withInbox (s : State) (T : Target) (rest : List HostEvent) :
    State.readTarget { s with inbox := rest } T = s.readTarget T := by cases T <;> rfl

/-- An idle block answers a read of a mapped word at once (20_memory.md R84, R86). -/
theorem step_read_idle {s : State} {a v : Word} {rest : List HostEvent} (hs : s.seq = .idle)
    (hi : s.inbox = .read a 32 :: rest) (hv : ReadsAs s a.toNat v) :
    step s = .next { s with inbox := rest, replies := s.replies ++ [v] } := by
  obtain ⟨h4, T, hT, rfl⟩ := hv
  rw [step_takes hi (by simp) (State.mustWait_idle hs)]
  simp only [State.takeEvent, State.hostRead, State.busTarget_of_mapAligned { s with inbox := rest } a T h4 hT,
    State.readTarget_withInbox]
  rfl

/-- An idle block takes a write of a mapped word at once (20_memory.md R85, R86). -/
theorem step_write_idle {s : State} {a v : Word} {rest : List HostEvent} {T : Target} (hs : s.seq = .idle)
    (hi : s.inbox = .write a 32 v :: rest) (h4 : a.toNat % 4 = 0) (hT : mapAligned s.sramLog2 a.toNat = some T) :
    step s = .next ({ s with inbox := rest }.writeTarget T v) := by
  rw [step_takes hi (by simp) (State.mustWait_idle hs)]
  simp only [State.takeEvent, State.hostWrite, State.busTarget_of_mapAligned { s with inbox := rest } a T h4 hT]

/-- A reset is taken whatever the block does (70_reset_and_hazards.md R300). -/
theorem step_reset {s : State} {rest : List HostEvent} (hi : s.inbox = .reset :: rest) :
    step s = .next { s with inbox := rest }.resetEvent := step_takes hi (by simp) rfl

/-- A step that takes a reset leaves the reset state. -/
theorem eq_resetEvent_of_step {s t : State} {rest : List HostEvent} (hi : s.inbox = .reset :: rest)
    (h : step s = .next t) : t = { s with inbox := rest }.resetEvent :=
  Host.Outcome.next.inj (h.symm.trans (step_reset hi))

/-! ## Which addresses reach STATUS and the program RAM -/

theorem globalTarget_ne_prog (n i : Nat) : globalTarget n ≠ .prog i := by
  unfold globalTarget; split <;> simp

theorem globalTarget_eq_status_iff (n : Nat) : globalTarget n = .status ↔ n = 1 := by
  unfold globalTarget; split <;> simp_all

/-- What a mapped address names, block by block of the map (20_memory.md R82). -/
theorem mapAligned_cases {k a : Nat} {T : Target} (h : mapAligned k a = some T) :
    (a < 0x40 ∧ T = globalTarget (a / 4)) ∨ (∃ r, T = .xReg r) ∨ (∃ u f, T = .dcb u f) ∨ (∃ u f, T = .dmp u f) ∨
      (∃ j f, T = .ch j f) ∨ (∃ i, i < Config.progWords ∧ T = .prog i) ∨ (∃ n, T = .sine n) ∨ ∃ w, T = .sram w := by
  unfold mapAligned at h
  by_cases hglobal : a < 0x40
  · rw [if_pos hglobal] at h; cases h; exact .inl ⟨hglobal, rfl⟩
  rw [if_neg hglobal] at h
  by_cases hx : a < 0x80
  · rw [if_pos hx] at h; cases h; exact .inr (.inl ⟨_, rfl⟩)
  rw [if_neg hx] at h
  by_cases hdcb : a < 0xA0
  · rw [if_pos hdcb] at h
    obtain ⟨f, -, rfl⟩ := Option.map_eq_some_iff.1 h
    exact .inr (.inr (.inl ⟨_, f, rfl⟩))
  rw [if_neg hdcb] at h
  by_cases hgap : a < 0x100
  · rw [if_pos hgap] at h; cases h
  rw [if_neg hgap] at h
  by_cases hdmp : a < 0x200
  · rw [if_pos hdmp] at h; cases h; exact .inr (.inr (.inr (.inl ⟨_, _, rfl⟩)))
  rw [if_neg hdmp] at h
  by_cases hgap : a < 0x400
  · rw [if_pos hgap] at h; cases h
  rw [if_neg hgap] at h
  by_cases hch : a < 0x800
  · rw [if_pos hch] at h; cases h; exact .inr (.inr (.inr (.inr (.inl ⟨_, _, rfl⟩))))
  rw [if_neg hch] at h
  by_cases hgap : a < 0x1000
  · rw [if_pos hgap] at h; cases h
  rw [if_neg hgap] at h
  by_cases hprog : a < 0x1400
  · rw [if_pos hprog] at h; cases h
    have hi : (a - 0x1000) / 4 < 256 := by omega
    exact .inr (.inr (.inr (.inr (.inr (.inl ⟨_, hi, rfl⟩)))))
  rw [if_neg hprog] at h
  by_cases hgap : a < 0x2000
  · rw [if_pos hgap] at h; cases h
  rw [if_neg hgap] at h
  by_cases hsine : a < 0x3000
  · rw [if_pos hsine] at h; cases h; exact .inr (.inr (.inr (.inr (.inr (.inr (.inl ⟨_, rfl⟩))))))
  rw [if_neg hsine] at h
  by_cases hgap : a < 0x400000
  · rw [if_pos hgap] at h; cases h
  rw [if_neg hgap] at h
  by_cases hsram : a < 0x400000 + 4 * 2 ^ k
  · rw [if_pos hsram] at h; cases h; exact .inr (.inr (.inr (.inr (.inr (.inr (.inr ⟨_, rfl⟩))))))
  · rw [if_neg hsram] at h; cases h

theorem mapAligned_eq_status {k a : Nat} (h4 : a % 4 = 0) (h : mapAligned k a = some .status) : a = 4 := by
  obtain ⟨-, hT⟩ | ⟨_, hT⟩ | ⟨_, _, hT⟩ | ⟨_, _, hT⟩ | ⟨_, _, hT⟩ | ⟨_, -, hT⟩ | ⟨_, hT⟩ | ⟨_, hT⟩ := mapAligned_cases h
  · have := (globalTarget_eq_status_iff _).1 hT.symm
    omega
  all_goals cases hT

theorem mapAligned_eq_prog {k a i : Nat} (h : mapAligned k a = some (.prog i)) : i < Config.progWords := by
  obtain ⟨-, hT⟩ | ⟨_, hT⟩ | ⟨_, _, hT⟩ | ⟨_, _, hT⟩ | ⟨_, _, hT⟩ | ⟨_, hi, hT⟩ | ⟨_, hT⟩ | ⟨_, hT⟩ := mapAligned_cases h
  · exact absurd hT.symm (globalTarget_ne_prog _ _)
  case inr.inr.inr.inr.inr.inl => cases hT; exact hi
  all_goals cases hT

/-- STATUS is reached at byte address 4, by 32 bits, only (20_memory.md R82). -/
theorem State.busTarget_eq_status {s : State} {a : Word} {bits : Nat} (h : s.busTarget a bits = some .status) :
    a = 4#32 ∧ bits = 32 := by
  unfold State.busTarget at h
  split at h
  · next hb => exact ⟨BitVec.eq_of_toNat_eq (mapAligned_eq_status hb.2 h), hb.1⟩
  · cases h

/-- A program word the bus reaches is one of the PROG_WORDS words (20_memory.md R82). -/
theorem State.busTarget_eq_prog {s : State} {a : Word} {bits i : Nat} (h : s.busTarget a bits = some (.prog i)) :
    i < Config.progWords := by
  unfold State.busTarget at h
  split at h
  · exact mapAligned_eq_prog h
  · cases h

/-! ## What a write to a target leaves alone -/

/-- A CTRL write, case by case (10_state.md R35, 40_control.md R140). -/
theorem State.writeCtrl_eq (s : State) (v : Word) : s.writeCtrl v =
    if v.getLsbD 1 = true then { s with freeze := v.getLsbD 0, seq := .preparing (v.getLsbD 2) }
    else if v.getLsbD 2 = true ∧ s.prepared = true then { s with freeze := v.getLsbD 0, seq := .running, pc := 0 }
    else { s with freeze := v.getLsbD 0 } := by
  unfold State.writeCtrl State.go State.startFrame
  cases v.getLsbD 1 <;> cases v.getLsbD 2 <;> cases hp : s.prepared <;> simp

/-- A CTRL write changes FREEZE, what the sequencer does and the pc only. -/
theorem State.writeCtrl_changes (s : State) (v : Word) :
    ∃ f q n, s.writeCtrl v = { s with freeze := f, seq := q, pc := n } := by
  rw [State.writeCtrl_eq]
  split
  · exact ⟨_, _, _, rfl⟩
  · split <;> exact ⟨_, _, _, rfl⟩

/-- No write to a target changes FRAMES, ILL_PC, ILL_WORD or BUSERR_ADDR: they are read-only (10_state.md R38 to R40). -/
theorem State.writeTarget_readOnly (s : State) (T : Target) (v : Word) :
    (s.writeTarget T v).frames = s.frames ∧ (s.writeTarget T v).illPc = s.illPc ∧
      (s.writeTarget T v).illWord = s.illWord ∧ (s.writeTarget T v).buserrAddr = s.buserrAddr := by
  cases T
  case ctrl =>
    obtain ⟨f, q, n, h⟩ := s.writeCtrl_changes v
    simp only [State.writeTarget, h, and_self]
  all_goals exact ⟨rfl, rfl, rfl, rfl⟩

/-- Only a write to STATUS changes DONE, ILL or BUSERR (10_state.md R36). -/
theorem State.writeTarget_statusBits (s : State) {T : Target} (v : Word) (hT : T ≠ .status) :
    (s.writeTarget T v).done = s.done ∧ (s.writeTarget T v).ill = s.ill ∧ (s.writeTarget T v).buserr = s.buserr := by
  cases T
  case status => exact absurd rfl hT
  case ctrl =>
    obtain ⟨f, q, n, h⟩ := s.writeCtrl_changes v
    simp only [State.writeTarget, h, and_self]
  all_goals exact ⟨rfl, rfl, rfl⟩

end Sys2Proof.Machine
end

section
/-! SUPPORT. The words that decode are the legal ones (30_encoding.md R113, R115): a row of the opcode map fixes the opcode,
the opcode fixes the instruction read, and the row's extra condition is the instruction's well-formedness. -/

namespace Sys2Proof

/-- A field of a word as a number. -/
theorem wordField_toNat (w : Word) (lo n : Nat) : (wordField w lo n).toNat = w.toNat / 2 ^ lo % 2 ^ n := by
  rw [wordField, BitVec.extractLsb'_toNat, Nat.shiftRight_eq_div_pow]

/-- The opcode as a number (30_encoding.md R111). -/
theorem opcode_toNat (w : Word) : (wordField w 26 6).toNat = w.toNat / 2 ^ 26 := by
  rw [wordField_toNat]
  have := w.isLt
  omega

/-- Only well-formed instructions decode (30_encoding.md R113). -/
theorem wellFormed_of_decodeWord {w : Word} {i : Instr} (h : decodeWord w = .ok i) : i.wellFormed = true := by
  unfold decodeWord at h
  split at h
  · cases h
  · split at h
    · split at h
      · next hwf => cases h; exact hwf
      · cases h
    · cases h

/-- A word read as an instruction whose row it matches, and which is well-formed, decodes to it. -/
theorem decodeWord_of_readFields {w : Word} {i : Instr} (hr : readFields w = some i)
    (hm : w &&& rowMask i = rowMatch i) (hwf : i.wellFormed = true) : decodeWord w = .ok i := by
  simp [decodeWord, hr, hm, hwf]

/-- The fields of the word of an extra condition are those the instruction holds (30_encoding.md R113). -/
theorem wellFormed_of_readFields {w : Word} {i : Instr} (hr : readFields w = some i)
    (hx : Machine.extraCondition w) : i.wellFormed = true := by
  obtain ⟨hskip, hapc⟩ := hx
  unfold readFields at hr
  split at hr
  case h_3 hop =>
    cases hr
    have h3 := hskip ((opcode_toNat w).symm.trans hop)
    have hne : wordField w 24 2 ≠ 3#2 := fun he => h3 ((wordField_toNat w 24 2).symm.trans (congrArg BitVec.toNat he))
    simpa [Instr.wellFormed] using hne
  case h_14 hop =>
    cases hr
    have hle := hapc ((opcode_toNat w).symm.trans hop)
    simp only [Instr.wellFormed, fieldCh, wordField_toNat, decide_eq_true_eq]
    exact hle
  all_goals cases hr <;> rfl

/-- A row of the opcode map has all six opcode bits in its mask, so it fixes the opcode. -/
theorem opcode_of_row {w : Word} {row : Word × Word} (hrow : row ∈ Machine.opcodeMap) (hw : w &&& row.2 = row.1) :
    wordField w 26 6 = wordField row.1 26 6 := by
  have hmask : ∀ r ∈ Machine.opcodeMap, wordField r.2 26 6 = BitVec.allOnes 6 := by simp [Machine.opcodeMap, wordField]
  have hand : wordField (w &&& row.2) 26 6 = wordField w 26 6 &&& wordField row.2 26 6 := BitVec.extractLsb'_and
  rw [← hw, hand, hmask row hrow, BitVec.and_allOnes]

/-- With the opcode of a row of the opcode map a word is read as an instruction of that row. -/
theorem readFields_of_row {w : Word} {row : Word × Word} (hrow : row ∈ Machine.opcodeMap)
    (hop : wordField w 26 6 = wordField row.1 26 6) :
    ∃ i, readFields w = some i ∧ rowMatch i = row.1 ∧ rowMask i = row.2 := by
  simp only [Machine.opcodeMap, List.cons_append, List.nil_append, List.mem_cons, List.not_mem_nil, or_false] at hrow
  unfold readFields
  rw [hop]
  rcases hrow with rfl | rfl | rfl | rfl | rfl | rfl | rfl | rfl | rfl | rfl | rfl | rfl | rfl | rfl | rfl | rfl | rfl |
    rfl | rfl | rfl <;> exact ⟨_, rfl, rfl, rfl⟩

/-- A legal word decodes (30_encoding.md R113, R115). -/
theorem decodeWord_of_legal {w : Word} (h : Machine.LegalWord w) : ∃ i, decodeWord w = .ok i := by
  obtain ⟨⟨row, hrow, hw⟩, hx⟩ := h
  obtain ⟨i, hr, hmatch, hmask⟩ := readFields_of_row hrow (opcode_of_row hrow hw)
  exact ⟨i, decodeWord_of_readFields hr (by rw [hmatch, hmask, hw]) (wellFormed_of_readFields hr hx)⟩

/-- A word that decoding rejects is no legal word. -/
theorem not_legal_of_decodeWord_error {w : Word} {e : Reject} (h : decodeWord w = .error e) : ¬ Machine.LegalWord w := by
  intro hl
  obtain ⟨i, hi⟩ := decodeWord_of_legal hl
  rw [h] at hi
  cases hi

end Sys2Proof
end

section
/-! SUPPORT. What a step does to the registers, said once for every step but a reset: an access, a PREPARE, a frame end, an
abort or an instruction, each with the state it leads to. -/

namespace Sys2Proof.Machine

/-- What a step other than a reset can do, with the state it leads to. In each case the inbox is what is left of it. -/
inductive StepEffect (s : State) : State → Prop where
  /-- A read of a mapped word returns a word and changes nothing (20_memory.md R88). -/
  | read (a : Word) (bits : Nat) (v : Word) (rest : List HostEvent) : s.inbox = .read a bits :: rest →
      StepEffect s ({ s with inbox := rest }.reply v)
  /-- An idle block refuses a read (20_memory.md R84). -/
  | readRefused (a : Word) (bits : Nat) (rest : List HostEvent) : s.inbox = .read a bits :: rest → s.seq = .idle →
      ¬ Accepted s a bits → StepEffect s (({ s with inbox := rest }.refuseAccess a).reply 0#32)
  /-- An idle block takes a write to what the map names (20_memory.md R85). -/
  | write (a : Word) (bits : Nat) (v : Word) (T : Target) (rest : List HostEvent) :
      s.inbox = .write a bits v :: rest → s.seq = .idle → s.busTarget a bits = some T →
      StepEffect s ({ s with inbox := rest }.writeTarget T v)
  /-- An idle block refuses a write (20_memory.md R84). -/
  | writeRefused (a : Word) (bits : Nat) (v : Word) (rest : List HostEvent) : s.inbox = .write a bits v :: rest →
      s.seq = .idle → ¬ Accepted s a bits → StepEffect s ({ s with inbox := rest }.refuseAccess a)
  /-- Nothing happens (60_exceptions.md R281). -/
  | idle (rest : List HostEvent) : s.seq = .idle → StepEffect s { s with inbox := rest }
  /-- The PREPARE sequence runs (70_reset_and_hazards.md R303). -/
  | prepare (thenGo : Bool) (rest : List HostEvent) : s.seq = .preparing thenGo →
      StepEffect s ({ s with inbox := rest }.finishPrepare thenGo)
  /-- A frame ends, past its last word or by END (40_control.md R141, R142). -/
  | frameEnd (rest : List HostEvent) : s.seq = .running → StepEffect s { s with inbox := rest }.endFrame
  /-- An illegal word aborts the frame (60_exceptions.md R272). -/
  | abort (w : Word) (rest : List HostEvent) : s.seq = .running → s.pc < 256 → s.pRead s.pc = some w → ¬ LegalWord w →
      StepEffect s ({ s with inbox := rest }.raiseIllegal w)
  /-- An instruction other than END is executed (40_control.md R140). -/
  | run (i : Instr) (rest : List HostEvent) (t : State) : s.seq = .running → s.pc < 256 → i.wellFormed = true →
      i ≠ .endFrame → exec i { s with inbox := rest } = .next t → StepEffect s t

/-- A step of the sequencer drops at most a pause from the inbox. -/
theorem State.afterPass_eq (s : State) : ∃ rest, s.afterPass = { s with inbox := rest } := by
  unfold State.afterPass
  split
  · exact ⟨_, rfl⟩
  · exact ⟨s.inbox, rfl⟩

/-- A read that does not wait is of STATUS, or finds the block idle (20_memory.md R86). -/
theorem State.read_proceeds {s : State} {a : Word} {bits : Nat} (h : s.mustWait (.read a bits) = false) :
    s.seq = .idle ∨ s.busTarget a bits = some .status := by
  by_contra hc
  rw [not_or] at hc
  simp [State.mustWait, State.busy, hc.1, hc.2] at h

/-- A write that does not wait finds the block idle (20_memory.md R86). -/
theorem State.write_proceeds {s : State} {a v : Word} {bits : Nat} (h : s.mustWait (.write a bits v) = false) :
    s.seq = .idle := by
  simpa [State.mustWait, State.busy] using h

/-- A read the block takes. -/
theorem StepEffect.of_read {s : State} {a : Word} {bits : Nat} {rest : List HostEvent}
    (hi : s.inbox = .read a bits :: rest) (hw : s.mustWait (.read a bits) = false) :
    StepEffect s ({ s with inbox := rest }.hostRead a bits) := by
  unfold State.hostRead
  split
  · exact .read a bits _ rest hi
  · next hT =>
    have hT : s.busTarget a bits = none := hT
    refine .readRefused a bits rest hi ?_ ((s.busTarget_eq_none_iff a bits).1 hT)
    exact (State.read_proceeds hw).resolve_right (by simp [hT])

/-- A write the block takes. -/
theorem StepEffect.of_write {s : State} {a v : Word} {bits : Nat} {rest : List HostEvent}
    (hi : s.inbox = .write a bits v :: rest) (hw : s.mustWait (.write a bits v) = false) :
    StepEffect s ({ s with inbox := rest }.hostWrite a bits v) := by
  have hs := State.write_proceeds hw
  unfold State.hostWrite
  split
  · next T hT => exact .write a bits v T rest hi hs hT
  · next hT => exact .writeRefused a bits v rest hi hs ((s.busTarget_eq_none_iff a bits).1 hT)

/-- A step of the sequencer. -/
theorem StepEffect.of_sequencer {s t : State} {rest : List HostEvent} (h : SequencerStep { s with inbox := rest } t) :
    StepEffect s t := by
  obtain ⟨hs, rfl⟩ | ⟨g, hs, rfl⟩ | ⟨hs, -, rfl⟩ | ⟨w, e, hs, hpc, hw, hd, rfl⟩ | ⟨w, i, hs, hpc, hw, hd, hx⟩ := h
  · exact .idle rest hs
  · exact .prepare g rest hs
  · exact .frameEnd rest hs
  · exact .abort w rest hs hpc hw (not_legal_of_decodeWord_error hd)
  · by_cases he : i = .endFrame
    · subst he
      cases hx
      exact .frameEnd rest hs
    · exact .run i rest t hs hpc (wellFormed_of_decodeWord hd) he hx

/-- What a step can do: a reset, or one of the effects. -/
theorem step_effect {s t : State} (h : step s = .next t) :
    (∃ rest, s.inbox = .reset :: rest ∧ t = { s with inbox := rest }.resetEvent) ∨ StepEffect s t := by
  obtain ⟨e, rest, hi, hp, hw, rfl⟩ | hq := step_cases h
  · cases e
    case read a bits => exact .inr (.of_read hi hw)
    case write a bits v => exact .inr (.of_write hi hw)
    case reset => exact .inl ⟨rest, hi, rfl⟩
    case pass => exact absurd rfl hp
  · obtain ⟨rest, hu⟩ := s.afterPass_eq
    exact .inr (.of_sequencer (hu ▸ hq))

/-- What a step that is not a reset can do. -/
theorem step_effect_of_noReset {s t : State} (h : step s = .next t) (hr : NoReset s) : StepEffect s t :=
  (step_effect h).resolve_left fun ⟨rest, hi, _⟩ => hr rest hi

/-- What an executed instruction leaves alone is as in the state it started from. -/
theorem Keeps.exists_eq {s t : State} (h : Keeps s t) : ∃ x pc ch dmp dcb mem bsign,
    t = { s with x := x, pc := pc, ch := ch, dmp := dmp, dcb := dcb, mem := mem, bsign := bsign } :=
  ⟨t.x, t.pc, t.ch, t.dmp, t.dcb, t.mem, t.bsign, congrArg (fun u : State => { u with
    x := t.x, pc := t.pc, ch := t.ch, dmp := t.dmp, dcb := t.dcb, mem := t.mem, bsign := t.bsign }) h.rest⟩

/-- What a legal instruction other than END leaves alone, from the answer it gives. -/
theorem keeps_of_exec {i : Instr} {u t : State} (hw : i.wellFormed = true) (he : i ≠ .endFrame)
    (hx : exec i u = .next t) : Keeps u t ∧ t.pc ≤ u.pc + 256 := by
  obtain ⟨t', hx', hk, -, hpc⟩ := exec_keeps i u hw he
  cases hx.symm.trans hx'
  exact ⟨hk, hpc⟩

end Sys2Proof.Machine
end

section
/-! SUPPORT. The invariant on the channels and the memory, kept by every operation an instruction is made of, by PREPARE and
by every write (10_state.md R51 to R53, 20_memory.md R82, R89), and the invariant of the machine from it. -/

namespace Sys2Proof.Machine

/-- The invariant's part on the channel blocks and the RAMs, which no instruction's pc or register write can touch. -/
def State.DataInv (s : State) : Prop :=
  (∀ j : Chan, (s.getCh j).Legal s.sramLog2) ∧ Memory.wf s.prepared s.mem = true ∧
    ∀ c ∈ s.mem, Memory.inRam s.sramLog2 c.1 = true

theorem State.Inv.dataInv {s : State} (h : s.Inv) : s.DataInv := ⟨h.channels, h.canonical, h.inRam⟩

/-! ## The addresses of the RAMs -/

theorem inRam_progAddr {k i b : Nat} (hi : i < Config.progWords) (hb : progAddr i ≤ b ∧ b < progAddr i + 4) :
    Memory.inRam k b = true := by
  simp only [progAddr, Config.progBase, Config.progWords] at hi hb
  have hlow : 0x1000 ≤ b ∧ b < 0x1000 + 4 * 256 := by omega
  simp [Memory.inRam, Config.progBase, Config.progWords, hlow]

theorem State.inRam_sramAddr (s : State) {w b : Nat} (hb : s.sramAddr w ≤ b ∧ b < s.sramAddr w + 4) :
    Memory.inRam s.sramLog2 b = true := by
  have hw : w % 2 ^ s.sramLog2 < 2 ^ s.sramLog2 := Nat.mod_lt _ (Nat.two_pow_pos _)
  simp only [State.sramAddr] at hb
  have hrange : Config.sramBase ≤ b ∧ b < Config.sramBase + 4 * 2 ^ s.sramLog2 := by omega
  simp [Memory.inRam, hrange]

/-! ## The operations -/

theorem State.DataInv.setCh {s : State} (h : s.DataInv) (j : Chan) {c : Channel} (hc : c.Legal s.sramLog2) :
    (s.setCh j c).DataInv := by
  refine ⟨fun i => ?_, h.2⟩
  rw [State.getCh_setCh]
  split
  · exact hc
  · exact h.1 i

theorem State.DataInv.writeWord {s : State} (h : s.DataInv) {a : Nat} (v : Word)
    (ha : ∀ b, a ≤ b ∧ b < a + 4 → Memory.inRam s.sramLog2 b = true) : (s.writeWord a v).DataInv := by
  obtain ⟨hch, hwf, hram⟩ := h
  refine ⟨hch, Memory.wf_writeWord a v hwf, fun c hc => ?_⟩
  rcases Memory.mem_writeWord hc with hc | hc
  · exact hram c hc
  · exact ha c.1 hc

theorem State.DataInv.sWrite {s : State} (h : s.DataInv) (w : Nat) (v : Word) : (s.sWrite w v).DataInv :=
  h.writeWord v fun _ => s.inRam_sramAddr

theorem State.DataInv.lfoAdvance {s : State} (h : s.DataInv) (j : Chan) : (s.lfoAdvance j).DataInv :=
  h.setCh j (h.1 j).phaseAdvanced

theorem State.DataInv.dlWrite {s : State} (h : s.DataInv) (j : Chan) (v : Word) : (s.dlWrite j v).DataInv :=
  (h.sWrite _ v).setCh j (h.1 j).stepCursor

theorem State.DataInv.apNext {s : State} (h : s.DataInv) (j : Chan) (x : Word) : (s.apNext j x).DataInv :=
  (h.lfoAdvance j).dlWrite j _

theorem State.DataInv.apCascade {s : State} (h : s.DataInv) (L : List Chan) (x : Word) : (s.apCascade L x).2.DataInv := by
  induction L generalizing s x with
  | nil => exact h
  | cons j L ih => exact ih (h.apNext j x) _

theorem State.DataInv.fdnReads {s : State} (h : s.DataInv) : s.fdnReads.2.DataInv :=
  List.foldlRecOn (motive := fun p => p.2.DataInv) fdnLines fdnRead h fun _ hp i _ => hp.lfoAdvance (lineChan i)

theorem State.DataInv.fdnDamp {s : State} (h : s.DataInv) (m : Vector Word 16) (i : Line) : (s.fdnDamp m i).DataInv := by
  unfold State.fdnDamp
  split <;> exact h

theorem State.DataInv.fdnWrites {s : State} (h : s.DataInv) (inj : Word) (m : Vector Word 16) :
    (s.fdnWrites inj m).DataInv :=
  List.foldlRecOn (motive := State.DataInv) fdnLines (fdnWrite inj m) h fun _ hs i _ => (hs.fdnDamp m i).dlWrite _ _

/-- PREPARE empties the cursors and the sample RAM (70_reset_and_hazards.md R303). -/
theorem State.DataInv.clearAudio {s : State} (h : s.DataInv) : s.clearAudio.DataInv := by
  obtain ⟨hch, hwf, hram⟩ := h
  refine ⟨fun j => ?_, Memory.wf_clearSamples hwf, fun c hc => hram c (List.mem_filter.1 hc).1⟩
  obtain ⟨hbase, -, hlog⟩ := hch j
  rw [State.getCh_clearAudio]
  exact ⟨hbase, Nat.two_pow_pos _, hlog⟩

/-- Every instruction keeps the channels legal and the memory canonical and inside the RAMs. Where it writes no channel and
no memory the hypothesis itself is the proof. The results of HAD16 and FDN are made opaque first: they need not be
computed. -/
theorem State.DataInv.exec {i : Instr} {s t : State} (h : s.DataInv) (hx : exec i s = .next t) : t.DataInv := by
  cases i
  case dlwr ch xs => cases hx; exact h.dlWrite ch _
  case dlrdm xd ch => cases hx; exact h.lfoAdvance ch
  case lfo xd ch => cases hx; exact h.lfoAdvance ch
  case ap xd ch xs => cases hx; exact h.apNext ch _
  case apc xd ch xs n =>
    simp only [Machine.exec, execApc] at hx
    split at hx
    · cases hx; exact h.apCascade _ _
    · cases hx; exact h
  case skip cond n8 =>
    simp only [Machine.exec, execSkip] at hx
    split at hx <;> cases hx <;> exact h
  case had16 =>
    dsimp only [Machine.exec, execHad16] at hx
    generalize fwht16 s.x = x at hx
    cases hx; exact h
  case fdn xd xs =>
    have hd := h.fdnReads.fdnWrites (fmul (s.getX xs) fQuarter) (fwht16 s.fdnReads.1)
    dsimp only [Machine.exec, execFdn] at hx
    generalize s.fdnReads.2.fdnWrites (fmul (s.getX xs) fQuarter) (fwht16 s.fdnReads.1) = u at hx hd
    cases hx; exact hd
  all_goals cases hx; exact h

/-! ## Writes -/

theorem lowBits_lt (k : Nat) (v : Word) : (lowBits k v).toNat < 2 ^ k := by
  have hlt : v.toNat % 2 ^ k < 2 ^ k := Nat.mod_lt _ (Nat.two_pow_pos _)
  exact lt_of_le_of_lt (Nat.mod_le _ _) hlt

/-- The ring size stored, as a number (10_state.md R52). -/
theorem legalLog2_toNat {k : Nat} (hk : k ≤ 24) (v : Word) : (legalLog2 k v).toNat = min (max (v.toNat % 2 ^ 5) 3) k := by
  rw [legalLog2, BitVec.toNat_ofNat, Nat.mod_eq_of_lt (by omega)]

theorem Channel.Legal.writeField {k : Nat} {c : Channel} (h : c.Legal k) (hk : 10 ≤ k ∧ k ≤ 24) (f : ChField) (v : Word) :
    (c.writeField k f v).Legal k := by
  obtain ⟨hbase, hcur, hlog, hlog'⟩ := h
  cases f
  case dlBase => exact ⟨lowBits_lt k v, hcur, hlog, hlog'⟩
  case dlCur => exact ⟨hbase, lowBits_lt k v, hlog, hlog'⟩
  case dlLog2 =>
    have he := legalLog2_toNat hk.2 v
    refine ⟨hbase, hcur, ?_, ?_⟩
    · show 3 ≤ (legalLog2 k v).toNat
      omega
    · show (legalLog2 k v).toNat ≤ k
      omega
  all_goals exact ⟨hbase, hcur, hlog, hlog'⟩

/-! ## The invariant of the machine -/

/-- The invariant is that of the data, a legal size, and a pc and a sequencer the rules allow. -/
theorem State.Inv.of_dataInv {t : State} (hk : 10 ≤ t.sramLog2 ∧ t.sramLog2 ≤ 24) (hpc : t.pc ≤ 511)
    (hr : t.seq = .running → t.prepared = true) (hd : t.DataInv) : t.Inv :=
  ⟨hk, hpc, hr, hd.1, hd.2.1, hd.2.2⟩

/-- The reset values meet the invariant for every legal SRAM_LOG2 (70_reset_and_hazards.md R300, R301). -/
theorem State.resetEvent_inv (s : State) (hk : 10 ≤ s.sramLog2 ∧ s.sramLog2 ≤ 24) : s.resetEvent.Inv := by
  have hch : ∀ j : Chan, s.resetEvent.getCh j = Channel.reset s.sramLog2 j.toNat := fun j => by
    simp [State.getCh, State.resetEvent, State.resetWith]
  have hpow : 2 ^ s.sramLog2 = 32 * 2 ^ (s.sramLog2 - 5) := by
    rw [show (32 : Nat) = 2 ^ 5 from rfl, ← Nat.pow_add]
    congr 1; omega
  have hpos : 0 < 2 ^ (s.sramLog2 - 5) := Nat.two_pow_pos _
  refine ⟨hk, Nat.zero_le _, nofun, fun j => ?_, rfl, nofun⟩
  have hbase : j.toNat * 2 ^ (s.sramLog2 - 5) < 2 ^ s.sramLog2 := by
    rw [hpow]; exact Nat.mul_lt_mul_of_pos_right j.isLt hpos
  have hlog : (BitVec.ofNat 5 (s.sramLog2 - 5)).toNat = s.sramLog2 - 5 := by
    rw [BitVec.toNat_ofNat]; omega
  rw [hch]
  refine ⟨lt_of_le_of_lt (Nat.mod_le _ _) hbase, Nat.two_pow_pos _, ?_, ?_⟩
  · show 3 ≤ (BitVec.ofNat 5 (s.sramLog2 - 5)).toNat
    omega
  · show (BitVec.ofNat 5 (s.sramLog2 - 5)).toNat ≤ s.sramLog2
    omega

/-- A CTRL write keeps the invariant: it starts a frame at word 0 only when PREPARED is set (40_control.md R140). -/
theorem State.Inv.writeCtrl {s : State} (h : s.Inv) (v : Word) : (s.writeCtrl v).Inv := by
  rw [State.writeCtrl_eq]
  split
  · exact .of_dataInv h.size h.pcRange nofun h.dataInv
  · split
    · next hgo => exact .of_dataInv h.size (Nat.zero_le _) (fun _ => hgo.2) h.dataInv
    · exact .of_dataInv h.size h.pcRange h.ready h.dataInv

/-- Every write to what the map names keeps the invariant. -/
theorem State.Inv.writeTarget {s : State} (h : s.Inv) {T : Target} (v : Word)
    (hT : ∀ i, T = .prog i → i < Config.progWords) : (s.writeTarget T v).Inv := by
  have hd := h.dataInv
  cases T
  case ctrl => exact h.writeCtrl v
  case ch j f => exact .of_dataInv h.size h.pcRange h.ready (hd.setCh j ((hd.1 j).writeField h.size f v))
  case prog i => exact .of_dataInv h.size h.pcRange h.ready (hd.writeWord v fun _ => inRam_progAddr (hT i rfl))
  case sram w => exact .of_dataInv h.size h.pcRange h.ready (hd.sWrite w v)
  all_goals exact .of_dataInv h.size h.pcRange h.ready hd

/-- PREPARE, and the frame it may start, keep the invariant (70_reset_and_hazards.md R303). -/
theorem State.Inv.finishPrepare {s : State} (h : s.Inv) (thenGo : Bool) : (s.finishPrepare thenGo).Inv := by
  have hd := h.dataInv.clearAudio
  cases thenGo
  · exact .of_dataInv h.size h.pcRange nofun hd
  · exact .of_dataInv h.size (Nat.zero_le _) (fun _ => rfl) hd

/-- A legal instruction other than END keeps the invariant: from a pc below 256 the next is at most 511
(10_state.md R32). -/
theorem State.Inv.exec {i : Instr} {s t : State} (h : s.Inv) (hpc : s.pc < 256) (hw : i.wellFormed = true)
    (he : i ≠ .endFrame) (hx : exec i s = .next t) : t.Inv := by
  obtain ⟨hk, hpc'⟩ := keeps_of_exec hw he hx
  have hd := h.dataInv.exec hx
  obtain ⟨x, pc, ch, dmp, dcb, mem, bsign, rfl⟩ := hk.exists_eq
  exact .of_dataInv h.size (by omega) h.ready hd

/-- Dropping events from the inbox keeps the invariant, which does not speak of it. -/
theorem State.Inv.withInbox {s : State} (h : s.Inv) (rest : List HostEvent) : State.Inv { s with inbox := rest } :=
  .of_dataInv h.size h.pcRange h.ready h.dataInv

/-- Every step but a reset keeps the invariant. -/
theorem StepEffect.inv {s t : State} (hstep : StepEffect s t) (h : s.Inv) : t.Inv := by
  cases hstep
  case write a bits v T rest hi hs hT =>
    exact (h.withInbox rest).writeTarget v fun i hp => State.busTarget_eq_prog (hp ▸ hT)
  case prepare g rest hs => exact (h.withInbox rest).finishPrepare g
  case run i rest hs hpc hw he hx => exact (h.withInbox rest).exec hpc hw he hx
  case frameEnd => exact .of_dataInv h.size h.pcRange nofun h.dataInv
  case abort => exact .of_dataInv h.size h.pcRange nofun h.dataInv
  all_goals exact .of_dataInv h.size h.pcRange h.ready h.dataInv

/-- Settles O57: a reset leaves the invariant's values, and every other step keeps it, effect by effect. -/
theorem stepKeepsInvariant : Obligations.StepKeepsInvariant := by
  intro s t h hstep
  obtain ⟨rest, -, rfl⟩ | he := step_effect hstep
  · exact State.resetEvent_inv _ h.size
  · exact he.inv h

end Sys2Proof.Machine
end

section
/-! SUPPORT. The registers the host reads and writes: CTRL, STATUS, IRQEN, FRAMES, ILL_PC, ILL_WORD, BUSERR_ADDR, ID, PARAMS
and DL_LOG2 (10_state.md R35 to R41, R52), and the parameters during a frame (R49). -/

namespace Sys2Proof.Machine

/-! ## CTRL -/

/-- A PREPARE that a frame follows leaves what a PREPARE alone leaves, with the frame at word 0 (10_state.md R35). -/
theorem State.finishPrepare_thenGo (s : State) :
    s.finishPrepare true = { ({ s with seq := .preparing false } : State).finishPrepare false with
      seq := .running, pc := 0 } := rfl

/-- Settles O14: the write is `writeCtrl`, case by case, and PREPARE with GO is PREPARE and then the frame. -/
theorem ctrlWriteStartsSequences : Obligations.CtrlWriteStartsSequences := by
  refine ⟨fun s v rest hs hi => ?_, fun s hi hs => ?_⟩
  · rw [step_write_idle (T := .ctrl) hs hi rfl rfl]
    exact congrArg _ (State.writeCtrl_eq { s with inbox := rest } v)
  · have hgo : step s = .next (s.finishPrepare true) := by
      rw [step_inbox_nil hi, State.sequence, hs]; rfl
    exact ⟨_, _, hgo, step_inbox_nil hi, s.finishPrepare_thenGo⟩

/-! ## STATUS -/

/-- The status bits set in s are set in t. -/
def StatusBitsKept (s t : State) : Prop :=
  (s.done = true → t.done = true) ∧ (s.ill = true → t.ill = true) ∧ (s.buserr = true → t.buserr = true)

theorem StatusBitsKept.of_eq {s t : State} (h : t.done = s.done ∧ t.ill = s.ill ∧ t.buserr = s.buserr) :
    StatusBitsKept s t := by
  obtain ⟨hd, hi, hb⟩ := h
  exact ⟨hd.trans, hi.trans, hb.trans⟩

/-- A write sets no status bit (10_state.md R36). -/
theorem State.writeTarget_setsNoStatusBit (s : State) (T : Target) (v : Word) : StatusBitsKept (s.writeTarget T v) s := by
  by_cases hT : T = .status
  · subst hT
    exact ⟨Bool.and_elim_left, Bool.and_elim_left, Bool.and_elim_left⟩
  · obtain ⟨hd, hi, hb⟩ := s.writeTarget_statusBits v hT
    exact .of_eq ⟨hd.symm, hi.symm, hb.symm⟩

/-- A step other than a reset keeps the status bits that are set, or takes a write to STATUS (60_exceptions.md R276). -/
theorem StepEffect.statusBits {s t : State} (h : StepEffect s t) :
    StatusBitsKept s t ∨
      ∃ v rest, s.inbox = .write 4#32 32 v :: rest ∧ t = { s with inbox := rest }.writeStatus v := by
  cases h
  case write a bits v T rest hi _ hT =>
    by_cases hst : T = .status
    · subst hst
      obtain ⟨rfl, rfl⟩ := State.busTarget_eq_status hT
      exact .inr ⟨v, rest, hi, rfl⟩
    · exact .inl (.of_eq (State.writeTarget_statusBits { s with inbox := rest } v hst))
  case readRefused => exact .inl ⟨id, id, fun _ => rfl⟩
  case writeRefused => exact .inl ⟨id, id, fun _ => rfl⟩
  case frameEnd => exact .inl ⟨fun _ => rfl, id, id⟩
  case abort => exact .inl ⟨fun _ => rfl, fun _ => rfl, id⟩
  case prepare => exact .inl (.of_eq (by simp))
  case run i rest _ _ hw he hx =>
    obtain ⟨_, _, _, _, _, _, _, rfl⟩ := (keeps_of_exec hw he hx).1.exists_eq
    exact .inl ⟨id, id, id⟩
  all_goals exact .inl ⟨id, id, id⟩

/-- Settles O15: the write is `writeStatus`, and no other effect of a step clears a status bit. -/
theorem statusBitsAreSticky : Obligations.StatusBitsAreSticky := by
  refine ⟨fun s v rest hs hi => ?_, fun s t h hr => ?_⟩
  · have hclear : ∀ b c : Bool, (b && !c) = if c = true then false else b := by decide
    rw [step_write_idle (T := .status) hs hi rfl rfl]
    simp only [State.writeTarget, State.writeStatus, hclear]
  · obtain ⟨hd, hi, hb⟩ | ⟨v, rest, hin, rfl⟩ := (step_effect_of_noReset h hr).statusBits
    · exact ⟨fun h => .inl (hd h), fun h => .inl (hi h), fun h => .inl (hb h)⟩
    · have hkept : ∀ {b : Bool} {k : Nat}, b = true → (b && !v.getLsbD k) = true ∨
          ∃ v rest, s.inbox = .write 4#32 32 v :: rest ∧ v.getLsbD k = true := by
        intro b k hb
        cases hv : v.getLsbD k
        · exact .inl (by simp [hb])
        · exact .inr ⟨v, rest, hin, hv⟩
      exact ⟨hkept, hkept, hkept⟩

/-! ## IRQEN -/

/-- The bits of a word with one bit. -/
theorem getLsbD_bitAt {n k : Nat} (hn : n < 32) (b : Bool) : (bitAt n b).getLsbD k = (b && decide (n = k)) := by
  cases b
  · simp [bitAt]
  · simp only [bitAt, if_true, BitVec.getLsbD_ofNat, Nat.testBit_two_pow, Bool.true_and]
    by_cases hk : n = k
    · simp [← hk, hn]
    · simp [hk]

/-- IRQEN reads back the three bits written, and 0 elsewhere (10_state.md R37). -/
theorem State.irqenWord_writeIrqen (s : State) (v : Word) : (s.writeIrqen v).irqenWord = v &&& 0x1C#32 := by
  apply BitVec.eq_of_getLsbD_eq
  intro k hk
  simp only [State.irqenWord, State.writeIrqen, BitVec.getLsbD_or, BitVec.getLsbD_and]
  rw [getLsbD_bitAt (by decide), getLsbD_bitAt (by decide), getLsbD_bitAt (by decide)]
  interval_cases k <;> simp

/-- Settles O16: the write is `writeIrqen` and the read its word; IRQ is `irq` by definition. -/
theorem interruptEnable : Obligations.InterruptEnable := by
  refine ⟨fun s v rest hs hi => ?_, fun s => ?_, fun s rest hi => ?_⟩
  · exact ⟨_, step_write_idle (T := .irqen) hs hi rfl rfl,
      step_read_idle hs rfl (readsAs_global _ _ _ ⟨rfl, by decide⟩ (State.irqenWord_writeIrqen _ v)), rfl, rfl, rfl⟩
  · simp [State.irq, or_assoc]
  · exact ⟨_, step_reset hi, rfl, rfl, rfl⟩

/-! ## FRAMES -/

/-- Settles O22: FRAMES moves with the frame ends among the effects of a step. -/
theorem framesCountsFrameEnds : Obligations.FramesCountsFrameEnds := by
  refine ⟨fun s t h hr => ?_, fun s t rest hi h => ?_, fun s rest hs hi => ?_⟩
  · cases step_effect_of_noReset h hr
    case read => rw [if_neg (by rintro ⟨h1, h2⟩; cases h1.symm.trans h2)]; rfl
    case write a bits v T rest _ hs _ =>
      rw [if_neg (by simp [hs])]
      exact (State.writeTarget_readOnly { s with inbox := rest } T v).1
    case readRefused hs _ => simp [hs]
    case writeRefused hs _ => simp [hs]
    case idle hs => simp [hs]
    case prepare hs => simp [hs]
    case frameEnd hs => exact (if_pos ⟨hs, rfl⟩).symm
    case abort hs _ _ _ => exact (if_pos ⟨hs, rfl⟩).symm
    case run i rest hs _ hw he hx =>
      obtain ⟨_, _, _, _, _, _, _, rfl⟩ := (keeps_of_exec hw he hx).1.exists_eq
      simp [hs]
  · rw [eq_resetEvent_of_step hi h]; rfl
  · exact step_read_idle hs hi (readsAs_global s _ _ ⟨rfl, by decide⟩ rfl)

/-! ## ILL_PC, ILL_WORD and BUSERR_ADDR -/

/-- A bit that is 1 after only if it was 1 before does not go from 0 to 1. -/
theorem not_rises {b c : Bool} (h : c = true → b = true) : ¬ (b = false ∧ c = true) :=
  fun ⟨hb, hc⟩ => Bool.noConfusion (hb.symm.trans (h hc))

/-- Settles O23: among the effects of a step only the abort sets ILL, and it writes ILL_PC and ILL_WORD while ILL is 0. -/
theorem firstIllegalInstructionIsKept : Obligations.FirstIllegalInstructionIsKept := by
  refine ⟨fun s t h hr => ?_, fun s t rest hi h => ?_, fun s rest hs hi => ?_⟩
  · cases step_effect_of_noReset h hr
    case abort w rest hs hpc hw hl =>
      cases s.ill
      · rw [if_pos ⟨rfl, rfl⟩]
        refine ⟨w, hs, hpc, hw, hl, ?_, by simp⟩
        simp only [State.raiseIllegal_illPc, Bool.false_eq_true, if_false, BitVec.toNat_ofNat]
        omega
      · simp
    case write a bits v T rest _ _ _ =>
      obtain ⟨-, hpc, hword, -⟩ := State.writeTarget_readOnly { s with inbox := rest } T v
      obtain ⟨-, hill, -⟩ := State.writeTarget_setsNoStatusBit { s with inbox := rest } T v
      rw [if_neg (not_rises hill)]
      exact ⟨hpc, hword⟩
    case run i rest _ _ hw he hx =>
      obtain ⟨_, _, _, _, _, _, _, rfl⟩ := (keeps_of_exec hw he hx).1.exists_eq
      simp
    all_goals simp
  · rw [eq_resetEvent_of_step hi h]; exact ⟨rfl, rfl⟩
  · have hpc := step_read_idle hs hi (readsAs_global s _ _ ⟨rfl, by decide⟩ (setWidth_eq_ofNat _))
    have hword := step_read_idle (s := { s with
        inbox := .read 0x14#32 32 :: rest, replies := s.replies ++ [BitVec.ofNat 32 s.illPc.toNat] })
      hs rfl (readsAs_global _ _ _ ⟨rfl, by decide⟩ rfl)
    rw [List.append_assoc] at hword
    exact ⟨_, hpc, hword⟩

/-- Settles O24: among the effects of a step only a refused access sets BUSERR, and it writes BUSERR_ADDR while BUSERR
is 0. -/
theorem firstRefusedAddressIsKept : Obligations.FirstRefusedAddressIsKept := by
  refine ⟨fun s t h hr => ?_, fun s t rest hi h => ?_, fun s rest hs hi => ?_⟩
  · cases step_effect_of_noReset h hr
    case readRefused a bits rest hi _ hn =>
      cases s.buserr
      · rw [if_pos ⟨rfl, rfl⟩]
        exact ⟨a, bits, rest, hn, by simp, .inl hi⟩
      · simp
    case writeRefused a bits v rest hi _ hn =>
      cases s.buserr
      · rw [if_pos ⟨rfl, rfl⟩]
        exact ⟨a, bits, rest, hn, by simp, .inr ⟨v, hi⟩⟩
      · simp
    case write a bits v T rest _ _ _ =>
      obtain ⟨-, -, -, haddr⟩ := State.writeTarget_readOnly { s with inbox := rest } T v
      obtain ⟨-, -, hb⟩ := State.writeTarget_setsNoStatusBit { s with inbox := rest } T v
      rw [if_neg (not_rises hb)]
      exact haddr
    case run i rest _ _ hw he hx =>
      obtain ⟨_, _, _, _, _, _, _, rfl⟩ := (keeps_of_exec hw he hx).1.exists_eq
      simp
    all_goals simp
  · rw [eq_resetEvent_of_step hi h]; rfl
  · exact step_read_idle hs hi (readsAs_global s _ _ ⟨rfl, by decide⟩ rfl)

/-! ## ID and PARAMS -/

/-- Settles O17: both words are read as the map names them, and PARAMS has 32 cases, one for each SRAM_LOG2. -/
theorem identificationRegisters : Obligations.IdentificationRegisters := by
  intro s rest hs hk
  refine ⟨fun hi => ?_, fun hi => ⟨s.paramsWord, ?_, ?_⟩, ?_⟩
  · exact step_read_idle hs hi (readsAs_global s _ _ ⟨rfl, by decide⟩ rfl)
  · exact step_read_idle hs hi (readsAs_global s _ _ ⟨rfl, by decide⟩ rfl)
  · unfold State.paramsWord
    generalize BitVec.ofNat 5 s.sramLog2 = k
    revert k
    decide
  · rintro a v (rfl | rfl) hi
    · exact step_write_idle (T := .id) hs hi rfl rfl
    · exact step_write_idle (T := .params) hs hi rfl rfl

/-! ## DL_LOG2 -/

/-- CH[j].DL_LOG2 is mapped at 0x404 + 0x20 * j (20_memory.md R82). -/
theorem mapAligned_dlLog2 (k : Nat) (j : Chan) :
    (BitVec.ofNat 32 (0x404 + 0x20 * j.toNat)).toNat % 4 = 0 ∧
      mapAligned k (BitVec.ofNat 32 (0x404 + 0x20 * j.toNat)).toNat = some (.ch j .dlLog2) := by
  have hj := j.isLt
  have ha : (BitVec.ofNat 32 (0x404 + 0x20 * j.toNat)).toNat = 0x400 + 0x20 * j.toNat + 4 * 1 := by
    rw [BitVec.toNat_ofNat]; omega
  rw [ha]
  exact ⟨by omega, mapAligned_ch k j 1 (by decide)⟩

/-- With the cursor at 0 the ring slots are addressed from 0 up, so the mask is the ring size less one
(10_state.md R52). -/
theorem Channel.slot_neg_of_dlCur_zero {c : Channel} {m : Int} (h0 : 0 ≤ m) (hm : m < c.size) (hc : c.dlCur = 0#32) :
    (c.slot (-m) : Int) = m := by
  have hcur : c.cursor = 0 := by simp [Channel.cursor, hc]
  rw [Channel.slot, hcur]
  have he : ((0 : Nat) : Int) - -m = m := by omega
  rw [he, Int.emod_eq_of_lt h0 hm, Int.toNat_of_nonneg h0]

/-- Settles O18: the write stores `legalLog2`, which the read returns; SRAM_LOG2 - 5 fits in the field. -/
theorem ringSizeIsLegalised : Obligations.RingSizeIsLegalised := by
  refine ⟨fun s j v rest _ hk hs hi => ?_, fun c m h0 hm hc => ?_, fun s j rest _ hk hi => ?_⟩
  · obtain ⟨h4, hT⟩ := mapAligned_dlLog2 s.sramLog2 j
    have hlog : (legalLog2 s.sramLog2 v).toNat = min (max (v.toNat % 32) 3) s.sramLog2 := legalLog2_toNat hk v
    refine ⟨_, step_write_idle hs hi h4 hT, ?_, ?_, step_read_idle hs rfl ⟨h4, _, hT, ?_⟩⟩
    all_goals simp only [State.writeTarget, State.readTarget, State.getCh_setCh_self, Channel.writeField,
      Channel.readField, Channel.size, hlog]
    rw [setWidth_eq_ofNat, hlog]
  · have hlt := c.slot_lt (-m)
    exact ⟨Channel.slot_neg_of_dlCur_zero h0 hm hc, by omega⟩
  · refine ⟨_, step_reset hi, ?_⟩
    have hlog : (State.getCh { s with inbox := rest }.resetEvent j).dlLog2 = BitVec.ofNat 5 (s.sramLog2 - 5) := by
      simp [State.getCh, State.resetEvent, State.resetWith, Channel.reset]
    rw [hlog, BitVec.toNat_ofNat]
    omega

/-! ## The parameters during a frame -/

/-- A step of a running frame does what an instruction may do, and beyond that can change the status bits DONE and ILL,
FRAMES, the record of the illegal instruction, what the sequencer does, and the host's side of the bus (10_state.md R49). -/
theorem keeps_of_step_running {s t : State} (hs : s.seq = .running) (h : StepEffect s t) :
    Keeps s { t with
      seq := s.seq, done := s.done, ill := s.ill, frames := s.frames, illPc := s.illPc, illWord := s.illWord,
      inbox := s.inbox, replies := s.replies } := by
  cases h
  case read => exact Keeps.refl s
  case frameEnd => exact Keeps.refl s
  case abort => exact Keeps.refl s
  case run i rest _ _ hw he hx =>
    obtain ⟨hrest, hch, hdmp, hdcb, hprog⟩ := (keeps_of_exec hw he hx).1
    have hrest := congrArg (fun u : State => { u with
      seq := s.seq, done := s.done, ill := s.ill, frames := s.frames, illPc := s.illPc, illWord := s.illWord,
      inbox := s.inbox, replies := s.replies }) hrest
    exact ⟨hrest, hch, hdmp, hdcb, hprog⟩
  case readRefused hidle _ => cases hs.symm.trans hidle
  case write hidle _ => cases hs.symm.trans hidle
  case writeRefused hidle _ => cases hs.symm.trans hidle
  case idle hidle => cases hs.symm.trans hidle
  case prepare hprep => cases hs.symm.trans hprep

/-- Settles O58: a running step keeps what an instruction keeps, and no parameter is among the rest. -/
theorem parametersHoldForTheFrame : Obligations.ParametersHoldForTheFrame := by
  intro s t hs hr hstep
  have hk := keeps_of_step_running hs (step_effect_of_noReset hstep hr)
  obtain ⟨_, _, _, _, _, _, _, he⟩ := hk.exists_eq
  simp only [State.mk.injEq] at he
  simp only [he, true_and]
  exact ⟨hk.ch, hk.dmp, hk.dcb⟩

end Sys2Proof.Machine
end

section
/-! SUPPORT. The host's bus against the frame: the map of 20_memory.md R82 row by row with what each address names, accesses
that wait and accesses that are refused (R84, R86), what mapped reads return and mapped writes store (R85, R88), and who
writes the program RAM (R94). -/

namespace Sys2Proof.Machine

/-! ## The address map, row by row -/

/-- What the word at byte address `a` is, one constructor for each row of the table of 20_memory.md R82. -/
inductive MapsTo (k : Nat) : Nat → Target → Prop where
  /-- The global registers. -/
  | global (i : Nat) : i ≤ 15 → MapsTo k (4 * i) (globalTarget i)
  /-- X[r]. -/
  | xReg (r : XReg) : MapsTo k (0x40 + 4 * r.toNat) (.xReg r)
  /-- Word o of DCB[u]; word 3 is unmapped. -/
  | dcb (u : DcbIx) (o : Nat) (f : DcbField) : o < 3 → dcbField o = some f →
      MapsTo k (0x80 + 0x10 * u.toNat + 4 * o) (.dcb u f)
  /-- Word o of DMP[u]. -/
  | dmp (u : DampIx) (o : Nat) : o < 4 → MapsTo k (0x100 + 0x10 * u.toNat + 4 * o) (.dmp u (dmpField o))
  /-- Word o of CH[j]. -/
  | ch (j : Chan) (o : Nat) : o < 8 → MapsTo k (0x400 + 0x20 * j.toNat + 4 * o) (.ch j (chField o))
  /-- Program word i. -/
  | prog (i : Nat) : i ≤ 255 → MapsTo k (0x1000 + 4 * i) (.prog i)
  /-- Sine table entry i. -/
  | sine (i : Nat) : i ≤ 1023 → MapsTo k (0x2000 + 4 * i) (.sine i)
  /-- Sample word w. -/
  | sram (w : Nat) : w < 2 ^ k → MapsTo k (0x400000 + 4 * w) (.sram w)

/-- A row of the map gives an aligned address that reaches the row's target. -/
theorem MapsTo.reaches {k a : Nat} {T : Target} (h : MapsTo k a T) : a % 4 = 0 ∧ mapAligned k a = some T := by
  cases h
  case global i hi =>
    have he : 4 * i / 4 = i := by omega
    refine ⟨by omega, ?_⟩
    unfold mapAligned
    rw [if_pos (by omega), he]
  case xReg r => exact ⟨by omega, mapAligned_xReg k r⟩
  case dcb u o f ho hf => exact ⟨by omega, by rw [mapAligned_dcb k u o ho, hf]; rfl⟩
  case dmp u o ho => exact ⟨by omega, mapAligned_dmp k u o ho⟩
  case ch j o ho => exact ⟨by omega, mapAligned_ch k j o ho⟩
  case prog i hi => exact ⟨by omega, mapAligned_prog k i hi⟩
  case sine i hi => exact ⟨by omega, mapAligned_sine k i hi⟩
  case sram w hw => exact ⟨by omega, mapAligned_sram k w hw⟩

/-- Every mapped address is in a row of the map. -/
theorem Mapped.mapsTo {k a : Nat} (h : Mapped k a) : ∃ T, MapsTo k a T := by
  obtain ⟨i, hi, rfl⟩ | ⟨i, hi, rfl⟩ | ⟨u, o, hu, ho, rfl⟩ | ⟨u, o, hu, ho, rfl⟩ | ⟨j, o, hj, ho, rfl⟩ | ⟨i, hi, rfl⟩ |
    ⟨i, hi, rfl⟩ | ⟨w, hw, rfl⟩ := h
  · exact ⟨_, .global i hi⟩
  · exact ⟨_, .xReg (BitVec.ofNatLT i (by omega))⟩
  · have hrow := MapsTo.dcb (k := k) (BitVec.ofNatLT u (by omega))
    obtain rfl | rfl | rfl := ho
    · exact ⟨_, hrow 0 .r (by decide) rfl⟩
    · exact ⟨_, hrow 1 .x1 (by decide) rfl⟩
    · exact ⟨_, hrow 2 .y1 (by decide) rfl⟩
  · have hrow := MapsTo.dmp (k := k) (BitVec.ofNatLT u (by omega))
    obtain rfl | rfl | rfl | rfl := ho
    · exact ⟨_, hrow 0 (by decide)⟩
    · exact ⟨_, hrow 1 (by decide)⟩
    · exact ⟨_, hrow 2 (by decide)⟩
    · exact ⟨_, hrow 3 (by decide)⟩
  · exact ⟨_, .ch (BitVec.ofNatLT j (by omega)) o (by omega)⟩
  · exact ⟨_, .prog i hi⟩
  · exact ⟨_, .sine i hi⟩
  · exact ⟨_, .sram w hw⟩

/-- An aligned address reaches only what its row of the map names. -/
theorem mapsTo_of_mapAligned {k a : Nat} {T : Target} (h4 : a % 4 = 0) (h : mapAligned k a = some T) :
    MapsTo k a T := by
  obtain ⟨T', hT'⟩ := ((mapAligned_isSome_iff k a).1 ⟨h4, T, h⟩).mapsTo
  cases h.symm.trans hT'.reaches.2
  exact hT'

/-! ## A step of the sequencer does not see the inbox -/

/-- The state with another inbox. -/
def State.withInbox (q : List HostEvent) (s : State) : State := { s with inbox := q }

/-- The answer with another inbox in its next state. -/
def withInboxAnswer (q : List HostEvent) : Answer → Answer
  | .next t => .next (t.withInbox q)
  | .fault f => .fault f
  | .refused r => .refused r

theorem State.getX_withInbox (q : List HostEvent) (s : State) (r : XReg) : (s.withInbox q).getX r = s.getX r := rfl

theorem State.apCascade_withInbox (q : List HostEvent) (L : List Chan) (s : State) (x : Word) :
    (s.withInbox q).apCascade L x = ((s.apCascade L x).1, (s.apCascade L x).2.withInbox q) := by
  induction L generalizing s x with
  | nil => rfl
  | cons j L ih => exact ih (s.apNext j x) (s.apOut j x)

theorem fdnRead_withInbox (q : List HostEvent) (p : Vector Word 16 × State) (i : Line) :
    fdnRead (Prod.map id (State.withInbox q) p) i = Prod.map id (State.withInbox q) (fdnRead p i) := rfl

theorem State.fdnReads_withInbox (q : List HostEvent) (s : State) :
    (s.withInbox q).fdnReads = Prod.map id (State.withInbox q) s.fdnReads := by
  unfold State.fdnReads
  generalize fdnLines = L
  exact List.foldl_hom (Prod.map id (State.withInbox q)) (init := (_, s)) (fdnRead_withInbox q)

theorem State.fdnDamp_withInbox (q : List HostEvent) (s : State) (m : Vector Word 16) (i : Line) :
    (s.withInbox q).fdnDamp m i = (s.fdnDamp m i).withInbox q := by
  unfold State.fdnDamp
  rw [show (s.withInbox q).freeze = s.freeze from rfl]
  split <;> rfl

theorem fdnWrite_withInbox (q : List HostEvent) (inj : Word) (m : Vector Word 16) (s : State) (i : Line) :
    fdnWrite inj m (s.withInbox q) i = (fdnWrite inj m s i).withInbox q := by
  unfold fdnWrite
  rw [State.fdnDamp_withInbox]
  rfl

theorem State.fdnWrites_withInbox (q : List HostEvent) (s : State) (inj : Word) (m : Vector Word 16) :
    (s.withInbox q).fdnWrites inj m = (s.fdnWrites inj m).withInbox q := by
  unfold State.fdnWrites
  generalize fdnLines = L
  exact List.foldl_hom (State.withInbox q) (fdnWrite_withInbox q inj m)

/-- No instruction sees the inbox or changes it. -/
theorem exec_withInbox (q : List HostEvent) (i : Instr) (s : State) :
    exec i (s.withInbox q) = withInboxAnswer q (exec i s) := by
  cases i
  case skip cond n8 =>
    simp only [exec, execSkip]
    split <;> rfl
  case apc xd ch xs n =>
    simp only [exec, execApc]
    split
    · exact congrArg (fun r => Host.Outcome.next (r.2.setX xd r.1).advance) (s.apCascade_withInbox q _ _)
    · rfl
  case fdn xd xs =>
    simp only [exec, execFdn, State.getX_withInbox, State.fdnReads_withInbox, Prod.map_fst, Prod.map_snd, id_eq,
      State.fdnWrites_withInbox]
    generalize s.fdnReads = r
    generalize r.2.fdnWrites (fmul (s.getX xs) fQuarter) (fwht16 r.1) = t
    rfl
  all_goals rfl

/-- The sequencer does not see the inbox and does not change it. -/
theorem State.sequence_withInbox (q : List HostEvent) (s : State) :
    (s.withInbox q).sequence.answer = withInboxAnswer q s.sequence.answer := by
  unfold State.sequence
  rw [show (s.withInbox q).seq = s.seq from rfl]
  cases s.seq
  case idle => rfl
  case preparing thenGo => cases thenGo <;> rfl
  case running =>
    simp only [State.fetch]
    rw [show (s.withInbox q).pc = s.pc from rfl, show (s.withInbox q).pRead = s.pRead from rfl]
    split
    · rfl
    · cases s.pRead s.pc
      case none => rfl
      case some w =>
        dsimp only
        cases decodeWord w
        case error e => rfl
        case ok i => exact exec_withInbox q i s

/-! ## Accesses that wait -/

/-- A STATUS read is accepted (20_memory.md R82). -/
theorem accepted_statusRead (s : State) : Accepted s 4#32 32 := ⟨rfl, .inl ⟨1, by decide, rfl⟩⟩

/-- While BUSY every access but a STATUS read waits (20_memory.md R86). -/
theorem State.mustWait_of_otherAccess {s : State} {e : HostEvent} (hs : s.seq ≠ .idle) (he : OtherAccess e) :
    s.mustWait e = true := by
  obtain ⟨a, bits, v, rfl⟩ | ⟨a, bits, rfl, hne⟩ := he
  · simp [State.mustWait, State.busy, hs]
  · have hT : s.busTarget a bits ≠ some .status := fun hT => hne (State.busTarget_eq_status hT)
    simp [State.mustWait, State.busy, hs, hT]

/-- An access that waits stays in the inbox, and the step is the one an empty inbox gives (20_memory.md R86). -/
theorem step_otherAccess {s : State} {e : HostEvent} {rest : List HostEvent} (hs : s.seq ≠ .idle) (he : OtherAccess e)
    (hi : s.inbox = e :: rest) : step s = withInboxAnswer (e :: rest) (step { s with inbox := [] }) := by
  rw [step_waits hi (State.mustWait_of_otherAccess hs he), step_inbox_nil rfl, ← State.sequence_withInbox, ← hi]
  rfl

/-- STATUS read while BUSY (20_memory.md R86). -/
theorem step_statusRead {s : State} {rest : List HostEvent} (hi : s.inbox = .read 4#32 32 :: rest) :
    step s = .next { s with inbox := rest, replies := s.replies ++ [s.statusWord] } := by
  have hT : ∀ u : State, u.busTarget 4#32 32 = some .status := fun u => u.busTarget_of_mapAligned _ _ rfl rfl
  rw [step_takes hi nofun (by simp [State.mustWait, hT])]
  simp only [State.takeEvent, State.hostRead, hT]
  rfl

/-- Settles O9: a STATUS read never waits; while BUSY any other access waits, and no step of the sequencer sees the inbox;
nothing waits while BUSY = 0. -/
theorem onlyStatusReadsProceedWhileBusy : Obligations.OnlyStatusReadsProceedWhileBusy := by
  refine ⟨fun s rest _ hi => ?_, fun s e rest hs he hi => ?_, fun s e rest hs he hi => ?_⟩
  · exact ⟨s.statusWord, .inr (.inl ⟨rfl, s.statusWord_eq⟩), step_statusRead hi⟩
  · rw [step_otherAccess hs he hi]
    cases step { s with inbox := [] } <;> rfl
  · have hp : e ≠ .pass := by
      obtain ⟨a, bits, v, rfl⟩ | ⟨a, bits, rfl, -⟩ := he <;> exact nofun
    exact step_takes hi hp (State.mustWait_idle hs)

/-! ## Refused accesses -/

/-- A step of the sequencer leaves the host's side of the bus alone. -/
theorem SequencerStep.hostSide {u t : State} (h : SequencerStep u t) :
    t.inbox = u.inbox ∧ t.replies = u.replies ∧ t.buserr = u.buserr ∧ t.buserrAddr = u.buserrAddr := by
  obtain ⟨-, rfl⟩ | ⟨g, -, rfl⟩ | ⟨-, -, rfl⟩ | ⟨w, e, -, -, -, -, rfl⟩ | ⟨w, i, -, -, -, hd, hx⟩ := h
  · exact ⟨rfl, rfl, rfl, rfl⟩
  · simp
  · simp
  · simp
  · by_cases he : i = .endFrame
    · subst he
      cases hx
      simp
    · obtain ⟨_, _, _, _, _, _, _, rfl⟩ := (keeps_of_exec (wellFormed_of_decodeWord hd) he hx).1.exists_eq
      exact ⟨rfl, rfl, rfl, rfl⟩

/-- Settles O10: an idle block refuses what the map does not reach; a busy one makes it wait, and no step of the sequencer
touches the host's side of the bus. -/
theorem refusedAccess : Obligations.RefusedAccess := by
  intro s a bits rest hn
  have hT : State.busTarget { s with inbox := rest } a bits = none := (State.busTarget_eq_none_iff _ a bits).2 hn
  refine ⟨fun hs hi => ?_, fun v hs hi => ?_, fun e t he hs hi ht => ?_⟩
  · rw [step_takes hi nofun (State.mustWait_idle hs), State.takeEvent, State.hostRead, hT]
    rfl
  · rw [step_takes hi nofun (State.mustWait_idle hs), State.takeEvent, State.hostWrite, hT]
    rfl
  · have he : OtherAccess e := by
      obtain rfl | ⟨v, rfl⟩ := he
      · refine .inr ⟨a, bits, rfl, ?_⟩
        rintro ⟨rfl, rfl⟩
        exact hn (accepted_statusRead s)
      · exact .inl ⟨a, bits, v, rfl⟩
    rw [step_waits hi (State.mustWait_of_otherAccess hs he)] at ht
    exact (State.sequence_cases ht).hostSide

/-! ## What mapped reads return -/

/-- The value of a global register. -/
theorem busValue_global (s : State) {i : Nat} (hi : i ≤ 15) : BusValue s (4 * i) (s.readTarget (globalTarget i)) := by
  unfold BusValue
  interval_cases i <;>
    simp [globalTarget, State.readTarget, State.ctrlWord, bitAt_zero, State.statusWord_eq, State.irqenWord_eq,
      State.paramsWord_eq, idWord]

/-- The value of a register of DCB[u]. -/
theorem busValue_dcb (s : State) (u : DcbIx) {o : Nat} {f : DcbField} (ho : o < 3) (hf : dcbField o = some f) :
    BusValue s (0x80 + 0x10 * u.toNat + 4 * o) ((s.getDcb u).readField f) := by
  unfold BusValue
  iterate 17 apply Or.inr
  refine .inl ⟨u, ?_⟩
  interval_cases o <;> cases hf
  · exact .inl ⟨rfl, rfl⟩
  · exact .inr (.inl ⟨by omega, rfl⟩)
  · exact .inr (.inr ⟨by omega, rfl⟩)

/-- The value of a register of DMP[u]. -/
theorem busValue_dmp (s : State) (u : DampIx) {o : Nat} (ho : o < 4) :
    BusValue s (0x100 + 0x10 * u.toNat + 4 * o) ((s.getDmp u).readField (dmpField o)) := by
  unfold BusValue
  iterate 18 apply Or.inr
  refine .inl ⟨u, ?_⟩
  interval_cases o
  · exact .inl ⟨rfl, rfl⟩
  · exact .inr (.inl ⟨by omega, rfl⟩)
  · exact .inr (.inr (.inl ⟨by omega, rfl⟩))
  · exact .inr (.inr (.inr ⟨by omega, rfl⟩))

/-- The value of a register of CH[j]. -/
theorem busValue_ch (s : State) (j : Chan) {o : Nat} (ho : o < 8) :
    BusValue s (0x400 + 0x20 * j.toNat + 4 * o) ((s.getCh j).readField (chField o)) := by
  unfold BusValue
  iterate 19 apply Or.inr
  refine .inl ⟨j, ?_⟩
  interval_cases o
  · exact .inl ⟨rfl, rfl⟩
  · exact .inr (.inl ⟨by omega, setWidth_eq_ofNat _⟩)
  · exact .inr (.inr (.inl ⟨by omega, rfl⟩))
  · exact .inr (.inr (.inr (.inl ⟨by omega, rfl⟩)))
  · exact .inr (.inr (.inr (.inr (.inl ⟨by omega, rfl⟩))))
  · exact .inr (.inr (.inr (.inr (.inr (.inl ⟨by omega, rfl⟩)))))
  · exact .inr (.inr (.inr (.inr (.inr (.inr (.inl ⟨by omega, rfl⟩))))))
  · exact .inr (.inr (.inr (.inr (.inr (.inr (.inr ⟨by omega, rfl⟩))))))

/-- Below the program RAM and in the sine table, what a row of the map reads as is the value of the table. -/
theorem MapsTo.busValue {s : State} {a : Nat} {T : Target} (h : MapsTo s.sramLog2 a T)
    (ha : a < 0x1000 ∨ 0x2000 ≤ a ∧ a < 0x3000) : BusValue s a (s.readTarget T) := by
  cases h
  case global i hi => exact busValue_global s hi
  case xReg r =>
    unfold BusValue
    iterate 16 apply Or.inr
    exact .inl ⟨r, rfl, rfl⟩
  case dcb u o f ho hf => exact busValue_dcb s u ho hf
  case dmp u o ho => exact busValue_dmp s u ho
  case ch j o ho => exact busValue_ch s j ho
  case sine i hi =>
    unfold BusValue
    iterate 21 apply Or.inr
    exact .inl ⟨i, hi, rfl, rfl⟩
  case prog i hi => omega
  case sram w hw => omega

/-- Settles O12: the table's value is the model's read (`BusValue.readTarget`), at an address the map reaches; each row but
the RAMs' has a value. -/
theorem hostReadsReturnTheMap : Obligations.HostReadsReturnTheMap := by
  refine ⟨fun s a v rest hs hi hv => ?_, fun s a v hv => ?_, fun s a hm ha => ?_⟩
  · exact step_read_idle hs hi hv.readTarget
  · obtain ⟨h4, T, hT, -⟩ := hv.readTarget
    exact (mapAligned_isSome_iff _ a).1 ⟨h4, T, hT⟩
  · obtain ⟨T, hT⟩ := hm.mapsTo
    exact ⟨_, hT.busValue ha⟩

/-! ## What mapped writes store -/

theorem storesWord_writeWord (s : State) (a : Nat) (v : Word) : StoresWord s (s.writeWord a v) a v :=
  ⟨s.readWord_writeWord a v, s.readByte_writeWord a v, rfl⟩

/-- A write to a global register but CTRL and STATUS. -/
theorem busStore_global (s : State) {i : Nat} (v : Word) (h2 : 2 ≤ i) (hi : i ≤ 15) :
    BusStore s (s.writeTarget (globalTarget i) v) (4 * i) v := by
  unfold BusStore
  interval_cases i <;> simp [globalTarget, State.writeTarget, State.writeIrqen]

/-- A write to a register of DCB[u]. -/
theorem busStore_dcb (s : State) (u : DcbIx) {o : Nat} {f : DcbField} (v : Word) (ho : o < 3) (hf : dcbField o = some f) :
    BusStore s (s.writeTarget (.dcb u f) v) (0x80 + 0x10 * u.toNat + 4 * o) v := by
  unfold BusStore
  iterate 10 apply Or.inr
  refine .inl ⟨u, ?_⟩
  interval_cases o <;> cases hf
  · exact .inl ⟨rfl, rfl⟩
  · exact .inr (.inl ⟨by omega, rfl⟩)
  · exact .inr (.inr ⟨by omega, rfl⟩)

/-- A write to a register of DMP[u]. -/
theorem busStore_dmp (s : State) (u : DampIx) {o : Nat} (v : Word) (ho : o < 4) :
    BusStore s (s.writeTarget (.dmp u (dmpField o)) v) (0x100 + 0x10 * u.toNat + 4 * o) v := by
  unfold BusStore
  iterate 11 apply Or.inr
  refine .inl ⟨u, ?_⟩
  interval_cases o
  · exact .inl ⟨rfl, rfl⟩
  · exact .inr (.inl ⟨by omega, rfl⟩)
  · exact .inr (.inr (.inl ⟨by omega, rfl⟩))
  · exact .inr (.inr (.inr ⟨by omega, rfl⟩))

/-- A write to a register of CH[j]. -/
theorem busStore_ch (s : State) (j : Chan) {o : Nat} (v : Word) (ho : o < 8) :
    BusStore s (s.writeTarget (.ch j (chField o)) v) (0x400 + 0x20 * j.toNat + 4 * o) v := by
  unfold BusStore
  iterate 12 apply Or.inr
  refine .inl ⟨j, ?_⟩
  interval_cases o
  · exact .inl ⟨rfl, rfl⟩
  · exact .inr (.inl ⟨by omega, rfl⟩)
  · exact .inr (.inr (.inl ⟨by omega, rfl⟩))
  · exact .inr (.inr (.inr (.inl ⟨by omega, rfl⟩)))
  · exact .inr (.inr (.inr (.inr (.inl ⟨by omega, rfl⟩))))
  · exact .inr (.inr (.inr (.inr (.inr (.inl ⟨by omega, rfl⟩)))))
  · exact .inr (.inr (.inr (.inr (.inr (.inr (.inl ⟨by omega, rfl⟩))))))
  · exact .inr (.inr (.inr (.inr (.inr (.inr (.inr ⟨by omega, rfl⟩))))))

/-- A write to what the map names only stores, but for CTRL and STATUS (20_memory.md R82, R85). -/
theorem MapsTo.busStore {s : State} {a : Nat} {T : Target} (h : MapsTo s.sramLog2 a T) (v : Word) (h0 : a ≠ 0)
    (h1 : a ≠ 4) : BusStore s (s.writeTarget T v) a v := by
  cases h
  case global i hi => exact busStore_global s v (by omega) hi
  case xReg r =>
    unfold BusStore
    iterate 9 apply Or.inr
    exact .inl ⟨r, rfl, rfl⟩
  case dcb u o f ho hf => exact busStore_dcb s u v ho hf
  case dmp u o ho => exact busStore_dmp s u v ho
  case ch j o ho => exact busStore_ch s j v ho
  case prog i hi =>
    unfold BusStore
    iterate 13 apply Or.inr
    exact .inl ⟨i, hi, rfl, storesWord_writeWord s _ v⟩
  case sine i hi =>
    unfold BusStore
    iterate 14 apply Or.inr
    exact .inl ⟨i, hi, rfl, rfl⟩
  case sram w hw =>
    unfold BusStore
    iterate 15 apply Or.inr
    have ha : s.sramAddr w = 0x400000 + 4 * w := by
      rw [State.sramAddr, Nat.mod_eq_of_lt hw]; rfl
    exact ⟨w, hw, rfl, ha ▸ storesWord_writeWord s _ v⟩

/-- Settles O13: an idle block takes the write, which stores what its row of the map says. -/
theorem hostWritesStore : Obligations.HostWritesStore := by
  intro s a v rest hs hi hm h0 h1
  obtain ⟨T, hT⟩ := hm.mapsTo
  obtain ⟨h4, hmap⟩ := hT.reaches
  have hne : ∀ b : Word, a ≠ b → a.toNat ≠ b.toNat := fun b h he => h (BitVec.eq_of_toNat_eq he)
  exact ⟨_, step_write_idle hs hi h4 hmap, MapsTo.busStore (s := { s with inbox := rest }) hT v (hne _ h0) (hne _ h1)⟩

/-! ## What mapped writes ignore -/

/-- A write to a read-only register or to the sine table changes nothing (20_memory.md R85). -/
theorem MapsTo.writeTarget_ignored {k a : Nat} {T : Target} (h : MapsTo k a T) (s : State) (v : Word)
    (ha : a ∈ [0x0C, 0x10, 0x14, 0x18, 0x1C, 0x3C] ∨ 0x2000 ≤ a ∧ a < 0x3000) : s.writeTarget T v = s := by
  simp only [List.mem_cons, List.not_mem_nil, or_false] at ha
  cases h
  case global i hi =>
    obtain rfl | rfl | rfl | rfl | rfl | rfl : i = 3 ∨ i = 4 ∨ i = 5 ∨ i = 6 ∨ i = 7 ∨ i = 15 := by omega
    all_goals rfl
  case sine i hi => rfl
  all_goals omega

/-- Two words that agree under a mask agree in its bits. -/
theorem getLsbD_eq_of_and_eq {v u m : Word} (h : v &&& m = u &&& m) {n : Nat} (hn : m.getLsbD n = true) :
    v.getLsbD n = u.getLsbD n := by
  simpa [hn] using congrArg (·.getLsbD n) h

/-- CTRL takes bits 2:0 (10_state.md R35). -/
theorem State.writeCtrl_congr (s : State) {v u : Word} (h : v &&& 0x7#32 = u &&& 0x7#32) :
    s.writeCtrl v = s.writeCtrl u := by
  simp only [State.writeCtrl, getLsbD_eq_of_and_eq h (n := 0) rfl, getLsbD_eq_of_and_eq h (n := 1) rfl,
    getLsbD_eq_of_and_eq h (n := 2) rfl]

/-- STATUS takes bits 4:2 (10_state.md R36). -/
theorem State.writeStatus_congr (s : State) {v u : Word} (h : v &&& 0x1C#32 = u &&& 0x1C#32) :
    s.writeStatus v = s.writeStatus u := by
  simp only [State.writeStatus, getLsbD_eq_of_and_eq h (n := 2) rfl, getLsbD_eq_of_and_eq h (n := 3) rfl,
    getLsbD_eq_of_and_eq h (n := 4) rfl]

/-- IRQEN takes bits 4:2 (10_state.md R37). -/
theorem State.writeIrqen_congr (s : State) {v u : Word} (h : v &&& 0x1C#32 = u &&& 0x1C#32) :
    s.writeIrqen v = s.writeIrqen u := by
  simp only [State.writeIrqen, getLsbD_eq_of_and_eq h (n := 2) rfl, getLsbD_eq_of_and_eq h (n := 3) rfl,
    getLsbD_eq_of_and_eq h (n := 4) rfl]

/-- TAP_SGN takes bits 15:0 (10_state.md R46). -/
theorem State.writeTapSgn_congr (s : State) {v u : Word} (h : v &&& 0xFFFF#32 = u &&& 0xFFFF#32) :
    s.writeTarget .tapSgn v = s.writeTarget .tapSgn u := by
  have hmask : ∀ n < 16, (0xFFFF#32).getLsbD n = true := by decide
  have hlow : v.setWidth 16 = u.setWidth 16 := BitVec.eq_of_getLsbD_eq fun n hn => by
    simp [hn, getLsbD_eq_of_and_eq h (hmask n hn)]
  simp only [State.writeTarget, hlow]

/-- BSIGN takes bit 0 (10_state.md R47). -/
theorem State.writeBsign_congr (s : State) {v u : Word} (h : v &&& 0x1#32 = u &&& 0x1#32) :
    s.writeTarget .bsign v = s.writeTarget .bsign u := by
  simp only [State.writeTarget, getLsbD_eq_of_and_eq h (n := 0) rfl]

/-- Two words a target takes alike make the same step. -/
theorem step_write_congr {s : State} {a v u : Word} {rest : List HostEvent} {T : Target} (hs : s.seq = .idle)
    (hi : s.inbox = .write a 32 v :: rest) (h4 : a.toNat % 4 = 0) (hT : mapAligned s.sramLog2 a.toNat = some T)
    (he : State.writeTarget { s with inbox := rest } T v = State.writeTarget { s with inbox := rest } T u) :
    step s = step { s with inbox := .write a 32 u :: rest } := by
  rw [step_write_idle hs hi h4 hT, he]
  exact (step_write_idle (s := { s with inbox := .write a 32 u :: rest }) hs rfl h4 hT).symm

/-- A write to word o of CH[j] (10_state.md R51 to R58). -/
theorem step_write_ch {s : State} {a v : Word} {rest : List HostEvent} (hs : s.seq = .idle)
    (hi : s.inbox = .write a 32 v :: rest) {j : Nat} (hj : j < 32) {o : Nat} (ho : o < 8)
    (ha : a.toNat = 0x400 + 0x20 * j + 4 * o) :
    step s = .next (State.setCh { s with inbox := rest } (BitVec.ofNat 5 j)
      ((s.getCh (BitVec.ofNat 5 j)).writeField s.sramLog2 (chField o) v)) := by
  have hrow := MapsTo.ch (k := s.sramLog2) (BitVec.ofNat 5 j) o ho
  rw [BitVec.toNat_ofNat, Nat.mod_eq_of_lt hj, ← ha] at hrow
  exact step_write_idle hs hi hrow.reaches.1 hrow.reaches.2

/-- Settles O11: an idle block takes the access, and each clause is what the write does to the row's target. -/
theorem mappedAccessIsNeverRefused : Obligations.MappedAccessIsNeverRefused := by
  intro s a rest hs hm
  obtain ⟨T, hT⟩ := hm.mapsTo
  obtain ⟨h4, hmap⟩ := hT.reaches
  refine ⟨fun hi => ?_, fun v hi => ?_, fun v hi ha => ?_, fun v u m hi hmem hv => ?_, fun v j hj hi => ?_⟩
  · exact ⟨s.readTarget T, step_read_idle hs hi ⟨h4, T, hmap, rfl⟩⟩
  · obtain ⟨-, -, hb⟩ := State.writeTarget_setsNoStatusBit { s with inbox := rest } T v
    obtain ⟨-, -, -, haddr⟩ := State.writeTarget_readOnly { s with inbox := rest } T v
    exact ⟨_, step_write_idle hs hi h4 hmap, hb, haddr⟩
  · rw [step_write_idle hs hi h4 hmap, hT.writeTarget_ignored _ v ha]
  · simp only [List.mem_cons, List.not_mem_nil, or_false, Prod.mk.injEq] at hmem
    have hstep {T : Target} := step_write_congr (T := T) (u := u) hs hi h4
    obtain ⟨ha, rfl⟩ | ⟨ha, rfl⟩ | ⟨ha, rfl⟩ | ⟨ha, rfl⟩ | ⟨ha, rfl⟩ := hmem
    · exact hstep (T := .ctrl) (by rw [ha]; rfl) (State.writeCtrl_congr _ hv)
    · exact hstep (T := .status) (by rw [ha]; rfl) (State.writeStatus_congr _ hv)
    · exact hstep (T := .irqen) (by rw [ha]; rfl) (State.writeIrqen_congr _ hv)
    · exact hstep (T := .tapSgn) (by rw [ha]; rfl) (State.writeTapSgn_congr _ hv)
    · exact hstep (T := .bsign) (by rw [ha]; rfl) (State.writeBsign_congr _ hv)
  · refine ⟨fun ha => ?_, fun ha => ?_, fun ha => ?_⟩
    · exact step_write_ch hs hi hj (o := 0) (by decide) ha
    · exact step_write_ch hs hi hj (o := 1) (by decide) (by omega)
    · exact step_write_ch hs hi hj (o := 2) (by decide) (by omega)

/-! ## Who writes the program RAM -/

/-- A write that changes a byte below the sample RAM is to the program word that holds the byte. -/
theorem State.writeTarget_programByte {s : State} {T : Target} {v : Word} {a : Nat} (ha : a < 0x400000)
    (hne : (s.writeTarget T v).readByte a ≠ s.readByte a) : ∃ i, T = .prog i ∧ progAddr i ≤ a ∧ a < progAddr i + 4 := by
  cases T
  case ctrl =>
    obtain ⟨f, q, n, h⟩ := s.writeCtrl_changes v
    rw [State.writeTarget, h] at hne
    exact absurd rfl hne
  case prog i =>
    refine ⟨i, rfl, ?_⟩
    by_contra hout
    exact hne (s.readByte_writeWord _ v a (by omega))
  case sram w =>
    exact absurd (s.readByte_writeWord _ v a (.inl (lt_of_lt_of_le ha (s.sramAddr_ge w)))) hne
  all_goals exact absurd rfl hne

theorem MapsTo.eq_progAddr {k a i : Nat} (h : MapsTo k a (.prog i)) : a = progAddr i := by
  generalize hT : Target.prog i = T at h
  cases h
  case global n _ => exact absurd hT.symm (globalTarget_ne_prog n i)
  case prog n _ => cases hT; rfl
  all_goals cases hT

/-- The address at which the bus reaches a program word (20_memory.md R82). -/
theorem State.busTarget_prog_address {s : State} {b : Word} {bits i : Nat} (h : s.busTarget b bits = some (.prog i)) :
    bits = 32 ∧ b.toNat = progAddr i ∧ i < Config.progWords := by
  have hi := State.busTarget_eq_prog h
  unfold State.busTarget at h
  split at h
  · next hb =>
    obtain ⟨hbits, h4⟩ := hb
    exact ⟨hbits, (mapsTo_of_mapAligned h4 h).eq_progAddr, hi⟩
  · cases h

/-- Settles O59: among the effects of a step only a write to a program word changes a byte below the sample RAM; PREPARE
and the instructions keep what is there. -/
theorem onlyTheHostWritesTheProgram : Obligations.OnlyTheHostWritesTheProgram := by
  intro s t a h ha hne
  obtain ⟨rest, hi, -⟩ | he := step_effect h
  · exact .inl ⟨rest, hi⟩
  right
  cases he
  case write b bits v T rest hi hs hT =>
    obtain ⟨i, rfl, hlo, hhi⟩ := State.writeTarget_programByte (s := { s with inbox := rest }) ha hne
    obtain ⟨rfl, hb, hi256⟩ := State.busTarget_prog_address hT
    simp only [progAddr, Config.progBase, Config.progWords] at hlo hhi hb hi256
    exact ⟨hs, b, v, rest, hi, by omega, by omega, by omega, by omega⟩
  case prepare g rest hs =>
    have hbyte := State.readByte_clearAudio_program { s with inbox := rest } a ha
    cases g <;> exact absurd hbyte hne
  case run i rest hs hpc hw hend hx =>
    exact absurd ((keeps_of_exec hw hend hx).1.prog a ha) hne
  all_goals exact absurd rfl hne

end Sys2Proof.Machine
end

section
/-! SUPPORT. Decoding and encoding are inverse to each other (30_encoding.md R111 to R115): the word an
instruction encodes to reads as the instruction, and a word is the fixed bits of its row of the opcode map and the fields
that are read from it. -/

namespace Sys2Proof

/-! ## A decoded word -/

/-- A word decodes to the instruction its fields read as, if it matches that instruction's row and the instruction is
well-formed (30_encoding.md R113). -/
theorem decodeWord_eq_ok_iff {w : Word} {i : Instr} :
    decodeWord w = .ok i ↔ readFields w = some i ∧ w &&& rowMask i = rowMatch i ∧ i.wellFormed = true := by
  refine ⟨fun h => ?_, fun ⟨hr, hm, hwf⟩ => decodeWord_of_readFields hr hm hwf⟩
  have hwf := wellFormed_of_decodeWord h
  unfold decodeWord at h
  split at h
  · cases h
  · next j hr =>
    split at h
    · next hm =>
      split at h
      · cases h
        exact ⟨hr, hm, hwf⟩
      · cases h
    · cases h

/-! ## From an instruction to its word and back -/

/-- The word of an instruction matches the instruction's row of the opcode map (30_encoding.md R115). -/
theorem encode_and_rowMask (i : Instr) : encode i &&& rowMask i = rowMatch i := by
  cases i
  case nop => exact Laws.EncodeMatches.nop
  case endFrame => exact Laws.EncodeMatches.endFrame
  case skip => exact Laws.EncodeMatches.skip _ _
  case mov => exact Laws.EncodeMatches.mov _ _
  case ldkh => exact Laws.EncodeMatches.ldkh _ _
  case fadd => exact Laws.EncodeMatches.fadd _ _ _
  case fsub => exact Laws.EncodeMatches.fsub _ _ _
  case fmul => exact Laws.EncodeMatches.fmul _ _ _
  case dlwr => exact Laws.EncodeMatches.dlwr _ _
  case dlrd => exact Laws.EncodeMatches.dlrd _ _ _
  case dlrdm => exact Laws.EncodeMatches.dlrdm _ _
  case lfo => exact Laws.EncodeMatches.lfo _ _
  case ap => exact Laws.EncodeMatches.ap _ _ _
  case apc => exact Laws.EncodeMatches.apc _ _ _ _
  case damp => exact Laws.EncodeMatches.damp _ _ _
  case had16 => exact Laws.EncodeMatches.had16
  case sclip => exact Laws.EncodeMatches.sclip _ _
  case width => exact Laws.EncodeMatches.width _ _
  case dcb => exact Laws.EncodeMatches.dcb _ _ _
  case fdn => exact Laws.EncodeMatches.fdn _ _

/-- The fields of the word of an instruction are the instruction's operands, whether it is well-formed or not. -/
theorem readFields_encode (i : Instr) : readFields (encode i) = some i := by
  unfold readFields
  cases i
  case skip cond n8 => simp [encode, formatS_op, formatS_cond, formatS_n8]
  case ldkh xd imm16 => simp [encode, fieldXd, formatK_op, formatK_xd, formatK_imm16]
  case damp xd u xs => simp [encode, fieldXd, fieldXs, formatA_op, formatA_xd, formatA_xs, formatA_u]
  case dcb xd u xs => simp [encode, fieldXd, fieldXs, formatA_op, formatA_xd, formatA_xs, formatA_dcb]
  all_goals
    simp [encode, fieldXd, fieldXs, fieldXt, fieldCh, formatA_op, formatA_xd, formatA_xs, formatA_xt, formatA_ch,
      formatA_n]

theorem decodeWord_encode {i : Instr} (hwf : i.wellFormed = true) : decodeWord (encode i) = .ok i :=
  decodeWord_of_readFields (readFields_encode i) (encode_and_rowMask i) hwf

theorem decodeBytes_encodeBytes {i : Instr} (hwf : i.wellFormed = true) (rest : List Byte) :
    decodeBytes (encodeBytes i ++ rest) = .ok (i, rest) := by
  simp only [encodeBytes, List.cons_append, List.nil_append, decodeBytes, Machine.wordOfBytes_byteLanes,
    decodeWord_encode hwf]

/-- Settles O1: the word's fields are the operands and its fixed bits the row's, and its byte lanes make up the word. -/
theorem decodeOfEncode : Obligations.DecodeOfEncode := by
  intro i rest hwf
  exact ⟨decodeWord_encode hwf, decodeBytes_encodeBytes hwf rest⟩

/-! ## From a word to its instruction and back -/

/-- A field that a mask covers has the value that the masked word has there. -/
theorem wordField_of_masked {w mask val : Word} {lo n : Nat} {v : BitVec n} (hm : w &&& mask = val)
    (hmask : wordField mask lo n = BitVec.allOnes n := by decide) (hval : wordField val lo n = v := by decide) :
    wordField w lo n = v := by
  have hand : wordField (w &&& mask) lo n = wordField w lo n &&& wordField mask lo n := BitVec.extractLsb'_and
  rw [← hval, ← hm, hand, hmask, BitVec.and_allOnes]

/-- Two fields side by side are one field. -/
theorem wordField_append (w : Word) (lo m n : Nat) :
    wordField w (lo + n) m ++ wordField w lo n = wordField w lo (m + n) :=
  BitVec.extractLsb'_append_extractLsb'_eq_extractLsb' rfl

/-- A word is the format A word of its fields (30_encoding.md R111). -/
theorem formatA_eq {w : Word} {op : BitVec 6} {xd xs xt : XReg} {ch : BitVec 5} {n : BitVec 3}
    (hop : wordField w 26 6 = op) (hxd : fieldXd w = xd) (hxs : fieldXs w = xs) (hxt : fieldXt w = xt)
    (hch : fieldCh w = ch) (hn : wordField w 6 3 = n) (hlow : wordField w 0 6 = 0#6) : formatA op xd xs xt ch n = w := by
  subst hop hxd hxs hxt hch hn
  exact (hlow ▸ word_formatA w).symm

/-- A word is the format S word of its fields (30_encoding.md R111). -/
theorem formatS_eq {w : Word} {op : BitVec 6} (hop : wordField w 26 6 = op) (hmid : wordField w 8 16 = 0#16) :
    formatS op (wordField w 24 2) (wordField w 0 8) = w := by
  subst hop
  exact (hmid ▸ word_formatS w).symm

/-- A word is the format K word of its fields (30_encoding.md R111). -/
theorem formatK_eq {w : Word} {op : BitVec 6} (hop : wordField w 26 6 = op) (hmid : wordField w 16 6 = 0#6) :
    formatK op (fieldXd w) (wordField w 0 16) = w := by
  subst hop
  exact (hmid ▸ word_formatK w).symm

/-- A word that matches the row of the instruction its fields read as is that instruction's word. Each operand of the
instruction is a field of the word (`rfl`); the row's mask covers the other fields. -/
theorem encode_of_readFields {w : Word} {i : Instr} (hr : readFields w = some i)
    (hm : w &&& rowMask i = rowMatch i) : encode i = w := by
  unfold readFields at hr
  split at hr <;> cases hr <;> simp only [rowMask, rowMatch] at hm
  -- SKIP and LDKH have formats of their own
  case h_3 => refine formatS_eq ?_ ?_ <;> exact wordField_of_masked hm
  case h_5 => refine formatK_eq ?_ ?_ <;> exact wordField_of_masked hm
  -- NOP, END, HAD16
  case h_1 | h_2 | h_16 => refine formatA_eq ?_ ?_ ?_ ?_ ?_ ?_ ?_ <;> exact wordField_of_masked hm
  -- MOV, SCLIP, WIDTH, FDN
  case h_4 | h_17 | h_18 | h_20 => refine formatA_eq ?_ rfl rfl ?_ ?_ ?_ ?_ <;> exact wordField_of_masked hm
  -- FADD, FSUB, FMUL
  case h_6 | h_7 | h_8 => refine formatA_eq ?_ rfl rfl rfl ?_ ?_ ?_ <;> exact wordField_of_masked hm
  -- DLWR
  case h_9 => refine formatA_eq ?_ ?_ rfl ?_ rfl ?_ ?_ <;> exact wordField_of_masked hm
  -- DLRD, AP
  case h_10 | h_13 => refine formatA_eq ?_ rfl rfl ?_ rfl ?_ ?_ <;> exact wordField_of_masked hm
  -- DLRDM, LFO
  case h_11 | h_12 => refine formatA_eq ?_ rfl ?_ ?_ rfl ?_ ?_ <;> exact wordField_of_masked hm
  -- APC
  case h_14 => refine formatA_eq ?_ rfl rfl ?_ rfl rfl ?_ <;> exact wordField_of_masked hm
  -- DAMP and DCB: the operand is the low part of the field ch, and the row fixes the rest of it
  case h_15 =>
    have hu : fieldCh w = 0#1 ++ wordField w 9 4 :=
      (wordField_append w 9 1 4).symm.trans (congrArg (· ++ _) (wordField_of_masked hm))
    refine formatA_eq ?_ rfl rfl ?_ hu ?_ ?_ <;> exact wordField_of_masked hm
  case h_19 =>
    have hu : fieldCh w = 0#4 ++ wordField w 9 1 :=
      (wordField_append w 9 4 1).symm.trans (congrArg (· ++ _) (wordField_of_masked hm))
    refine formatA_eq ?_ rfl rfl ?_ hu ?_ ?_ <;> exact wordField_of_masked hm

/-- Settles O2: the word matches the row of what it decodes to. -/
theorem encodeOfDecode : Obligations.EncodeOfDecode := by
  intro w i h
  obtain ⟨hr, hm, hwf⟩ := decodeWord_eq_ok_iff.1 h
  exact ⟨hwf, encode_of_readFields hr hm⟩

/-! ## Legal words -/

/-- Every instruction's row stands in the opcode map (30_encoding.md R115). -/
theorem row_mem_opcodeMap (i : Instr) : (rowMatch i, rowMask i) ∈ Machine.opcodeMap := by
  cases i <;> simp [Machine.opcodeMap, rowMatch, rowMask]

/-- The converse of `wellFormed_of_readFields`: a word read as a well-formed instruction meets its extra condition. -/
theorem extraCondition_of_readFields {w : Word} {i : Instr} (hr : readFields w = some i) (hwf : i.wellFormed = true) :
    Machine.extraCondition w := by
  constructor
  · intro hop
    simp only [readFields, opcode_toNat, hop, Option.some.injEq] at hr
    subst hr
    have hne : wordField w 24 2 ≠ 3#2 := by simpa [Instr.wellFormed] using hwf
    exact fun h3 => hne (BitVec.eq_of_toNat_eq ((wordField_toNat w 24 2).trans h3))
  · intro hop
    simp only [readFields, opcode_toNat, hop, Option.some.injEq] at hr
    subst hr
    simp only [Instr.wellFormed, fieldCh, wordField_toNat, decide_eq_true_eq] at hwf
    exact hwf

/-- The words that decode are the legal ones (30_encoding.md R113). -/
theorem exists_decodeWord_eq_ok_iff (w : Word) : (∃ i, decodeWord w = .ok i) ↔ Machine.LegalWord w := by
  refine ⟨fun ⟨i, h⟩ => ?_, decodeWord_of_legal⟩
  obtain ⟨hr, hm, hwf⟩ := decodeWord_eq_ok_iff.1 h
  exact ⟨⟨_, row_mem_opcodeMap i, hm⟩, extraCondition_of_readFields hr hwf⟩

/-- A word that is no legal word is rejected. -/
theorem decodeWord_error_of_not_legal {w : Word} (h : ¬ Machine.LegalWord w) : ∃ e, decodeWord w = .error e := by
  cases hd : decodeWord w with
  | error e => exact ⟨e, rfl⟩
  | ok i => exact absurd ((exists_decodeWord_eq_ok_iff w).1 ⟨i, hd⟩) h

/-- A word matches one row at most: the rows it matches have its opcode, and the opcode gives the instruction whose row
they are. -/
theorem row_unique {w : Word} {r q : Word × Word} (hr : r ∈ Machine.opcodeMap) (hq : q ∈ Machine.opcodeMap)
    (hwr : w &&& r.2 = r.1) (hwq : w &&& q.2 = q.1) : r = q := by
  obtain ⟨i, hi, himatch, himask⟩ := readFields_of_row hr (opcode_of_row hr hwr)
  obtain ⟨j, hj, hjmatch, hjmask⟩ := readFields_of_row hq (opcode_of_row hq hwq)
  obtain rfl : i = j := Option.some.inj (hi.symm.trans hj)
  exact Prod.ext (himatch.symm.trans hjmatch) (himask.symm.trans hjmask)

/-- An illegal program word aborts a running frame (60_exceptions.md R272). -/
theorem Machine.State.sequence_illegal {u : Machine.State} {w : Word} (hs : u.seq = .running) (hp : u.pc < 256)
    (hw : u.pRead u.pc = some w) (hl : ¬ Machine.LegalWord w) : u.sequence.answer = .next (u.raiseIllegal w) := by
  obtain ⟨e, he⟩ := decodeWord_error_of_not_legal hl
  have hin : ¬ Config.progWords ≤ u.pc := Nat.not_le.2 hp
  simp only [State.sequence, hs, State.fetch, if_neg hin, hw, he, Action.answer]

/-- Settles O3: a row fixes the opcode and the opcode the instruction, and a word with no instruction aborts the frame. -/
theorem legalWordsAreTheInstructions : Obligations.LegalWordsAreTheInstructions := by
  refine ⟨exists_decodeWord_eq_ok_iff, fun w r hr q hq => row_unique hr hq, fun s w hi hs hp hw hl => ?_⟩
  exact ⟨s.raiseIllegal w, (Machine.step_inbox_nil hi).trans (Machine.State.sequence_illegal hs hp hw hl), rfl, rfl⟩

/-- Settles O4: the decoder evaluates each of the words. -/
theorem specWordsDecode : Obligations.SpecWordsDecode := by
  unfold Obligations.SpecWordsDecode
  decide

end Sys2Proof
end

section
/-! SUPPORT. The frame sequencer: what one step of a running frame does with the word at its pc, and that a frame ends
(40_control.md R140, R141). -/

namespace Sys2Proof.Machine

/-! ## The word at the pc -/

/-- Four bytes that have values make up the word at the lowest address (20_memory.md R83). -/
theorem State.readWord_of_bytes {s : State} {a : Nat} {b0 b1 b2 b3 : Byte} (h0 : s.readByte a = some b0)
    (h1 : s.readByte (a + 1) = some b1) (h2 : s.readByte (a + 2) = some b2) (h3 : s.readByte (a + 3) = some b3) :
    s.readWord a = some (wordOfBytes b0 b1 b2 b3) := by
  unfold State.readByte at h0 h1 h2 h3
  simp only [State.readWord, Memory.readWord, h0, h1, h2, h3]

/-- A word reads as in another state when its four bytes do. -/
theorem State.readWord_congr {s t : State} {a : Nat} (h : ∀ b, a ≤ b → b < a + 4 → t.readByte b = s.readByte b) :
    t.readWord a = s.readWord a := by
  unfold State.readByte at h
  simp only [State.readWord, Memory.readWord, h a (by omega) (by omega), h (a + 1) (by omega) (by omega),
    h (a + 2) (by omega) (by omega), h (a + 3) (by omega) (by omega)]

/-- Four bytes decode as the word they make up. -/
theorem decodeWord_of_decodeBytes {b0 b1 b2 b3 : Byte} {i : Instr} (h : decodeBytes [b0, b1, b2, b3] = .ok (i, [])) :
    decodeWord (wordOfBytes b0 b1 b2 b3) = .ok i := by
  simp only [decodeBytes] at h
  split at h
  · next j hj =>
    cases h
    exact hj
  · cases h

/-! ## A step of a running frame -/

/-- Settles O5: the bytes at the pc are the word fetched, and neither a pause taken nor a waiting access changes that. -/
theorem stepRunsDecodedInstruction : Obligations.StepRunsDecodedInstruction := by
  intro s b0 b1 b2 b3 i hs hp h0 h1 h2 h3 hd
  have hword : s.pRead s.pc = some (wordOfBytes b0 b1 b2 b3) := State.readWord_of_bytes h0 h1 h2 h3
  have hd := decodeWord_of_decodeBytes hd
  have hrun : s.sequence.answer = exec i s := State.sequence_run hs hp hword hd
  refine ⟨fun hi => ?_, fun rest hi => ?_, fun e rest he hi => ?_⟩
  · exact (step_inbox_nil hi).trans hrun
  · exact (step_pass hi).trans (State.sequence_run (u := { s with inbox := rest }) hs hp hword hd)
  · have hbusy : s.seq ≠ .idle := by simp [hs]
    exact (step_waits hi (State.mustWait_of_otherAccess hbusy he)).trans hrun

/-- Past the last program word the frame ends (40_control.md R140, R141). -/
theorem State.sequence_pastEnd {u : State} (hs : u.seq = .running) (hp : 256 ≤ u.pc) :
    u.sequence.answer = .next u.endFrame := by
  have hout : Config.progWords ≤ u.pc := hp
  simp only [State.sequence, hs, State.fetch, if_pos hout, Action.answer]

/-- With nothing from the host, a step past the last program word ends the frame. -/
theorem step_pastEnd {s : State} (hi : s.inbox = []) (hs : s.seq = .running) (hp : 256 ≤ s.pc) :
    step s = .next s.endFrame := (step_inbox_nil hi).trans (State.sequence_pastEnd hs hp)

/-- The fetch of a word not written since reset stops the model (70_reset_and_hazards.md R302). -/
theorem State.sequence_unwritten {u : State} (hs : u.seq = .running) (hp : u.pc < 256) (hw : u.pRead u.pc = none) :
    u.sequence.answer = .fault (.fetchUnwritten u.pc) := by
  have hin : ¬ Config.progWords ≤ u.pc := Nat.not_le.2 hp
  simp only [State.sequence, hs, State.fetch, if_neg hin, hw, Action.answer]

/-- Settles O7: the two edges of the fetch. -/
theorem fetchAtTheEdges : Obligations.FetchAtTheEdges := by
  refine ⟨fun s hi hs hp => ?_, fun s hi hs hp hw => ?_⟩
  · exact step_pastEnd hi hs hp
  · exact (step_inbox_nil hi).trans (State.sequence_unwritten hs hp hw)

/-! ## The end of a frame -/

/-- The host has written every word of the program RAM. -/
def State.ProgramWritten (s : State) : Prop := ∀ i, i < 256 → ∃ w, s.pRead i = some w

/-- A frame that was running in s has ended in t, counted once (40_control.md R141). -/
def FrameEnded (s t : State) : Prop := t.seq = .idle ∧ t.done = true ∧ t.frames = s.frames + 1#32

/-- At most k steps end the frame. -/
def FrameEndsWithin (k : Nat) (s : State) : Prop := ∃ n t, n ≤ k ∧ core.run n s = .next t ∧ FrameEnded s t

/-- An instruction leaves the program words as they are. -/
theorem Keeps.pRead {s t : State} (h : Keeps s t) {i : Nat} (hi : i < 256) : t.pRead i = s.pRead i := by
  refine State.readWord_congr fun b _ hb => h.prog b ?_
  have hend : progAddr i + 4 ≤ 0x1400 := by
    unfold progAddr Config.progBase
    omega
  omega

theorem Keeps.programWritten {s t : State} (h : Keeps s t) (hp : s.ProgramWritten) : t.ProgramWritten := by
  intro i hi
  rw [h.pRead hi]
  exact hp i hi

/-- A run takes its first step first. -/
theorem core_run_succ {s u : State} (h : step s = .next u) (k : Nat) : core.run (k + 1) s = core.run k u := by
  have hstep : core.step s = .next u := h
  simp only [Host.Core.run, hstep]

theorem FrameEndsWithin.of_end {s t : State} {k : Nat} (h : step s = .next t) (he : FrameEnded s t) :
    FrameEndsWithin (k + 1) s :=
  ⟨1, t, by omega, core_run_succ h 0, he⟩

theorem FrameEndsWithin.of_step {s u : State} {k : Nat} (h : step s = .next u) (hf : u.frames = s.frames)
    (hu : FrameEndsWithin k u) : FrameEndsWithin (k + 1) s := by
  obtain ⟨n, t, hn, hrun, he⟩ := hu
  unfold FrameEnded at he
  rw [hf] at he
  exact ⟨n + 1, t, by omega, (core_run_succ h n).trans hrun, he⟩

/-- A step of a running frame ends it, past the last word, by END or by an abort, or executes an instruction that moves
the pc on. -/
theorem step_running_cases {s : State} (hs : s.seq = .running) (hi : s.inbox = []) (hp : s.ProgramWritten) :
    (∃ t, step s = .next t ∧ FrameEnded s t) ∨
      (s.pc < 256 ∧ ∃ t, step s = .next t ∧ Keeps s t ∧ s.pc < t.pc) := by
  rw [step_inbox_nil hi]
  by_cases hpc : 256 ≤ s.pc
  · exact .inl ⟨s.endFrame, State.sequence_pastEnd hs hpc, rfl, rfl, rfl⟩
  rw [not_le] at hpc
  obtain ⟨w, hw⟩ := hp s.pc hpc
  by_cases hl : LegalWord w
  · obtain ⟨i, hd⟩ := decodeWord_of_legal hl
    rw [State.sequence_run hs hpc hw hd]
    by_cases he : i = .endFrame
    · subst he
      exact .inl ⟨s.endFrame, rfl, rfl, rfl, rfl⟩
    · obtain ⟨t, hx, hk, hlt, -⟩ := exec_keeps i s (wellFormed_of_decodeWord hd) he
      exact .inr ⟨hpc, t, hx, hk, hlt⟩
  · exact .inl ⟨s.raiseIllegal w, State.sequence_illegal hs hpc hw hl, rfl, rfl, rfl⟩

/-- With k words between the pc and the end of the program RAM a frame takes at most k instructions and its end: every
instruction moves the pc on. -/
theorem frameEndsWithin_of_pc (k : Nat) {s : State} (hs : s.seq = .running) (hi : s.inbox = [])
    (hp : s.ProgramWritten) (hpc : 256 ≤ s.pc + k) : FrameEndsWithin (k + 1) s := by
  induction k generalizing s with
  | zero =>
    obtain ⟨t, ht, he⟩ | ⟨hlt, -⟩ := step_running_cases hs hi hp
    · exact .of_end ht he
    · omega
  | succ k ih =>
    obtain ⟨t, ht, he⟩ | ⟨-, t, ht, hk, hlt⟩ := step_running_cases hs hi hp
    · exact .of_end ht he
    · have hp' := hk.programWritten hp
      obtain ⟨_, _, _, _, _, _, _, rfl⟩ := hk.exists_eq
      exact .of_step ht rfl (ih hs hi hp' (by omega))

/-- Settles O8, by induction on the number of words left before the end of the program RAM. -/
theorem everyFrameEnds : Obligations.EveryFrameEnds := by
  intro s hs hi hp
  exact frameEndsWithin_of_pc 256 hs hi hp (by omega)

end Sys2Proof.Machine
end

section
/-! SUPPORT. The words of the formats as their fields shifted into place (30_encoding.md R111), the words that decode to
nothing, and the instruction that opcode 0x00 leaves. -/

namespace Sys2Proof

/-! ## The formats, field by field -/

/-- Two fields side by side are the upper one shifted over the lower one. -/
theorem setWidth_append_eq_or {m n : Nat} (k : Nat) (x : BitVec m) (y : BitVec n) :
    (x ++ y).setWidth k = x.setWidth k <<< n ||| y.setWidth k := by
  apply BitVec.eq_of_getLsbD_eq
  intro i hi
  have hlow : n ≤ i → y.getLsbD i = false := BitVec.getLsbD_of_ge y i
  by_cases hin : i < n
  · simp [BitVec.getLsbD_append, hin, hi]
  · simp [BitVec.getLsbD_append, hin, hi, hlow (Nat.le_of_not_lt hin)]

theorem formatA_eq_or (op : BitVec 6) (xd xs xt : XReg) (ch : BitVec 5) (n : BitVec 3) :
    formatA op xd xs xt ch n = op.setWidth 32 <<< 26 ||| xd.setWidth 32 <<< 22 ||| xs.setWidth 32 <<< 18 |||
      xt.setWidth 32 <<< 14 ||| ch.setWidth 32 <<< 9 ||| n.setWidth 32 <<< 6 :=
  calc formatA op xd xs xt ch n = (op ++ xd ++ xs ++ xt ++ ch ++ n ++ 0#6).setWidth 32 := (BitVec.setWidth_eq _).symm
    _ = _ := by
      simp only [setWidth_append_eq_or, BitVec.shiftLeft_or_distrib, ← BitVec.shiftLeft_add]
      simp

theorem formatS_eq_or (op : BitVec 6) (cond : BitVec 2) (n8 : BitVec 8) :
    formatS op cond n8 = op.setWidth 32 <<< 26 ||| cond.setWidth 32 <<< 24 ||| n8.setWidth 32 :=
  calc formatS op cond n8 = (op ++ cond ++ 0#16 ++ n8).setWidth 32 := (BitVec.setWidth_eq _).symm
    _ = _ := by
      simp only [setWidth_append_eq_or, BitVec.shiftLeft_or_distrib, ← BitVec.shiftLeft_add]
      simp

theorem formatK_eq_or (op : BitVec 6) (xd : XReg) (imm16 : BitVec 16) :
    formatK op xd imm16 = op.setWidth 32 <<< 26 ||| xd.setWidth 32 <<< 22 ||| imm16.setWidth 32 :=
  calc formatK op xd imm16 = (op ++ xd ++ 0#6 ++ imm16).setWidth 32 := (BitVec.setWidth_eq _).symm
    _ = _ := by
      simp only [setWidth_append_eq_or, BitVec.shiftLeft_or_distrib, ← BitVec.shiftLeft_add]
      simp

theorem encode_skip (cond : BitVec 2) (n8 : BitVec 8) :
    encode (.skip cond n8) = 0x08000000#32 ||| cond.setWidth 32 <<< 24 ||| n8.setWidth 32 :=
  formatS_eq_or 0x02#6 cond n8

theorem encode_mov (xd xs : XReg) :
    encode (.mov xd xs) = 0x0C000000#32 ||| xd.setWidth 32 <<< 22 ||| xs.setWidth 32 <<< 18 := by
  simp [encode, formatA_eq_or]

theorem encode_ldkh (xd : XReg) (imm16 : BitVec 16) :
    encode (.ldkh xd imm16) = 0x10000000#32 ||| xd.setWidth 32 <<< 22 ||| imm16.setWidth 32 :=
  formatK_eq_or 0x04#6 xd imm16

/-! ## Words that decode to nothing -/

/-- The word of an ill-formed term is illegal (30_encoding.md R113). -/
theorem decodeWord_encode_ne_ok {i : Instr} (hwf : i.wellFormed = false) (j : Instr) : decodeWord (encode i) ≠ .ok j := by
  intro h
  obtain ⟨hr, -, hj⟩ := decodeWord_eq_ok_iff.1 h
  rw [readFields_encode] at hr
  cases hr
  rw [hwf] at hj
  cases hj

/-- The one word of opcode 0x00 is that of NOP (30_encoding.md R115, R117). -/
theorem eq_zero_of_opcode_zero {w : Word} {i : Instr} (hop : wordField w 26 6 = 0#6) (hd : decodeWord w = .ok i) :
    w = 0#32 := by
  obtain ⟨hr, hm, -⟩ := decodeWord_eq_ok_iff.1 hd
  obtain rfl : i = .nop := by
    simp only [readFields, hop] at hr
    exact (Option.some.inj hr).symm
  exact (encode_of_readFields hr hm).symm

end Sys2Proof
end

section
/-! SUPPORT. The control instructions and moves: NOP, END, SKIP, MOV, LDKH (40_control.md R142 to R146). -/

namespace Sys2Proof.Machine

/-! ## NOP and END -/

/-- Settles O30: NOP and END by their meanings, and opcode 0x00 leaves one word. -/
theorem nopAndEnd : Obligations.NopAndEnd := by
  refine ⟨fun s => rfl, fun s => rfl, by decide, by decide, fun w hop hne i hd => ?_⟩
  exact hne (eq_zero_of_opcode_zero hop hd)

/-! ## SKIP -/

/-- When a SKIP is taken (40_control.md R143). -/
theorem skipTaken_iff (cond : BitVec 2) (freeze : Bool) :
    skipTaken cond freeze = true ↔ cond = 0#2 ∨ (cond = 1#2 ∧ freeze = true) ∨ (cond = 2#2 ∧ freeze = false) := by
  revert cond freeze
  decide

theorem exec_skip {cond : BitVec 2} (hc : cond ≠ 3#2) (n8 : BitVec 8) (s : State) :
    exec (.skip cond n8) s = .next { s with pc := skipTarget s.pc n8 (skipTaken cond s.freeze) } := if_neg hc

/-- Settles O31: the condition and the target, the word of every cond, and the end past the last word. -/
theorem skipJumpsForward : Obligations.SkipJumpsForward := by
  refine ⟨fun cond n8 s hc => ?_, fun cond n8 => ?_, fun n8 s t hi hs hx hpc => ?_⟩
  · rw [exec_skip hc]
    simp only [skipTarget, skipTaken_iff]
  · rw [← encode_skip]
    refine ⟨fun hc => decodeWord_encode ?_, fun hc => decodeWord_encode_ne_ok ?_⟩
    · simpa [Instr.wellFormed] using hc
    · simpa [Instr.wellFormed] using hc
  · rw [exec_skip (by decide)] at hx
    cases hx
    exact step_pastEnd (s := { s with pc := s.pc + 1 + n8.toNat }) hi hs hpc

/-! ## MOV and LDKH -/

/-- A register write and the advance of the pc write one sample register and nothing else. -/
theorem writesOnlyX_setX_advance (s : State) (xd : XReg) (v : Word) : WritesOnlyX s (s.setX xd v).advance xd v := by
  refine ⟨?_, fun q hq => ?_, rfl, rfl, fun a => rfl⟩
  · simp
  · simp [State.getX_setX, hq]

/-- The constant of LDKH (40_control.md R146). -/
theorem highHalf_eq_shiftLeft (imm16 : BitVec 16) : highHalf imm16 = imm16.setWidth 32 <<< 16 :=
  calc highHalf imm16 = (imm16 ++ 0#16).setWidth 32 := (BitVec.setWidth_eq _).symm
    _ = _ := by
      rw [setWidth_append_eq_or]
      simp

/-- Settles O32: each is one register write, and its word is the one encoding gives. -/
theorem movAndLdkh : Obligations.MovAndLdkh := by
  refine ⟨fun xd xs s => ⟨_, rfl, writesOnlyX_setX_advance s xd _⟩, fun xd imm16 s => ⟨_, rfl, ?_⟩,
    fun xd xs => ?_, fun xd imm16 => ?_⟩
  · rw [← highHalf_eq_shiftLeft]
    exact writesOnlyX_setX_advance s xd _
  · rw [← encode_mov]
    exact decodeWord_encode rfl
  · rw [← encode_ldkh]
    exact decodeWord_encode rfl

end Sys2Proof.Machine
end

section
/-! SUPPORT. The words of the three-register instructions FADD, FSUB and FMUL (30_encoding.md R111, R115). -/

namespace Sys2Proof

theorem encode_fadd (xd xs xt : XReg) : encode (.fadd xd xs xt) =
    0x14000000#32 ||| xd.setWidth 32 <<< 22 ||| xs.setWidth 32 <<< 18 ||| xt.setWidth 32 <<< 14 := by
  simp [encode, formatA_eq_or]

theorem encode_fsub (xd xs xt : XReg) : encode (.fsub xd xs xt) =
    0x18000000#32 ||| xd.setWidth 32 <<< 22 ||| xs.setWidth 32 <<< 18 ||| xt.setWidth 32 <<< 14 := by
  simp [encode, formatA_eq_or]

theorem encode_fmul (xd xs xt : XReg) : encode (.fmul xd xs xt) =
    0x1C000000#32 ||| xd.setWidth 32 <<< 22 ||| xs.setWidth 32 <<< 18 ||| xt.setWidth 32 <<< 14 := by
  simp [encode, formatA_eq_or]

end Sys2Proof
end

section
/-! SUPPORT. The change of sign, and the patterns that a value or a special magnitude determines (00_scope.md R10, R11). -/

namespace Sys2Proof.Machine

/-! ## The change of sign -/

theorem f32Sign_eq_msb (a : Word) : f32Sign a = a.msb := (BitVec.msb_eq_decide a).symm

theorem f32Sign_fneg (a : Word) : f32Sign (fneg a) = !f32Sign a := by
  rw [f32Sign_eq_msb, f32Sign_eq_msb, fneg, BitVec.msb_xor]
  exact Bool.xor_true _

theorem f32Mag_fneg (a : Word) : f32Mag (fneg a) = f32Mag a := by
  have h : ∀ w : Word, f32Mag w = (w.setWidth 31).toNat := fun w => (BitVec.toNat_setWidth 31 w).symm
  rw [h, h, fneg, BitVec.setWidth_xor]
  simp

theorem fneg_fneg (a : Word) : fneg (fneg a) = a := by simp [fneg]

theorem fneg_eq_iff {a b : Word} : fneg a = b ↔ a = fneg b :=
  ⟨fun h => by rw [← h, fneg_fneg], fun h => by rw [h, fneg_fneg]⟩

theorem f32IsFinite_fneg (a : Word) : f32IsFinite (fneg a) = f32IsFinite a := by
  unfold f32IsFinite; rw [f32Mag_fneg]

theorem f32Unpack_fneg (a : Word) : f32Unpack (fneg a) = (f32Unpack a).neg := by
  unfold f32Unpack
  simp only [f32Exp_eq, f32Frac_eq, f32Mag_fneg, f32Sign_fneg]
  split
  · split <;> rfl
  · split <;> rfl

theorem f32Value_fneg (a : Word) : f32Value (fneg a) = -f32Value a := by
  rw [f32Value, f32Unpack_fneg, FVal.toRat_neg, f32Value]

/-- A subtraction is an addition of the other sign (41_arith.md R163). -/
theorem fsub_eq_fadd_fneg (a b : Word) : fsub a b = fadd a (fneg b) := by
  rw [fsub, fadd, f32Unpack_fneg]

/-! ## Patterns determined by their sign -/

theorem f32Inf_sign {a : Word} (h : f32Mag a = 0x7F800000) : f32Inf (f32Sign a) = a := by
  rw [f32Inf, ← h, f32OfMag_sign_mag]

theorem f32Value_eq_zero_iff {a : Word} (h : f32IsFinite a = true) : f32Value a = 0 ↔ f32Mag a = 0 := by
  obtain ⟨m, e, hu, -, -, hm⟩ := f32Unpack_of_finite h
  rw [f32Value_of_unpack hu, FVal.toRat_fin_eq_zero_iff, hm]

/-- -0 is the only zero whose sign is set. -/
theorem eq_negZero_iff {a : Word} : a = 0x80000000#32 ↔ f32Sign a = true ∧ f32Mag a = 0 := by
  refine ⟨fun h => h ▸ by decide, fun ⟨hs, hm⟩ => ?_⟩
  rw [← f32OfMag_sign_mag a, hs, hm]
  rfl

/-- The sign bit is the sign of the value. -/
theorem f32Value_nonpos {a : Word} (ha : f32IsFinite a = true) (hs : f32Sign a = true) : f32Value a ≤ 0 := by
  have := magValue_nonneg (f32Mag a)
  rw [f32Value_eq a ha, if_pos hs]
  linarith

end Sys2Proof.Machine
end

section
/-! SUPPORT. The laws of fadd and fmul, and products (41_arith.md R162, R163). -/

namespace Sys2Proof.Machine

/-! ## Commutativity -/

theorem addFin_comm (s : Bool) (m : Nat) (e : Int) (t : Bool) (n : Nat) (f : Int) :
    addFin s m e t n f = addFin t n f s m e := by
  simp only [addFin, min_comm f e, add_comm (scaled t n f _), Bool.and_comm t s]

theorem addVal_comm (x y : FVal) : addVal x y = addVal y x := by
  cases x with
  | nan => cases y <;> rfl
  | inf s =>
    cases y with
    | nan | fin => rfl
    | inf t => cases s <;> cases t <;> rfl
  | fin s m e =>
    cases y with
    | nan | inf => rfl
    | fin t n f => exact addFin_comm s m e t n f

theorem mulVal_comm (x y : FVal) : mulVal x y = mulVal y x := by
  cases x with
  | nan => cases y <;> rfl
  | inf s =>
    cases y with
    | nan => rfl
    | inf t | fin t n f => simp only [mulVal, bne_comm]
  | fin s m e =>
    cases y with
    | nan => rfl
    | inf t => simp only [mulVal, bne_comm]
    | fin t n f => simp only [mulVal, bne_comm, mul_comm, add_comm]

theorem fadd_comm (a b : Word) : fadd a b = fadd b a := addVal_comm _ _

theorem fmul_comm (a b : Word) : fmul a b = fmul b a := mulVal_comm _ _

/-! ## Products -/

theorem FVal.toRat_fin_mul (s : Bool) (m : Nat) (e : Int) (t : Bool) (n : Nat) (f : Int) :
    (FVal.fin s m e).toRat * (FVal.fin t n f).toRat = (FVal.fin (s != t) (m * n) (e + f)).toRat := by
  rw [FVal.toRat_fin, FVal.toRat_fin, FVal.toRat_fin, zpow_add₀ (by norm_num : (2 : ℚ) ≠ 0)]
  cases s <;> cases t <;> simp <;> ring

/-- The product of two finite patterns: rounded once, or a zero when it is zero. -/
theorem fmul_spec {a b : Word} (ha : f32IsFinite a = true) (hb : f32IsFinite b = true) :
    (f32Value a * f32Value b ≠ 0 → F32RoundsTo (fmul a b) (f32Value a * f32Value b)) ∧
    (f32Value a * f32Value b = 0 → fmul a b = f32OfMag (f32Sign a != f32Sign b) 0) := by
  obtain ⟨m, e, hua, -⟩ := f32Unpack_of_finite ha
  obtain ⟨n, f, hub, -⟩ := f32Unpack_of_finite hb
  rw [f32Value_of_unpack hua, f32Value_of_unpack hub, FVal.toRat_fin_mul, Ne, FVal.toRat_fin_eq_zero_iff, FVal.toRat_fin,
    fmul, hua, hub, mulVal]
  refine ⟨fun h => f32Round_roundsTo _ _ _ (Nat.pos_of_ne_zero h), fun h => ?_⟩
  rw [f32Round, if_pos h]

/-- A product that a finite pattern stands for is not rounded. -/
theorem fmul_exact {a b c : Word} (ha : f32IsFinite a = true) (hb : f32IsFinite b = true) (hc : f32IsFinite c = true)
    (h : f32Value c = f32Value a * f32Value b) :
    f32IsFinite (fmul a b) = true ∧ f32Value (fmul a b) = f32Value a * f32Value b := by
  obtain ⟨hround, hzero⟩ := fmul_spec ha hb
  by_cases h0 : f32Value a * f32Value b = 0
  · rw [hzero h0, h0]; exact f32OfMag_zero_exact _
  · have hr := hround h0
    rw [← h] at hr ⊢
    exact hr.exact hc

/-- A finite pattern scaled by a power of two is the value of a finite pattern, unless the scaled value is subnormal or
too large. -/
theorem exists_f32Value_eq_mul_zpow {a : Word} (ha : f32IsFinite a = true) (k : ℤ)
    (hlo : 1 / 2 ^ 126 ≤ |f32Value a * 2 ^ k|) (hhi : |f32Value a * 2 ^ k| < 2 ^ 128) :
    ∃ c : Word, f32IsFinite c = true ∧ f32Value c = f32Value a * 2 ^ k := by
  obtain ⟨m, e, hua, hm, -⟩ := f32Unpack_of_finite ha
  have hval : f32Value a * 2 ^ k = (FVal.fin (f32Sign a) m (e + k)).toRat := by
    rw [f32Value_of_unpack hua, FVal.toRat_fin, FVal.toRat_fin, zpow_add₀ (by norm_num : (2 : ℚ) ≠ 0)]
    ring
  have habs : |(FVal.fin (f32Sign a) m (e + k)).toRat| = (m : ℚ) * 2 ^ (e + k) := by
    rw [FVal.toRat_fin]
    cases f32Sign a <;> simp
  rw [hval, habs] at hlo hhi
  have he : -149 ≤ e + k := by
    by_contra hlt
    have hpow : (2 : ℚ) ^ (e + k) ≤ 2 ^ (-150 : ℤ) := zpow_le_zpow_right₀ (by norm_num) (by omega)
    have hmq : (m : ℚ) < 2 ^ 24 := by exact_mod_cast hm
    refine absurd hlo (not_le.2 ?_)
    calc (m : ℚ) * 2 ^ (e + k) ≤ m * 2 ^ (-150 : ℤ) := mul_le_mul_of_nonneg_left hpow (Nat.cast_nonneg m)
      _ < 2 ^ 24 * 2 ^ (-150 : ℤ) := mul_lt_mul_of_pos_right hmq (two_zpow_pos _)
      _ = 1 / 2 ^ 126 := by norm_num
  obtain ⟨hfin, hc⟩ := f32Round_exact (f32Sign a) hm he hhi
  exact ⟨_, hfin, hc.trans hval.symm⟩

/-- A multiplication by a power of two is exact, unless the product is subnormal or too large (41_arith.md R163). -/
theorem fmul_zpow_exact {a c : Word} (ha : f32IsFinite a = true) (hc : f32IsFinite c = true) {k : ℤ}
    (hk : f32Value c = 2 ^ k)
    (hv : f32Value a * f32Value c = 0 ∨
      (1 / 2 ^ 126 ≤ |f32Value a * f32Value c| ∧ |f32Value a * f32Value c| < 2 ^ 128)) :
    f32IsFinite (fmul a c) = true ∧ f32Value (fmul a c) = f32Value a * f32Value c := by
  rcases hv with h0 | ⟨hlo, hhi⟩
  · obtain ⟨hfin, hz⟩ := f32OfMag_zero_exact false
    exact fmul_exact ha hc hfin (hz.trans h0.symm)
  · rw [hk] at hlo hhi
    obtain ⟨p, hp, hpv⟩ := exists_f32Value_eq_mul_zpow ha k hlo hhi
    exact fmul_exact ha hc hp (by rw [hpv, hk])

/-- A normal pattern with an empty fraction is a power of two. -/
theorem f32Value_of_unpack_leadingBit {c : Word} {e : Int} (h : f32Unpack c = .fin false (2 ^ 23) e) :
    f32Value c = 2 ^ (23 + e) := by
  rw [f32Value_of_unpack h, FVal.toRat_fin, zpow_add₀ (by norm_num : (2 : ℚ) ≠ 0)]
  norm_num

/-- 0.5, 0.25 and 2.0 are powers of two (00_scope.md R13). -/
theorem scale_is_zpow {c : Word} (h : c = 0x3F000000#32 ∨ c = 0x3E800000#32 ∨ c = 0x40000000#32) :
    f32IsFinite c = true ∧ ∃ k : ℤ, f32Value c = 2 ^ k := by
  rcases h with rfl | rfl | rfl
  · exact ⟨by decide, _, f32Value_of_unpack_leadingBit (e := -24) (by decide)⟩
  · exact ⟨by decide, _, f32Value_of_unpack_leadingBit (e := -25) (by decide)⟩
  · exact ⟨by decide, _, f32Value_of_unpack_leadingBit (e := -22) (by decide)⟩

/-- 1 absorbs 2^-24, a tie to even, but not twice as much. -/
theorem fadd_not_associative : ∃ a b c : Word, fadd (fadd a b) c ≠ fadd a (fadd b c) :=
  ⟨0x3F800000#32, 0x33800000#32, 0x33800000#32, by decide⟩

/-- 2^127 * 2 overflows to the infinity, which halving does not bring back. -/
theorem fmul_not_associative : ∃ a b c : Word, fmul (fmul a b) c ≠ fmul a (fmul b c) :=
  ⟨0x7F000000#32, 0x40000000#32, 0x3F000000#32, by decide⟩

/-- Settles O28: the operations commute value by value, two concrete triples refute associativity, and a factor that is
a power of two moves the exponent only. -/
theorem arithmeticLaws : Obligations.ArithmeticLaws := by
  refine ⟨fun a b => ⟨fadd_comm a b, fmul_comm a b⟩, fadd_not_associative, fmul_not_associative,
    fun a c ha hc hv => ?_, fun a b _ => fsub_eq_fadd_fneg a b⟩
  obtain ⟨hfin, k, hk⟩ := scale_is_zpow hc
  exact fmul_zpow_exact ha hfin hk hv

end Sys2Proof.Machine
end

section
/-! SUPPORT. The instructions FADD, FSUB and FMUL: zero results, infinities and NaNs (41_arith.md R160 to R162). -/

namespace Sys2Proof.Machine

theorem NaNExactly.eq_of_invalid {r : Word} {P : Prop} (h : NaNExactly r P) (hP : P) : r = 0x7FC00000#32 :=
  h.canonical (h.isNaN_iff.2 hP)

/-! ## FADD -/

theorem fadd_nan_left {a : Word} (h : f32IsNaN a = true) (b : Word) : fadd a b = 0x7FC00000#32 :=
  (fadd_nanExactly a b).eq_of_invalid (.inl h)

/-- An infinity stays when a finite number is added. -/
theorem fadd_inf_finite {a b : Word} (ha : f32Mag a = 0x7F800000) (hb : f32IsFinite b = true) : fadd a b = a := by
  obtain ⟨n, f, hub, -⟩ := f32Unpack_of_finite hb
  rw [fadd, f32Unpack_of_inf ha, hub, addVal, f32Inf_sign ha]

theorem fadd_inf_inf {a b : Word} (ha : f32Mag a = 0x7F800000) (hb : f32Mag b = 0x7F800000) :
    fadd a b = if a = b then a else 0x7FC00000#32 := by
  have hsign : f32Sign a = f32Sign b ↔ a = b :=
    ⟨fun h => by rw [← f32Inf_sign ha, h, f32Inf_sign hb], fun h => h ▸ rfl⟩
  rw [fadd, f32Unpack_of_inf ha, f32Unpack_of_inf hb, addVal, f32Inf_sign ha]
  simp only [hsign, canonicalNaN]

/-- Only two negative zeros add up to -0 (41_arith.md R160). -/
theorem fadd_zero_sum {a b : Word} (ha : f32IsFinite a = true) (hb : f32IsFinite b = true)
    (h : f32Value a + f32Value b = 0) :
    fadd a b = if a = 0x80000000#32 ∧ b = 0x80000000#32 then 0x80000000#32 else 0#32 := by
  rw [(fadd_spec ha hb).2 h]
  by_cases hs : f32Sign a = true ∧ f32Sign b = true
  · have hna := f32Value_nonpos ha hs.1
    have hnb := f32Value_nonpos hb hs.2
    have ha0 := (f32Value_eq_zero_iff ha).1 (by linarith)
    have hb0 := (f32Value_eq_zero_iff hb).1 (by linarith)
    rw [if_pos ⟨eq_negZero_iff.2 ⟨hs.1, ha0⟩, eq_negZero_iff.2 ⟨hs.2, hb0⟩⟩, hs.1, hs.2]
    rfl
  · rw [if_neg fun ⟨h1, h2⟩ => hs ⟨(eq_negZero_iff.1 h1).1, (eq_negZero_iff.1 h2).1⟩,
      Bool.eq_false_of_not_eq_true (mt Bool.and_eq_true_iff.1 hs)]
    rfl

/-- Settles O33: one register write, the word that encoding gives, and the sum by kinds of operands. -/
theorem faddRoundsTheSum : Obligations.FaddRoundsTheSum := by
  refine ⟨fun xd xs xt s => ⟨_, rfl, writesOnlyX_setX_advance s xd _⟩, fun xd xs xt => ?_,
    fun a b ha hb => ⟨(fadd_spec ha hb).1, fadd_zero_sum ha hb⟩, fun a b ha hb => ?_, fun a b => fadd_inf_inf,
    fun a b ha => ?_⟩
  · rw [← encode_fadd]
    exact decodeWord_encode rfl
  · rw [fadd_comm b a]
    exact ⟨fadd_inf_finite ha hb, fadd_inf_finite ha hb⟩
  · rw [fadd_comm b a]
    exact ⟨fadd_nan_left ha b, fadd_nan_left ha b⟩

/-! ## FSUB -/

/-- Only -0 less +0 is -0 (41_arith.md R161). -/
theorem fsub_zero_difference {a b : Word} (ha : f32IsFinite a = true) (hb : f32IsFinite b = true)
    (h : f32Value a - f32Value b = 0) :
    fsub a b = if a = 0x80000000#32 ∧ b = 0#32 then 0x80000000#32 else 0#32 := by
  have hneg : fneg b = 0x80000000#32 ↔ b = 0#32 := fneg_eq_iff
  rw [fsub_eq_fadd_fneg, fadd_zero_sum ha (by rwa [f32IsFinite_fneg]) (by rwa [f32Value_fneg, ← sub_eq_add_neg])]
  simp only [hneg]

theorem fsub_inf_inf {a b : Word} (ha : f32Mag a = 0x7F800000) (hb : f32Mag b = 0x7F800000) :
    fsub a b = if a = b then 0x7FC00000#32 else a := by
  by_cases hab : a = b
  · rw [if_pos hab]
    exact (fsub_nanExactly a b).eq_of_invalid (.inr (.inr ⟨ha, hb, hab ▸ rfl⟩))
  · have hsign : f32Sign a = !f32Sign b :=
      Bool.eq_not_of_ne fun h => hab (by rw [← f32Inf_sign ha, h, f32Inf_sign hb])
    have hopp : a = fneg b := by
      rw [← f32OfMag_sign_mag (fneg b), f32Sign_fneg, f32Mag_fneg, ← hsign, hb, ← ha, f32OfMag_sign_mag]
    rw [if_neg hab, fsub_eq_fadd_fneg, fadd_inf_inf ha (by rwa [f32Mag_fneg]), if_pos hopp]

/-- Settles O34: as the sum's, with the second operand's sign changed. -/
theorem fsubRoundsTheDifference : Obligations.FsubRoundsTheDifference := by
  refine ⟨fun xd xs xt s => ⟨_, rfl, writesOnlyX_setX_advance s xd _⟩, fun xd xs xt => ?_,
    fun a b ha hb => ⟨(fsub_spec ha hb).1, fsub_zero_difference ha hb⟩, fun a b ha hb => ?_, fun a b => fsub_inf_inf,
    fun a b ha => ?_⟩
  · rw [← encode_fsub]
    exact decodeWord_encode rfl
  · rw [fsub_eq_fadd_fneg, fsub_eq_fadd_fneg, fadd_comm b]
    exact ⟨fadd_inf_finite ha (by rwa [f32IsFinite_fneg]), fadd_inf_finite (by rwa [f32Mag_fneg]) hb⟩
  · exact ⟨(fsub_nanExactly a b).eq_of_invalid (.inl ha), (fsub_nanExactly b a).eq_of_invalid (.inr (.inl ha))⟩

/-! ## FMUL -/

theorem fmul_zero_product {a b : Word} (ha : f32IsFinite a = true) (hb : f32IsFinite b = true)
    (h : f32Value a * f32Value b = 0) : fmul a b = if f32Sign a = f32Sign b then 0#32 else 0x80000000#32 := by
  rw [(fmul_spec ha hb).2 h]
  cases f32Sign a <;> cases f32Sign b <;> rfl

/-- An infinity times anything but a zero or a NaN is an infinity. -/
theorem fmul_inf {a b : Word} (ha : f32Mag a = 0x7F800000) (hb : f32IsNaN b = false) (hb0 : f32Mag b ≠ 0) :
    fmul a b = f32Inf (f32Sign a != f32Sign b) := by
  rcases f32_nan_or_inf_or_finite b with hn | hi | hf
  · rw [hb] at hn; cases hn
  · rw [fmul, f32Unpack_of_inf ha, f32Unpack_of_inf hi, mulVal]
  · obtain ⟨n, f, hub, -, -, hn⟩ := f32Unpack_of_finite hf
    rw [fmul, f32Unpack_of_inf ha, hub, mulVal, if_neg (mt hn.1 hb0)]

/-- Settles O35: one register write, the word that encoding gives, and the product by kinds of operands. -/
theorem fmulRoundsTheProduct : Obligations.FmulRoundsTheProduct := by
  refine ⟨fun xd xs xt s => ⟨_, rfl, writesOnlyX_setX_advance s xd _⟩, fun xd xs xt => ?_,
    fun a b ha hb => ⟨(fmul_spec ha hb).1, fmul_zero_product ha hb⟩, fun a b ha hb => ?_, fun a b ha => ?_⟩
  · rw [← encode_fmul]
    exact decodeWord_encode rfl
  · rw [fmul_comm b a, and_self, and_self]
    exact ⟨fun h0 => (fmul_nanExactly a b).eq_of_invalid (.inr (.inr (.inl ⟨ha, h0⟩))), fmul_inf ha hb⟩
  · rw [fmul_comm b a, and_self]
    exact (fmul_nanExactly a b).eq_of_invalid (.inl ha)

end Sys2Proof.Machine
end

section
/-! SUPPORT. The words of the delay instructions DLWR, DLRD and DLRDM (30_encoding.md R111, R115). -/

namespace Sys2Proof

theorem encode_dlwr (ch : Chan) (xs : XReg) :
    encode (.dlwr ch xs) = 0x20000000#32 ||| xs.setWidth 32 <<< 18 ||| ch.setWidth 32 <<< 9 := by
  simp [encode, formatA_eq_or]

theorem encode_dlrd (xd : XReg) (ch : Chan) (xs : XReg) : encode (.dlrd xd ch xs) =
    0x24000000#32 ||| xd.setWidth 32 <<< 22 ||| xs.setWidth 32 <<< 18 ||| ch.setWidth 32 <<< 9 := by
  simp [encode, formatA_eq_or]

theorem encode_dlrdm (xd : XReg) (ch : Chan) :
    encode (.dlrdm xd ch) = 0x28000000#32 ||| xd.setWidth 32 <<< 22 ||| ch.setWidth 32 <<< 9 := by
  simp [encode, formatA_eq_or]

end Sys2Proof
end

section
/-! SUPPORT. The rings of the delay lines: the slot of a delay, what a ring write does to the sample at every delay, and
DLWR (42_delay.md R170, R171, R175). -/

namespace Sys2Proof.Machine

/-! ## The slot of a delay -/

/-- A slot is the cursor less the delay, modulo the ring size. -/
theorem Channel.slot_cast (c : Channel) (m : Int) : (c.slot m : Int) = ((c.cursor : Int) - m) % (c.size : Int) :=
  Int.toNat_of_nonneg (Int.emod_nonneg _ (by exact_mod_cast c.size_pos.ne'))

/-- Delay 0 is the slot the next write overwrites. -/
@[simp] theorem Channel.slot_zero (c : Channel) : c.slot 0 = c.cursor := by
  have hlt : (c.cursor : Int) < c.size := by exact_mod_cast c.cursor_lt
  rw [Channel.slot, sub_zero, Int.emod_eq_of_lt (by omega) hlt, Int.toNat_natCast]

/-- Two delays share a slot exactly when they are equal modulo the ring size. -/
theorem Channel.slot_eq_iff (c : Channel) (m n : Int) : c.slot m = c.slot n ↔ (c.size : Int) ∣ m - n := by
  rw [← Nat.cast_inj (R := Int), c.slot_cast, c.slot_cast]
  exact Int.modEq_iff_dvd.trans (by rw [sub_sub_sub_cancel_left])

/-- After the cursor has moved on, delay m is where delay m - 1 was. -/
theorem Channel.slot_stepCursor (c : Channel) (m : Int) : c.stepCursor.slot m = c.slot (m - 1) := by
  have hcur : c.stepCursor.cursor = (c.cursor + 1) % c.size := by
    rw [Channel.cursor, c.stepCursor_toNat]
    exact Nat.mod_mod _ _
  have hsize : c.stepCursor.size = c.size := rfl
  unfold Channel.slot
  rw [hcur, hsize, Int.natCast_mod, Int.emod_sub_emod]
  push_cast
  rw [sub_sub_eq_add_sub]

theorem toNat_mask {k : Nat} (hk : k < 32) : (BitVec.ofNat 32 (2 ^ k - 1)).toNat = 2 ^ k - 1 := by
  have hlt : 2 ^ k < 2 ^ 32 := Nat.pow_lt_pow_right (by decide) hk
  rw [BitVec.toNat_ofNat, Nat.mod_eq_of_lt (by omega)]

/-- Masking with 2^k - 1 is the remainder by 2^k. -/
theorem toNat_and_mask (w : Word) {k : Nat} (hk : k < 32) :
    (w &&& BitVec.ofNat 32 (2 ^ k - 1)).toNat = w.toNat % 2 ^ k := by
  rw [BitVec.toNat_and, toNat_mask hk, Nat.and_two_pow_sub_one_eq_mod]

/-- The word of an integer, reduced further to k bits, is the integer's remainder by 2^k. -/
theorem toNat_ofInt_mod (i : Int) {k : Nat} (hk : k ≤ 32) :
    (BitVec.ofInt 32 i).toNat % 2 ^ k = (i % ((2 ^ k : Nat) : Int)).toNat := by
  have hdvd : ((2 ^ k : Nat) : Int) ∣ ((2 ^ 32 : Nat) : Int) := Int.natCast_dvd_natCast.2 (Nat.pow_dvd_pow 2 hk)
  rw [BitVec.toNat_ofInt, ← Int.emod_emod_of_dvd i hdvd, Int.toNat_emod (Int.emod_nonneg _ (by decide)) (by omega),
    Int.toNat_natCast]

/-- The masked subtraction on words is the two's-complement remainder (42_delay.md R170). -/
theorem Channel.toNat_maskedSlot (c : Channel) (m : Int) :
    (((c.dlCur &&& BitVec.ofNat 32 (2 ^ c.dlLog2.toNat - 1)) - BitVec.ofInt 32 m) &&&
      BitVec.ofNat 32 (2 ^ c.dlLog2.toNat - 1)).toNat = c.slot m := by
  have hk : c.dlLog2.toNat < 32 := c.dlLog2.isLt
  have hcur : c.dlCur &&& BitVec.ofNat 32 (2 ^ c.dlLog2.toNat - 1) = BitVec.ofInt 32 c.cursor :=
    (BitVec.toNat_eq_nat.1 (toNat_and_mask c.dlCur hk)).2
  rw [toNat_and_mask _ hk, hcur, BitVec.sub_eq_add_neg, ← BitVec.ofInt_neg, ← BitVec.ofInt_add, ← sub_eq_add_neg,
    toNat_ofInt_mod _ hk.le]
  rfl

/-! ## Taps -/

/-- Delays that are equal modulo the ring size have the same sample. -/
theorem State.tap_congr (s : State) (j : Chan) {m n : Int} (h : ((s.getCh j).size : Int) ∣ m - n) :
    s.tap j m = s.tap j n := by
  rw [State.tap, ((s.getCh j).slot_eq_iff m n).2 h, State.tap]

/-- After a ring write delay 1 is the sample written. -/
theorem State.tap_one_dlWrite (s : State) (j : Chan) (v : Word) : (s.dlWrite j v).tap j 1 = v := by
  rw [State.tap, State.getCh_dlWrite, if_pos rfl, Channel.slot_stepCursor, sub_self, Channel.slot_zero,
    State.sRead_dlWrite]
  exact if_pos rfl

/-- A ring write moves every other sample one delay on, when the ring's slots are different words of the sample RAM
(10_state.md R51, R52). -/
theorem State.tap_succ_dlWrite (s : State) (j : Chan) (v : Word) {m : Int} (hlegal : (s.getCh j).Legal s.sramLog2)
    (hm : ¬ ((s.getCh j).size : Int) ∣ m) : (s.dlWrite j v).tap j (m + 1) = s.tap j m := by
  have hle := hlegal.size_le
  have hslot := (s.getCh j).slot_lt m
  have hcur := (s.getCh j).cursor_lt
  have hne : (s.getCh j).slot m ≠ (s.getCh j).cursor := fun h =>
    hm (by simpa using ((s.getCh j).slot_eq_iff m 0).1 (h.trans (s.getCh j).slot_zero.symm))
  rw [State.tap, State.getCh_dlWrite, if_pos rfl, Channel.slot_stepCursor, add_sub_cancel_right, State.sRead_dlWrite]
  refine if_neg fun h => hne ?_
  exact Nat.ModEq.eq_of_lt_of_lt (Nat.ModEq.add_left_cancel' _ h) (by omega) (by omega)

/-- Settles O36: the masked subtraction is the slot, which is below the size; a write fills the slot that delay 1 then
names; delay size and delay 0 are one slot, the cursor's. -/
theorem ringAddressing : Obligations.RingAddressing := by
  refine ⟨fun s j m => ?_, State.tap_one_dlWrite, fun s j => ⟨s.tap_congr j (by simp), ?_⟩⟩
  · have hlt := (s.getCh j).slot_lt m
    dsimp only
    rw [Channel.toNat_maskedSlot, toNat_mask (s.getCh j).dlLog2.isLt]
    exact ⟨rfl, Nat.le_sub_one_of_lt hlt⟩
  · rw [State.tap, Channel.slot_zero]
    rfl

/-! ## A list of ring writes -/

/-- The state after a list of ring writes to one channel, the first of the list first. -/
def State.dlWrites (s : State) (j : Chan) (vs : List Word) : State := vs.foldl (fun t v => t.dlWrite j v) s

theorem State.dlWrites_append_singleton (s : State) (j : Chan) (vs : List Word) (v : Word) :
    s.dlWrites j (vs ++ [v]) = (s.dlWrites j vs).dlWrite j v := List.foldl_concat _ _ _ _

/-- Ring writes keep the ring: its size, and its place in the sample RAM. -/
theorem State.dlWrites_legal {s : State} {j : Chan} (h : (s.getCh j).Legal s.sramLog2) (vs : List Word) :
    ((s.dlWrites j vs).getCh j).Legal (s.dlWrites j vs).sramLog2 ∧
      ((s.dlWrites j vs).getCh j).size = (s.getCh j).size := by
  induction vs using List.reverseRecOn with
  | nil => exact ⟨h, rfl⟩
  | append_singleton vs v ih =>
    obtain ⟨hl, hs⟩ := ih
    rw [State.dlWrites_append_singleton, State.getCh_dlWrite, if_pos rfl]
    exact ⟨hl.stepCursor, hs⟩

/-- The last sample written is at delay 1, and the one before it is where it was, one delay on: by induction on the list
from its end. -/
theorem State.tap_dlWrites {s : State} {j : Chan} (h : (s.getCh j).Legal s.sramLog2) (vs : List Word) {i : Nat}
    (hi : i < (s.getCh j).size) :
    (s.dlWrites j vs).tap j ((i : Int) + 1) =
      if i < vs.length then vs.reverse.getD i 0#32 else s.tap j ((i : Int) + 1 - vs.length) := by
  induction vs using List.reverseRecOn generalizing i with
  | nil => simp [State.dlWrites]
  | append_singleton vs v ih =>
    rw [State.dlWrites_append_singleton]
    cases i with
    | zero => simp [State.tap_one_dlWrite]
    | succ i =>
      obtain ⟨hl, hs⟩ := State.dlWrites_legal h vs
      have hnd : ¬ (((s.dlWrites j vs).getCh j).size : Int) ∣ ((i + 1 : Nat) : Int) := by
        rw [hs, Int.natCast_dvd_natCast]
        exact Nat.not_dvd_of_pos_of_lt i.succ_pos hi
      rw [State.tap_succ_dlWrite _ _ _ hl hnd]
      push_cast
      rw [ih (by omega)]
      simp

/-- Settles O37: each clause is one branch of the sample at a delay after the writes. -/
theorem delayLineRemembers : Obligations.DelayLineRemembers := by
  intro s j vs hlegal hlen
  refine ⟨fun i hi => ?_, fun i hi hsize => ?_⟩
  · exact (State.tap_dlWrites hlegal vs (hi.trans_le hlen)).trans (if_pos hi)
  · exact (State.tap_dlWrites hlegal vs hsize).trans (if_neg (Nat.not_lt.2 hi))

/-! ## DLWR -/

/-- Settles O39: DLWR is a ring write and the advance of the pc, and its word is the one encoding gives. -/
theorem dlwrStoresAtTheCursor : Obligations.DlwrStoresAtTheCursor := by
  refine ⟨fun ch xs s => ⟨(s.dlWrite ch (s.getX xs)).advance, rfl, s.readWord_dlWrite ch _, s.readByte_dlWrite ch _,
    fun j => s.getCh_dlWrite ch j _, rfl, rfl⟩, fun ch s => rfl, fun ch xs => ?_⟩
  rw [← encode_dlwr]
  exact decodeWord_encode rfl

end Sys2Proof.Machine
end

section
/-! SUPPORT. The fractional reads: the clamped delay, the Catmull-Rom read, and DLRD and DLRDM (42_delay.md R172, R173,
R176, R177). -/

namespace Sys2Proof.Machine

/-! ## The clamped delay -/

theorem fTwo_exact : f32IsFinite fTwo = true ∧ f32Value fTwo = 2 :=
  ⟨by decide, (f32Value_of_unpack_leadingBit (e := -22) (by decide)).trans (by norm_num)⟩

/-- I2F is exact on 2^k - 3 (42_delay.md R172). -/
theorem Channel.dmax_exact {c : Channel} (h3 : 3 ≤ c.dlLog2.toNat) (h24 : c.dlLog2.toNat ≤ 24) :
    f32IsFinite c.dmax = true ∧ f32Value c.dmax = 2 ^ c.dlLog2.toNat - 3 := by
  have hlo : 2 ^ 3 ≤ c.size := Nat.pow_le_pow_right (by decide) h3
  have hhi : c.size ≤ 2 ^ 24 := Nat.pow_le_pow_right (by decide) h24
  obtain ⟨hfin, hval⟩ := i2f_exact (n := c.size - 3) (by omega)
  refine ⟨hfin, hval.trans ?_⟩
  rw [Nat.cast_sub (by omega), Channel.size]
  push_cast
  rfl

/-- The smallest delay is below the largest. -/
theorem Channel.two_lt_dmax {c : Channel} (h3 : 3 ≤ c.dlLog2.toNat) : (2 : ℚ) < 2 ^ c.dlLog2.toNat - 3 := by
  have hlo : (2 : ℚ) ^ 3 ≤ 2 ^ c.dlLog2.toNat := pow_le_pow_right₀ (by norm_num) h3
  linarith

theorem Channel.clampDelay_of_nan {c : Channel} {d : Word} (h : f32IsNaN d = true) : c.clampDelay d = fTwo := by
  simp [Channel.clampDelay, h]

theorem Channel.clampDelay_negInf (c : Channel) : c.clampDelay 0xFF800000#32 = fTwo := by
  simp [Channel.clampDelay, (flt_infinities fTwo_exact.1).2.2.1]

theorem Channel.clampDelay_posInf {c : Channel} (h3 : 3 ≤ c.dlLog2.toNat) (h24 : c.dlLog2.toNat ≤ 24) :
    c.clampDelay 0x7F800000#32 = c.dmax := by
  have hnan : f32IsNaN 0x7F800000#32 = false := by decide
  simp [Channel.clampDelay, hnan, (flt_infinities fTwo_exact.1).2.1, (flt_infinities (c.dmax_exact h3 h24).1).1]

/-- On numbers the clamp compares values. -/
theorem Channel.clampDelay_of_finite {c : Channel} (h3 : 3 ≤ c.dlLog2.toNat) (h24 : c.dlLog2.toNat ≤ 24) {d : Word}
    (hd : f32IsFinite d = true) : c.clampDelay d =
      if f32Value d < 2 then fTwo else if 2 ^ c.dlLog2.toNat - 3 < f32Value d then c.dmax else d := by
  obtain ⟨hmax, hmaxv⟩ := c.dmax_exact h3 h24
  have hlow := flt_iff_value_lt hd fTwo_exact.1
  have hhigh := flt_iff_value_lt hmax hd
  rw [fTwo_exact.2] at hlow
  rw [hmaxv] at hhigh
  simp only [Channel.clampDelay, not_nan_of_finite hd, Bool.false_or, hlow, hhigh]

/-- The clamp of a number, in value: the same number, or the bound it is beyond. -/
theorem Channel.f32Value_clampDelay {c : Channel} (h3 : 3 ≤ c.dlLog2.toNat) (h24 : c.dlLog2.toNat ≤ 24) {d : Word}
    (hd : f32IsFinite d = true) :
    f32Value (c.clampDelay d) = max 2 (min (f32Value d) (2 ^ c.dlLog2.toNat - 3)) := by
  have hrange := c.two_lt_dmax h3
  rw [Channel.clampDelay_of_finite h3 h24 hd]
  split
  · next hlow => rw [fTwo_exact.2, min_eq_left (by linarith), max_eq_left hlow.le]
  · next hlow =>
    split
    · next hhigh => rw [(c.dmax_exact h3 h24).2, min_eq_right hhigh.le, max_eq_right hrange.le]
    · next hhigh => rw [min_eq_left (not_lt.1 hhigh), max_eq_right (not_lt.1 hlow)]

theorem eq_infinity_of_mag {d : Word} (h : f32Mag d = 0x7F800000) : d = 0x7F800000#32 ∨ d = 0xFF800000#32 := by
  rw [← f32Inf_sign h]
  cases f32Sign d
  · exact .inl rfl
  · exact .inr rfl

/-- A number between the smallest and the largest delay of 42_delay.md R172. -/
def Channel.DelayInRange (c : Channel) (d : Word) : Prop :=
  f32IsFinite d = true ∧ 2 ≤ f32Value d ∧ f32Value d ≤ 2 ^ c.dlLog2.toNat - 3

/-- Whatever is requested, the read is at a delay in range: by the kinds of patterns. -/
theorem Channel.clampDelay_inRange {c : Channel} (h3 : 3 ≤ c.dlLog2.toNat) (h24 : c.dlLog2.toNat ≤ 24) (d : Word) :
    c.DelayInRange (c.clampDelay d) := by
  have hrange := (c.two_lt_dmax h3).le
  have htwo : c.DelayInRange fTwo := ⟨fTwo_exact.1, fTwo_exact.2.ge, fTwo_exact.2.trans_le hrange⟩
  obtain ⟨hmaxf, hmaxv⟩ := c.dmax_exact h3 h24
  have hmax : c.DelayInRange c.dmax := ⟨hmaxf, hrange.trans hmaxv.ge, hmaxv.le⟩
  rcases f32_nan_or_inf_or_finite d with hn | hi | hf
  · rwa [Channel.clampDelay_of_nan hn]
  · rcases eq_infinity_of_mag hi with rfl | rfl
    · rwa [Channel.clampDelay_posInf h3 h24]
    · rwa [Channel.clampDelay_negInf]
  · rw [Channel.clampDelay_of_finite h3 h24 hf]
    split
    · exact htwo
    · next hlow =>
      split
      · exact hmax
      · next hhigh => exact ⟨hf, not_lt.1 hlow, not_lt.1 hhigh⟩

theorem Channel.DelayInRange.lt_two_pow {c : Channel} {d : Word} (h : c.DelayInRange d) (h24 : c.dlLog2.toNat ≤ 24) :
    f32Value d < 2 ^ 24 := by
  have hpow : (2 : ℚ) ^ c.dlLog2.toNat ≤ 2 ^ 24 := pow_le_pow_right₀ (by norm_num) h24
  linarith [h.2.2]

/-- The four taps of a read in range are at delays 1 to 2^k - 1 (42_delay.md R173). -/
theorem Channel.DelayInRange.floor_range {c : Channel} {d : Word} (h : c.DelayInRange d) (h24 : c.dlLog2.toNat ≤ 24) :
    2 ≤ f32Floor d ∧ f32Floor d + 2 ≤ 2 ^ c.dlLog2.toNat - 1 := by
  have hlt := h.lt_two_pow h24
  obtain ⟨hfin, hlo, hhi⟩ := h
  obtain ⟨hfloor, hfloor', -⟩ := floorAndFractionAreExact.1 d hfin hlo hlt
  have hlow : (2 : ℚ) < (f32Floor d + 1 : Nat) := by push_cast; linarith
  have hhigh : ((f32Floor d + 3 : Nat) : ℚ) ≤ (2 ^ c.dlLog2.toNat : Nat) := by push_cast; linarith
  have hlow' : 2 < f32Floor d + 1 := by exact_mod_cast hlow
  have hhigh' : f32Floor d + 3 ≤ 2 ^ c.dlLog2.toNat := by exact_mod_cast hhigh
  omega

/-- The fraction of a read in range is exact and below 1 (42_delay.md R173). -/
theorem Channel.DelayInRange.fraction_exact {c : Channel} {d : Word} (h : c.DelayInRange d)
    (h24 : c.dlLog2.toNat ≤ 24) :
    f32IsFinite (fsub d (i2f (f32Floor d))) = true ∧
      f32Value (fsub d (i2f (f32Floor d))) = f32Value d - f32Floor d ∧
      0 ≤ f32Value (fsub d (i2f (f32Floor d))) ∧ f32Value (fsub d (i2f (f32Floor d))) < 1 := by
  have hlt := h.lt_two_pow h24
  obtain ⟨hfin, hlo, -⟩ := h
  obtain ⟨hfloor, hfloor', htfin, htval⟩ := floorAndFractionAreExact.1 d hfin hlo hlt
  rw [htval]
  exact ⟨htfin, rfl, by linarith, by linarith⟩

/-- Settles O38: the clamp by kinds of patterns, and the floor of a delay in range. -/
theorem delayIsClamped : Obligations.DelayIsClamped := by
  intro c d h3 h24
  have hrange := c.clampDelay_inRange h3 h24 d
  refine ⟨?_, ?_, fun hd => ⟨c.f32Value_clampDelay h3 h24 hd, fun hlo hhi => ?_⟩, hrange.1, hrange.floor_range h24⟩
  · rintro (hn | rfl)
    · exact c.clampDelay_of_nan hn
    · exact c.clampDelay_negInf
  · rintro rfl
    rw [c.clampDelay_posInf h3 h24, (c.dmax_exact h3 h24).2]
  · rw [c.clampDelay_of_finite h3 h24 hd, if_neg (not_lt.2 hlo), if_neg (not_lt.2 hhi)]

/-! ## DLRD and DLRDM -/

/-- Settles O40: DLRD is one register write, the read is the cubic of its definition, the fraction is that of a delay in
range, and the word is the one encoding gives. -/
theorem dlrdReadsTheCubic : Obligations.DlrdReadsTheCubic := by
  refine ⟨fun xd ch xs s => ⟨_, rfl, writesOnlyX_setX_advance s xd _⟩, fun s j d => rfl,
    fun c d h3 h24 => (c.clampDelay_inRange h3 h24 d).fraction_exact h24, fun xd ch xs => ?_⟩
  rw [← encode_dlrd]
  exact decodeWord_encode rfl

/-- A channel write, a register write and the advance of the pc write one channel and one sample register and nothing
else. -/
theorem writesXAndChannel_setCh_setX_advance (s : State) (xd : XReg) (v : Word) (j : Chan) (c : Channel) :
    WritesXAndChannel s ((s.setCh j c).setX xd v).advance xd v j c := by
  refine ⟨?_, fun q hq => ?_, ?_, fun i hi => ?_, rfl, rfl, fun a => rfl⟩
  · simp
  · simp [State.getX_setX, hq]
  · simp
  · simp [State.getCh_setCh, hi]

/-- Settles O41: DLRDM is a phase step and one register write, and its word is the one encoding gives. -/
theorem dlrdmReadsModulated : Obligations.DlrdmReadsModulated := by
  refine ⟨fun xd ch s => ⟨_, rfl, writesXAndChannel_setCh_setX_advance s xd _ ch _⟩, fun xd ch => ?_⟩
  rw [← encode_dlrdm]
  exact decodeWord_encode rfl

end Sys2Proof.Machine
end

section
/-! SUPPORT. The word of LFO (30_encoding.md R111, R115). -/

namespace Sys2Proof

theorem encode_lfo (xd : XReg) (ch : Chan) :
    encode (.lfo xd ch) = 0x2C000000#32 ||| xd.setWidth 32 <<< 22 ||| ch.setWidth 32 <<< 9 := by
  simp [encode, formatA_eq_or]

end Sys2Proof
end

section
/-! SUPPORT. Patterns determined by their value, and sums and products with a zero (00_scope.md R10, R11). -/

namespace Sys2Proof.Machine

/-- Two finite patterns of one nonzero value are the same pattern. -/
theorem eq_of_f32Value_eq {a b : Word} (ha : f32IsFinite a = true) (hb : f32IsFinite b = true)
    (h : f32Value a = f32Value b) (h0 : f32Value b ≠ 0) : a = b := by
  have hkey : f32Key a = f32Key b :=
    keyValue_strictMono.injective (by rwa [← f32Value_eq_keyValue ha, ← f32Value_eq_keyValue hb])
  rw [Ne, f32Value_eq_zero_iff hb] at h0
  -- Keys of different signs are equal only at 0.
  have hparts : f32Sign a = f32Sign b ∧ f32Mag a = f32Mag b := by
    unfold f32Key at hkey
    revert hkey
    cases f32Sign a <;> cases f32Sign b <;> simp <;> omega
  rw [← f32OfMag_sign_mag a, ← f32OfMag_sign_mag b, hparts.1, hparts.2]

/-- +0 is the only zero besides -0. -/
theorem eq_zero_of_f32Value_eq_zero {a : Word} (ha : f32IsFinite a = true) (h0 : f32Value a = 0)
    (hneg : a ≠ 0x80000000#32) : a = 0#32 := by
  have hmag := (f32Value_eq_zero_iff ha).1 h0
  have hsign : f32Sign a = false := Bool.eq_false_iff.2 fun hs => hneg (eq_negZero_iff.2 ⟨hs, hmag⟩)
  rw [← f32OfMag_sign_mag a, hsign, hmag]
  rfl

/-- Adding a zero changes no number but -0. -/
theorem fadd_zero_value {a z : Word} (ha : f32IsFinite a = true) (hz : f32IsFinite z = true) (hz0 : f32Value z = 0)
    (hneg : a ≠ 0x80000000#32) : fadd a z = a := by
  have hsum : f32Value a + f32Value z = f32Value a := by rw [hz0, add_zero]
  by_cases h0 : f32Value a = 0
  · rw [fadd_zero_sum ha hz (hsum.trans h0), if_neg (fun h => hneg h.1), eq_zero_of_f32Value_eq_zero ha h0 hneg]
  · have hround := (fadd_spec ha hz).1 (hsum.trans_ne h0)
    rw [hsum] at hround
    obtain ⟨hfin, hval⟩ := hround.exact ha
    exact eq_of_f32Value_eq hfin ha hval h0

/-- A zero times a number is a zero. -/
theorem fmul_zero_value {z a : Word} (hz : f32IsFinite z = true) (ha : f32IsFinite a = true) (h : f32Value z = 0) :
    f32IsFinite (fmul z a) = true ∧ f32Value (fmul z a) = 0 := by
  rw [(fmul_spec hz ha).2 (by rw [h, zero_mul])]
  exact f32OfMag_zero_exact _

/-- A difference below the overflow threshold is finite. -/
theorem f32IsFinite_fsub {a b : Word} (ha : f32IsFinite a = true) (hb : f32IsFinite b = true)
    (hlt : |f32Value a - f32Value b| < 2 ^ 128 - 2 ^ 103) : f32IsFinite (fsub a b) = true := by
  by_cases h0 : f32Value a - f32Value b = 0
  · rw [(fsub_spec ha hb).2 h0]
    exact (f32OfMag_zero_exact _).1
  · have hround := (fsub_spec ha hb).1 h0
    rw [F32RoundsTo, if_pos hlt] at hround
    exact hround.1

theorem magValue_one : magValue 0x3F800000 = 1 := by
  have hone : f32Value 0x3F800000#32 = 2 ^ (0 : ℤ) := f32Value_of_unpack_leadingBit (e := -23) (by decide)
  rw [f32Value_eq _ (by decide), zpow_zero] at hone
  simpa [f32Sign, f32Mag] using hone

end Sys2Proof.Machine
end

section
/-! SUPPORT. The sine table: the rise of the quarter wave, the folds, and the entries as numbers (43_lfo.md R190). -/

namespace Sys2Proof.Machine

/-! ## The quarter wave -/

set_option maxRecDepth 4000 in
/-- Each entry of the quarter wave is below the next: one pass over the list the spec gives. -/
theorem sineQ_isChain : sineQ.IsChain (· < ·) := by decide

set_option maxRecDepth 4000 in
theorem sineQ_length : sineQ.length = 257 := rfl

theorem sineQ_getD_strictMonoOn : StrictMonoOn (fun k => sineQ.getD k 0) (Set.Iic 256) := by
  intro i hi j hj hij
  have hlen := sineQ_length
  rw [Set.mem_Iic] at hi hj
  beta_reduce
  rw [List.getD_eq_getElem _ _ (by omega), List.getD_eq_getElem _ _ (by omega)]
  exact List.pairwise_iff_getElem.1 (List.isChain_iff_pairwise.1 sineQ_isChain) i j (by omega) (by omega) hij

/-- No entry is above the last one, the pattern of 1. -/
theorem sineQ_getD_le {k : Nat} (hk : k ≤ 256) : sineQ.getD k 0 ≤ 0x3F800000 :=
  sineQ_getD_strictMonoOn.monotoneOn hk (Set.mem_Iic.2 le_rfl) hk

/-- An entry of the quarter wave is the positive pattern with its list entry as magnitude. -/
theorem sineQuarter_eq_f32OfMag (k : Nat) : sineQuarter k = f32OfMag false (sineQ.getD k 0) := by
  simp [sineQuarter, f32OfMag]

/-! ## The folds -/

theorem sineHalf_eq_sineQuarter (k : Nat) : sineHalf k = sineQuarter (min k (512 - k)) := by
  unfold sineHalf
  split
  · rw [min_eq_left (by omega)]
  · rw [min_eq_right (by omega)]

theorem sineT_of_le_512 {k : Nat} (hk : k ≤ 512) : sineT k = sineQuarter (min k (512 - k)) := by
  rcases hk.lt_or_eq with hlt | rfl
  · rw [sineT, if_pos hlt, sineHalf_eq_sineQuarter]
  · rfl

theorem sineT_of_le_256 {k : Nat} (hk : k ≤ 256) : sineT k = f32OfMag false (sineQ.getD k 0) := by
  rw [sineT_of_le_512 (by omega), min_eq_left (by omega), sineQuarter_eq_f32OfMag]

/-- The half wave folds at its peak. -/
theorem sineT_512_sub {k : Nat} (hk : k ≤ 512) : sineT (512 - k) = sineT k := by
  rw [sineT_of_le_512 (by omega), sineT_of_le_512 hk, Nat.sub_sub_self hk, min_comm]

/-- The second half is the first with its sign flipped. -/
theorem sineT_512_add {k : Nat} (hk : k < 512) (h0 : k ≠ 0) : sineT (512 + k) = fneg (sineT k) := by
  rw [sineT, if_neg (by omega), if_neg (by omega), Nat.add_sub_cancel_left, sineT, if_pos hk, fneg]

/-- An entry of the half wave is one of the quarter wave, and only at its ends the first one. -/
theorem exists_sineT_eq_of_le_512 {k : Nat} (hk : k ≤ 512) :
    ∃ j, j ≤ 256 ∧ sineT j = sineT k ∧ (j = 0 → k = 0 ∨ k = 512) := by
  by_cases h : k ≤ 256
  · exact ⟨k, h, rfl, .inl⟩
  · exact ⟨512 - k, by omega, sineT_512_sub hk, by omega⟩

/-! ## The entries as numbers -/

theorem f32Value_sineT_of_le_256 {k : Nat} (hk : k ≤ 256) : f32Value (sineT k) = magValue (sineQ.getD k 0) := by
  have hle := sineQ_getD_le hk
  rw [sineT_of_le_256 hk, f32Value_f32OfMag false _ (by omega)]
  exact one_mul _

/-- The quarter wave rises in value. -/
theorem f32Value_sineT_strictMonoOn : StrictMonoOn (fun k => f32Value (sineT k)) (Set.Iic 256) := by
  intro i hi j hj hij
  simp only [f32Value_sineT_of_le_256 (Set.mem_Iic.1 hi), f32Value_sineT_of_le_256 (Set.mem_Iic.1 hj)]
  exact magValue_strictMono (sineQ_getD_strictMonoOn hi hj hij)

/-- Between its ends the half wave is not zero. -/
theorem sineT_ne_zero {k : Nat} (hk : k < 512) (h0 : k ≠ 0) : sineT k ≠ 0#32 := by
  obtain ⟨j, hj, hjk, hends⟩ := exists_sineT_eq_of_le_512 hk.le
  have hpos : f32Value (sineT 0) < f32Value (sineT j) :=
    f32Value_sineT_strictMonoOn (Set.mem_Iic.2 (Nat.zero_le _)) hj (by omega)
  intro h
  rw [hjk, h] at hpos
  exact hpos.ne rfl

/-- A number of magnitude at most 1, and not -0: what every table entry is. -/
def SineEntry (a : Word) : Prop := f32IsFinite a = true ∧ |f32Value a| ≤ 1 ∧ a ≠ 0x80000000#32

theorem SineEntry.fneg {a : Word} (h : SineEntry a) (h0 : a ≠ 0#32) : SineEntry (fneg a) := by
  obtain ⟨hfin, hval, -⟩ := h
  exact ⟨by rwa [f32IsFinite_fneg], by rwa [f32Value_fneg, abs_neg], mt fneg_eq_iff.1 h0⟩

theorem sineEntry_of_le_256 {k : Nat} (hk : k ≤ 256) : SineEntry (sineT k) := by
  have hle := sineQ_getD_le hk
  have hval : magValue (sineQ.getD k 0) ≤ 1 := magValue_one ▸ magValue_strictMono.monotone hle
  have hsign : f32Sign (sineT k) = false := by rw [sineT_of_le_256 hk, f32Sign_f32OfMag false _ (by omega)]
  refine ⟨?_, ?_, fun h => ?_⟩
  · rw [sineT_of_le_256 hk]
    exact f32IsFinite_f32OfMag false _ (by omega)
  · rwa [f32Value_sineT_of_le_256 hk, abs_of_nonneg (magValue_nonneg _)]
  · rw [(eq_negZero_iff.1 h).1] at hsign
    cases hsign

theorem sineEntry_of_le_512 {k : Nat} (hk : k ≤ 512) : SineEntry (sineT k) := by
  obtain ⟨j, hj, hjk, -⟩ := exists_sineT_eq_of_le_512 hk
  exact hjk ▸ sineEntry_of_le_256 hj

/-- Every table entry, by the halves of the wave. -/
theorem sineEntry_sineT {k : Nat} (hk : k < 1024) : SineEntry (sineT k) := by
  by_cases h : k ≤ 512
  · exact sineEntry_of_le_512 h
  · obtain ⟨j, rfl⟩ : ∃ j, k = 512 + j := ⟨k - 512, by omega⟩
    rw [sineT_512_add (by omega) (by omega)]
    exact (sineEntry_of_le_512 (by omega)).fneg (sineT_ne_zero (by omega) (by omega))

/-- The step between two entries is finite. -/
theorem SineEntry.fsub_finite {a b : Word} (ha : SineEntry a) (hb : SineEntry b) : f32IsFinite (fsub a b) = true := by
  obtain ⟨hfa, hva, -⟩ := ha
  obtain ⟨hfb, hvb, -⟩ := hb
  have htri := abs_sub (f32Value a) (f32Value b)
  exact f32IsFinite_fsub hfa hfb (by norm_num; linarith)

end Sys2Proof.Machine
end

section
/-! SUPPORT. The oscillator: LFO, and the interpolation of the table (43_lfo.md R191 to R193). -/

namespace Sys2Proof.Machine

/-! ## LFO -/

/-- A sum of words is the sum of their numbers modulo 2^32 (43_lfo.md R192). -/
theorem word_add_eq_ofNat_mod (a b : Word) : a + b = BitVec.ofNat 32 ((a.toNat + b.toNat) % 2 ^ 32) := by
  apply BitVec.eq_of_toNat_eq
  simp

/-- Settles O42: LFO is a phase step and one register write, and its word is the one encoding gives. -/
theorem lfoWritesSineTimesDepth : Obligations.LfoWritesSineTimesDepth := by
  refine ⟨fun xd ch s => ⟨_, rfl, ?_⟩, fun xd ch => ?_⟩
  · rw [← word_add_eq_ofNat_mod]
    exact writesXAndChannel_setCh_setX_advance s xd _ ch _
  · rw [← encode_lfo]
    exact decodeWord_encode rfl

/-! ## The sine of a phase -/

theorem frac22_exact : f32IsFinite frac22 = true ∧ f32Value frac22 = 2 ^ (-22 : ℤ) :=
  ⟨by decide, f32Value_of_unpack_leadingBit (e := -45) (by decide)⟩

/-- The fraction is exact: 2^-22 is a power of two, and the product is 0 or at least 2^-22. -/
theorem f32Value_lfoFraction {n : Nat} (hn : n < 2 ^ 22) : f32Value (fmul (i2f n) frac22) = (n : ℚ) / 2 ^ 22 := by
  obtain ⟨hfin, hval⟩ := i2f_exact (n := n) (by omega)
  obtain ⟨hcfin, hcval⟩ := frac22_exact
  have hprod : f32Value (i2f n) * f32Value frac22 = (n : ℚ) / 2 ^ 22 := by
    rw [hval, hcval, zpow_neg, div_eq_mul_inv]
    rfl
  refine (fmul_zpow_exact hfin hcfin hcval ?_).2.trans hprod
  rw [hprod]
  rcases Nat.eq_zero_or_pos n with rfl | hpos
  · simp
  · have hlo : (1 : ℚ) ≤ n := by exact_mod_cast hpos
    have hhi : (n : ℚ) < 2 ^ 22 := by exact_mod_cast hn
    rw [abs_of_nonneg (by positivity)]
    exact .inr ⟨by norm_num; linarith, by norm_num; linarith⟩

/-- LfoSin in the two fields of the phase, p[31:22] and p[21:0]. -/
theorem lfoSin_eq (p : Word) :
    lfoSin p = fadd (sineT (p.extractLsb' 22 10).toNat) (fmul (fmul (i2f (p.extractLsb' 0 22).toNat) frac22)
      (fsub (sineT (((p.extractLsb' 22 10).toNat + 1) % 1024)) (sineT (p.extractLsb' 22 10).toNat))) := by
  have hindex : (p.extractLsb' 22 10).toNat = p.toNat / 2 ^ 22 := by
    rw [BitVec.extractLsb'_toNat, Nat.shiftRight_eq_div_pow, Nat.mod_eq_of_lt (by omega)]
  have hfrac : (p.extractLsb' 0 22).toNat = p.toNat % 2 ^ 22 := by
    rw [BitVec.extractLsb'_toNat, Nat.shiftRight_zero]
  rw [hindex, hfrac]
  rfl

/-- At a table step the interpolation adds a zero to the entry. -/
theorem lfoSin_at_table_step {p : Word} (hp : p.extractLsb' 0 22 = 0#22) :
    lfoSin p = sineT (p.extractLsb' 22 10).toNat := by
  have hentry := sineEntry_sineT (k := (p.extractLsb' 22 10).toNat) (by omega)
  have hnext := sineEntry_sineT (k := ((p.extractLsb' 22 10).toNat + 1) % 1024) (by omega)
  have hfr : fmul (i2f (0#22).toNat) frac22 = 0#32 := by decide
  obtain ⟨hzfin, hz⟩ := fmul_zero_value (z := 0#32) (by decide) (hnext.fsub_finite hentry)
    ((f32Value_eq_zero_iff (by decide)).2 (by decide))
  obtain ⟨hfin, -, hneg⟩ := hentry
  rw [lfoSin_eq, hp, hfr]
  exact fadd_zero_value hfin hzfin hz hneg

/-- Settles O43: the interpolation by the two fields of the phase, with an exact fraction; at a table step it adds a
zero; and the folds, the rise and the four quarter points of the table. -/
theorem sineIsExactAtTableSteps : Obligations.SineIsExactAtTableSteps := by
  refine ⟨fun p => ⟨lfoSin_eq p, f32Value_lfoFraction (BitVec.isLt _)⟩, fun p => lfoSin_at_table_step,
    fun k hk => sineT_512_sub (by omega), fun k hk h0 => sineT_512_add hk h0, fun k hk => ?_, rfl, rfl, rfl, rfl⟩
  exact f32Value_sineT_strictMonoOn (Set.mem_Iic.2 hk.le) (Set.mem_Iic.2 hk) (Nat.lt_succ_self k)

end Sys2Proof.Machine
end

section
/-! SUPPORT. The word of AP (30_encoding.md R111, R115). -/

namespace Sys2Proof

theorem encode_ap (xd : XReg) (ch : Chan) (xs : XReg) : encode (.ap xd ch xs) =
    0x30000000#32 ||| xd.setWidth 32 <<< 22 ||| xs.setWidth 32 <<< 18 ||| ch.setWidth 32 <<< 9 := by
  simp [encode, formatA_eq_or]

end Sys2Proof
end

section
/-! SUPPORT. What one allpass section and a cascade of them change, the channels of APC, and AP and APC
(44_allpass.md R200 to R202). -/

namespace Sys2Proof.Machine

/-! ## One section -/

/-- A section's own channel is left with its phase and then its cursor moved on. -/
theorem State.getCh_apNext (s : State) (j i : Chan) (x : Word) :
    (s.apNext j x).getCh i = if i = j then (s.getCh j).phaseAdvanced.stepCursor else s.getCh i := by
  rw [State.apNext, State.getCh_dlWrite, State.getCh_lfoAdvance, State.getCh_lfoAdvance, if_pos rfl]
  split <;> rfl

theorem State.readWord_apNext (s : State) (j : Chan) (x : Word) :
    (s.apNext j x).readWord (s.sramAddr (s.ringWord j)) = some (s.apStored j x) := by
  have hstored := (s.lfoAdvance j).readWord_dlWrite j (s.apStored j x)
  rwa [State.ringWord_lfoAdvance, State.sramAddr_lfoAdvance] at hstored

theorem State.readByte_apNext (s : State) (j : Chan) (x : Word) :
    SameMemoryOutside s (s.apNext j x) (s.sramAddr (s.ringWord j)) := by
  intro a ha
  rw [← State.ringWord_lfoAdvance s j j] at ha
  exact (s.lfoAdvance j).readByte_dlWrite j _ a ha

theorem State.ringWord_apNext_other (s : State) {i j : Chan} (h : i ≠ j) (x : Word) :
    (s.apNext j x).ringWord i = s.ringWord i :=
  ((s.lfoAdvance j).ringWord_dlWrite_other j i _ h).trans (s.ringWord_lfoAdvance j i)

/-- A section changes the channels and the memory only. -/
theorem State.apNext_frame (s : State) (j : Chan) (x : Word) : { s.apNext j x with ch := s.ch, mem := s.mem } = s := rfl

/-- Settles O44: the one section's phase step and ring write, one register write, and the word that encoding gives. -/
theorem apRunsOneSection : Obligations.ApRunsOneSection := by
  refine ⟨fun xd ch xs s => ⟨_, rfl, ?_, fun q hq => ?_, s.readWord_apNext ch _, s.readByte_apNext ch _,
    fun j => s.getCh_apNext ch j _, rfl, rfl⟩, fun xd ch xs => ?_⟩
  · rw [State.getX_advance, State.getX_setX_self]
    rfl
  · rw [State.getX_advance, State.getX_setX, if_neg hq]
    rfl
  · rw [← encode_ap]
    exact decodeWord_encode rfl

/-! ## A cascade -/

/-- A section sees no sample register. -/
theorem State.apCascade_setX (r : XReg) (w : Word) (L : List Chan) (s : State) (x : Word) :
    (s.setX r w).apCascade L x = ((s.apCascade L x).1, (s.apCascade L x).2.setX r w) := by
  induction L generalizing s x with
  | nil => rfl
  | cons j L ih => exact ih (s.apNext j x) (s.apOut j x)

/-- A cascade changes the channels and the memory only. -/
theorem State.apCascade_frame (s : State) (L : List Chan) (x : Word) :
    { (s.apCascade L x).2 with ch := s.ch, mem := s.mem } = s := by
  induction L generalizing s x with
  | nil => rfl
  | cons j L ih =>
    calc { (s.apCascade (j :: L) x).2 with ch := s.ch, mem := s.mem }
      _ = { s.apNext j x with ch := s.ch, mem := s.mem } :=
        congrArg (fun t : State => { t with ch := s.ch, mem := s.mem }) (ih (s.apNext j x) (s.apOut j x))
      _ = s := s.apNext_frame j x

theorem State.getX_apCascade (s : State) (L : List Chan) (x : Word) (q : XReg) :
    (s.apCascade L x).2.getX q = s.getX q := by
  have hframe := congrArg (fun t : State => t.getX q) (s.apCascade_frame L x)
  exact hframe

/-- Over distinct channels each section moves its own channel on, as if it ran alone. -/
theorem State.getCh_apCascade {L : List Chan} (hL : L.Nodup) (s : State) (x : Word) (i : Chan) :
    (s.apCascade L x).2.getCh i = if i ∈ L then (s.getCh i).phaseAdvanced.stepCursor else s.getCh i := by
  induction L generalizing s x with
  | nil => rfl
  | cons j L ih =>
    obtain ⟨hj, hL⟩ := List.nodup_cons.1 hL
    rw [State.apCascade, ih hL, State.getCh_apNext]
    by_cases hi : i = j
    · subst hi
      simp [hj]
    · simp [hi]

/-- Over distinct channels each section stores to the ring word that its channel had before the cascade. -/
theorem State.readByte_apCascade {L : List Chan} (hL : L.Nodup) (s : State) (x : Word) {a : Nat}
    (ha : ∀ j ∈ L, a < s.sramAddr (s.ringWord j) ∨ s.sramAddr (s.ringWord j) + 4 ≤ a) :
    (s.apCascade L x).2.readByte a = s.readByte a := by
  induction L generalizing s x with
  | nil => rfl
  | cons j L ih =>
    obtain ⟨hj, hL⟩ := List.nodup_cons.1 hL
    obtain ⟨haj, haL⟩ := List.forall_mem_cons.1 ha
    have hrest : (s.apCascade (j :: L) x).2.readByte a = (s.apNext j x).readByte a := by
      refine ih hL (s.apNext j x) (s.apOut j x) fun i hi => ?_
      rw [State.ringWord_apNext_other s (ne_of_mem_of_not_mem hi hj) x]
      exact haL i hi
    exact hrest.trans (s.readByte_apNext j x a haj)

/-! ## The channels of APC -/

theorem apcChannels_succ (ch : Chan) {n : Nat} (hn : n < 7) :
    apcChannels ch (BitVec.ofNat 3 (n + 1)) = ch :: apcChannels (ch + 1#5) (BitVec.ofNat 3 n) := by
  have hsucc : ∀ k : Nat, ch + BitVec.ofNat 5 (k + 1) = ch + 1#5 + BitVec.ofNat 5 k := fun k => by
    rw [BitVec.ofNat_add, BitVec.add_comm (BitVec.ofNat 5 k), BitVec.add_assoc]
  rw [apcChannels, apcChannels, BitVec.toNat_ofNat, BitVec.toNat_ofNat, Nat.mod_eq_of_lt (by omega),
    Nat.mod_eq_of_lt (by omega), List.range_succ_eq_map, List.map_cons, List.map_map, BitVec.add_zero]
  exact congrArg (ch :: ·) (List.map_congr_left fun k _ => hsucc k)

theorem chan_toNat_add_ofNat {ch : Chan} {k : Nat} (h : ch.toNat + k ≤ 31) :
    (ch + BitVec.ofNat 5 k).toNat = ch.toNat + k := by
  rw [BitVec.toNat_add, BitVec.toNat_ofNat, Nat.add_mod_mod, Nat.mod_eq_of_lt (by omega)]

theorem mem_apcChannels {ch : Chan} {n : BitVec 3} (h : ch.toNat + n.toNat ≤ 31) (j : Chan) :
    j ∈ apcChannels ch n ↔ ch.toNat ≤ j.toNat ∧ j.toNat ≤ ch.toNat + n.toNat := by
  simp only [apcChannels, List.mem_map, List.mem_range]
  constructor
  · rintro ⟨k, hk, rfl⟩
    rw [chan_toNat_add_ofNat (by omega)]
    omega
  · rintro ⟨hlo, hhi⟩
    refine ⟨j.toNat - ch.toNat, by omega, BitVec.eq_of_toNat_eq ?_⟩
    rw [chan_toNat_add_ofNat (by omega)]
    omega

theorem apcChannels_nodup {ch : Chan} {n : BitVec 3} (h : ch.toNat + n.toNat ≤ 31) : (apcChannels ch n).Nodup := by
  refine List.Nodup.map_on (fun k hk l hl hkl => ?_) List.nodup_range
  rw [List.mem_range] at hk hl
  have hnat := congrArg BitVec.toNat hkl
  rw [chan_toNat_add_ofNat (by omega), chan_toNat_add_ofNat (by omega)] at hnat
  omega

/-! ## APC -/

theorem exec_apc {ch : Chan} {n : BitVec 3} (h : ch.toNat + n.toNat ≤ 31) (xd xs : XReg) (s : State) :
    exec (.apc xd ch xs n) s = .next
      ((s.apCascade (apcChannels ch n) (s.getX xs)).2.setX xd (s.apCascade (apcChannels ch n) (s.getX xs)).1).advance :=
  if_pos h

theorem State.setX_setX (s : State) (r : XReg) (v w : Word) : (s.setX r v).setX r w = s.setX r w :=
  congrArg (fun xs => { s with x := xs }) (Vector.set_set ..)

/-- Settles O45: the cascade's first section is AP's, and what AP writes to X[xd] the rest reads once and overwrites. -/
theorem apcIsACascadeOfAp : Obligations.ApcIsACascadeOfAp := by
  refine ⟨fun xd ch xs s => ?_, fun xd ch xs n s hn hch => ?_⟩
  · have hone : apcChannels ch 0#3 = [ch] := by simp [apcChannels]
    have hlegal : ch.toNat + (0#3).toNat ≤ 31 := Nat.le_of_lt_succ ch.isLt
    rw [exec_apc hlegal, hone]
    rfl
  · have hn3 : (BitVec.ofNat 3 n).toNat = n := Nat.mod_eq_of_lt (by omega)
    have hsucc3 : (BitVec.ofNat 3 (n + 1)).toNat = n + 1 := Nat.mod_eq_of_lt (by omega)
    have hch1 : (ch + 1#5).toNat = ch.toNat + 1 := chan_toNat_add_ofNat (by omega)
    refine ⟨_, _, rfl, exec_apc (by omega) xd xd ((s.apNext ch (s.getX xs)).setX xd (s.apOut ch (s.getX xs))), ?_⟩
    rw [exec_apc (by omega), apcChannels_succ ch hn, State.apCascade, State.getX_setX_self, State.apCascade_setX,
      State.setX_setX]

/-- Settles O46: the cascade over the distinct channels ch .. ch + n and one register write. -/
theorem apcFrame : Obligations.ApcFrame := by
  intro xd ch xs n s h
  have hframe := s.apCascade_frame (apcChannels ch n) (s.getX xs)
  refine ⟨_, exec_apc h xd xs s, fun q hq => ?_, fun j => ?_, fun a ha => ?_, ?_, ?_⟩
  · rw [State.getX_advance, State.getX_setX, if_neg hq]
    exact s.getX_apCascade _ _ q
  · simp only [← mem_apcChannels h]
    exact s.getCh_apCascade (apcChannels_nodup h) (s.getX xs) j
  · refine s.readByte_apCascade (apcChannels_nodup h) _ fun j hj => ?_
    obtain ⟨hlo, hhi⟩ := (mem_apcChannels h j).1 hj
    exact ha j hlo hhi
  · exact congrArg (· + 1) (pc_cascade _ s _)
  · exact congrArg (fun t : State => { t with x := s.x, pc := s.pc }) hframe

end Sys2Proof.Machine
end

section
/-! SUPPORT. The word of DAMP, and DAMP (30_encoding.md R111, R115; 45_damper.md R210, R211). -/

namespace Sys2Proof

/-- The damper index fills the low four bits of the field ch, whose top bit is 0. -/
theorem encode_damp (xd : XReg) (u : DampIx) (xs : XReg) : encode (.damp xd u xs) =
    0x38000000#32 ||| xd.setWidth 32 <<< 22 ||| xs.setWidth 32 <<< 18 ||| u.setWidth 32 <<< 9 := by
  have hfield : (0#1 ++ u).setWidth 32 = u.setWidth 32 := by
    rw [setWidth_append_eq_or]
    simp
  simp [encode, formatA_eq_or, hfield]

end Sys2Proof

namespace Sys2Proof.Machine

/-- Settles O47: a damper write and then one register write, and the word is the one encoding gives. -/
theorem dampFiltersTwoBands : Obligations.DampFiltersTwoBands := by
  refine ⟨fun xd u xs s => ?_, fun xd u xs => ?_⟩
  · obtain ⟨hxd, hother, hpc, -, hmem⟩ := writesOnlyX_setX_advance
      (s.setDmp u ((s.getDmp u).step (s.getX xs))) xd ((s.getDmp u).out (s.getX xs))
    exact ⟨_, rfl, hxd, hother, fun w => s.getDmp_setDmp u w _, hmem, hpc, rfl⟩
  · rw [← encode_damp]
    exact decodeWord_encode rfl

end Sys2Proof.Machine
end


section
/-! SUPPORT. HAD16: its butterfly stages block by block, the path of a NaN through them, and the Sylvester matrix they
compute on integers (46_hadamard.md R220, R221). -/

namespace Sys2Proof.Machine

/-! ## The stages, block by block

After `k` stages the blocks of 2^k elements have not met. A block of 2^(k+1) consists of a left and a right half, and
the next stage is a butterfly between the elements at the same place of both. -/

/-- The first `k` butterfly stages h = 1, 2, .., 2^(k-1), without the scaling (46_hadamard.md R220). -/
def hadStages (v : Nat → Word) : Nat → Nat → Word
  | 0 => v
  | k + 1 => hadStage (2 ^ k) id (hadStages v k)

/-- The scaling is the last operation on every element. -/
theorem hadamard_eq_fmul_hadStages (v : Nat → Word) (i : Nat) : hadamard v i = fmul (hadStages v 4 i) fQuarter := rfl

theorem and_two_pow_eq_zero_iff (j k : Nat) : j &&& 2 ^ k = 0 ↔ j / 2 ^ k % 2 = 0 := by
  rw [Nat.and_two_pow, Nat.testBit_eq_decide_div_mod_eq]
  simp

/-- An index of a block is in its left or in its right half. -/
theorem lt_two_pow_succ_iff {k b : Nat} : b < 2 ^ (k + 1) ↔ b < 2 ^ k ∨ ∃ a, a < 2 ^ k ∧ b = 2 ^ k + a := by
  rw [pow_succ]
  refine ⟨fun h => ?_, ?_⟩
  · rcases lt_or_ge b (2 ^ k) with hb | hb
    · exact .inl hb
    · exact .inr ⟨b - 2 ^ k, by omega, by omega⟩
  · rintro (h | ⟨a, ha, rfl⟩) <;> omega

theorem hadStages_left_half {k a : Nat} (ha : a < 2 ^ k) (v : Nat → Word) (p : Nat) :
    hadStages v (k + 1) (2 ^ (k + 1) * p + a) =
      fadd (hadStages v k (2 ^ k * (2 * p) + a)) (hadStages v k (2 ^ k * (2 * p + 1) + a)) := by
  have hidx : 2 ^ (k + 1) * p + a = 2 ^ k * (2 * p) + a := by ring
  have hpartner : 2 ^ k * (2 * p) + a + 2 ^ k = 2 ^ k * (2 * p + 1) + a := by ring
  have hleft : (2 ^ k * (2 * p) + a) &&& 2 ^ k = 0 := by
    rw [and_two_pow_eq_zero_iff, Nat.mul_add_div (Nat.two_pow_pos k), Nat.div_eq_of_lt ha]
    omega
  rw [hidx, hadStages, hadStage, if_pos hleft, hpartner, id]

theorem hadStages_right_half {k a : Nat} (ha : a < 2 ^ k) (v : Nat → Word) (p : Nat) :
    hadStages v (k + 1) (2 ^ (k + 1) * p + (2 ^ k + a)) =
      fsub (hadStages v k (2 ^ k * (2 * p) + a)) (hadStages v k (2 ^ k * (2 * p + 1) + a)) := by
  have hidx : 2 ^ (k + 1) * p + (2 ^ k + a) = 2 ^ k * (2 * p + 1) + a := by ring
  have hpartner : 2 ^ k * (2 * p + 1) + a - 2 ^ k = 2 ^ k * (2 * p) + a := by rw [Nat.mul_succ]; omega
  have hright : ¬ (2 ^ k * (2 * p + 1) + a) &&& 2 ^ k = 0 := by
    rw [and_two_pow_eq_zero_iff, Nat.mul_add_div (Nat.two_pow_pos k), Nat.div_eq_of_lt ha]
    omega
  rw [hidx, hadStages, hadStage, if_neg hright, hpartner, id]

/-! ## A NaN -/

/-- After `k` stages a NaN has reached every element of its block of 2^k. -/
theorem isNaN_hadStages {v : Nat → Word} {q : Nat} (hq : f32IsNaN (v q) = true) (k : Nat) {b : Nat} (hb : b < 2 ^ k) :
    f32IsNaN (hadStages v k (2 ^ k * (q / 2 ^ k) + b)) = true := by
  induction k generalizing b with
  | zero =>
    obtain rfl : b = 0 := by omega
    simpa [hadStages] using hq
  | succ k ih =>
    have hdiv : q / 2 ^ (k + 1) = q / 2 ^ k / 2 := by rw [pow_succ, Nat.div_div_eq_div_mul]
    have hhalf : q / 2 ^ k = 2 * (q / 2 ^ (k + 1)) ∨ q / 2 ^ k = 2 * (q / 2 ^ (k + 1)) + 1 := by omega
    have hpair : ∀ a, a < 2 ^ k →
        f32IsNaN (hadStages v k (2 ^ k * (2 * (q / 2 ^ (k + 1))) + a)) = true ∨
        f32IsNaN (hadStages v k (2 ^ k * (2 * (q / 2 ^ (k + 1)) + 1) + a)) = true := fun a ha => by
      rcases hhalf with h | h
      · exact .inl (h ▸ ih ha)
      · exact .inr (h ▸ ih ha)
    rcases lt_two_pow_succ_iff.1 hb with ha | ⟨a, ha, rfl⟩
    · rw [hadStages_left_half ha, (fadd_nanExactly _ _).isNaN_iff, ← or_assoc]
      exact .inl (hpair b ha)
    · rw [hadStages_right_half ha, (fsub_nanExactly _ _).isNaN_iff, ← or_assoc]
      exact .inl (hpair a ha)

/-- A NaN in one of the sixteen elements makes all sixteen results the canonical NaN (46_hadamard.md R221). -/
theorem hadamard_of_nan {v : Nat → Word} {q : Nat} (hq : f32IsNaN (v q) = true) (hq16 : q < 16) {i : Nat} (hi : i < 16) :
    hadamard v i = 0x7FC00000#32 := by
  have hblock : 2 ^ 4 * (q / 2 ^ 4) + i = i := by omega
  have hnan := isNaN_hadStages hq 4 hi
  rw [hblock] at hnan
  exact (fmul_nanExactly _ _).eq_of_invalid (.inl hnan)

/-! ## HAD16 -/

theorem exec_had16 (s : State) : exec .had16 s = .next { s with x := fwht16 s.x }.advance := rfl

/-- Writing the sample registers leaves every field but them and pc, and the memory. -/
theorem withX_advance_frame (s : State) (x : Vector Word 16) :
    { { s with x := x }.advance with x := s.x, pc := s.pc } = s ∧ SameMemory s { s with x := x }.advance :=
  ⟨rfl, fun _ => rfl⟩

/-- HAD16's results are the transform of the register file. -/
theorem getX_of_exec_had16 {s t : State} (h : exec .had16 s = .next t) (r : XReg) :
    t.getX r = hadamard (fun i => s.getX (BitVec.ofNat 4 i)) r.toNat := by
  have hat : ∀ x : Vector Word 16, at16 x r.toNat = x[r.toNat] := fun x => by
    simp only [at16, Nat.mod_eq_of_lt r.isLt]
  have hin : ∀ i, i < 16 → at16 s.x i = s.getX (BitVec.ofNat 4 i) := fun i _ => by
    simp only [at16, State.getX, BitVec.toNat_ofNat, Nat.reducePow]
  rw [exec_had16] at h
  injection h with ht
  rw [← ht, ← fwht16_get s.x _ hin _ r.isLt, hat]
  rfl

theorem encode_had16 : encode .had16 = 0x3C000000#32 := by decide

/-- Settles O48: the transform is read off the register file, and a NaN spreads by blocks that double. -/
theorem had16TransformsAllRegisters : Obligations.Had16TransformsAllRegisters := by
  refine ⟨fun s => ⟨_, exec_had16 s, getX_of_exec_had16 (exec_had16 s), rfl, withX_advance_frame s _⟩,
    fun s t q hq h r => ?_, ?_⟩
  · rw [getX_of_exec_had16 h]
    exact hadamard_of_nan (q := q.toNat) (by rwa [BitVec.ofNat_toNat, BitVec.setWidth_eq]) q.isLt r.isLt
  · rw [← encode_had16]
    exact decodeWord_encode rfl

/-! ## The Sylvester matrix -/

/-- Element (r, j) of the Sylvester matrix of 2^k rows: the parity of the bits that r and j share. -/
def walshSign (k r j : Nat) : Int := (-1) ^ (List.range k).countP fun b => (r &&& j).testBit b

/-- Row `r` of the matrix of 2^k rows, applied to block `p` of `m`. -/
def walshSum (m : Nat → Int) (k p r : Nat) : Int :=
  ∑ j ∈ Finset.range (2 ^ k), walshSign k r j * m (2 ^ k * p + j)

/-- The matrix of 2^(k+1) rows is four copies of the one of 2^k rows, the last of the other sign. -/
theorem walshSign_succ {k r j : Nat} (hr : r < 2 ^ k) (hj : j < 2 ^ k) (c d : Bool) :
    walshSign (k + 1) (2 ^ k * c.toNat + r) (2 ^ k * d.toNat + j) =
      (if (c && d) = true then -1 else 1) * walshSign k r j := by
  have hlow : (List.range k).countP (fun b => ((2 ^ k * c.toNat + r) &&& (2 ^ k * d.toNat + j)).testBit b) =
      (List.range k).countP fun b => (r &&& j).testBit b := by
    refine List.countP_congr fun b hb => ?_
    rw [Nat.testBit_and, Nat.testBit_two_pow_mul_add _ hr, Nat.testBit_two_pow_mul_add _ hj, if_pos (List.mem_range.1 hb),
      if_pos (List.mem_range.1 hb), Nat.testBit_and]
  have htop : ((2 ^ k * c.toNat + r) &&& (2 ^ k * d.toNat + j)).testBit k = (c && d) := by
    rw [Nat.testBit_and, Nat.testBit_two_pow_mul_add _ hr, Nat.testBit_two_pow_mul_add _ hj, if_neg (lt_irrefl k),
      if_neg (lt_irrefl k), Nat.sub_self]
    cases c <;> cases d <;> rfl
  rw [walshSign, walshSign, List.range_succ, List.countP_append, hlow, List.countP_singleton, htop, pow_add, mul_comm]
  cases c && d <;> rfl

/-- A row of the doubled matrix adds or subtracts the results of the two halves. -/
theorem walshSum_succ (m : Nat → Int) (p : Nat) {k r : Nat} (hr : r < 2 ^ k) (c : Bool) :
    walshSum m (k + 1) p (2 ^ k * c.toNat + r) =
      walshSum m k (2 * p) r + (if c = true then -1 else 1) * walshSum m k (2 * p + 1) r := by
  have hidx : ∀ (d : Bool) (j : Nat), 2 ^ (k + 1) * p + (2 ^ k * d.toNat + j) = 2 ^ k * (2 * p + d.toNat) + j :=
    fun d j => by ring
  have hhalf : ∀ d : Bool, ∑ j ∈ Finset.range (2 ^ k), walshSign (k + 1) (2 ^ k * c.toNat + r) (2 ^ k * d.toNat + j) *
      m (2 ^ (k + 1) * p + (2 ^ k * d.toNat + j)) =
      (if (c && d) = true then -1 else 1) * walshSum m k (2 * p + d.toNat) r := fun d => by
    rw [walshSum, Finset.mul_sum]
    refine Finset.sum_congr rfl fun j hj => ?_
    rw [walshSign_succ hr (Finset.mem_range.1 hj), hidx, mul_assoc]
  calc walshSum m (k + 1) p (2 ^ k * c.toNat + r)
    _ = ∑ j ∈ Finset.range (2 ^ k + 2 ^ k), walshSign (k + 1) (2 ^ k * c.toNat + r) j * m (2 ^ (k + 1) * p + j) := by
      rw [← Nat.two_pow_succ]; rfl
    _ = walshSum m k (2 * p) r + (if c = true then -1 else 1) * walshSum m k (2 * p + 1) r := by
      rw [Finset.sum_range_add]
      congr 1
      · simpa using hhalf false
      · simpa using hhalf true

theorem walshSum_left_half (m : Nat → Int) (p : Nat) {k r : Nat} (hr : r < 2 ^ k) :
    walshSum m (k + 1) p r = walshSum m k (2 * p) r + walshSum m k (2 * p + 1) r := by
  simpa using walshSum_succ m p hr false

theorem walshSum_right_half (m : Nat → Int) (p : Nat) {k r : Nat} (hr : r < 2 ^ k) :
    walshSum m (k + 1) p (2 ^ k + r) = walshSum m k (2 * p) r - walshSum m k (2 * p + 1) r := by
  simpa [← sub_eq_add_neg] using walshSum_succ m p hr true

theorem abs_walshSum_le {m : Nat → Int} {B : Int} (hm : ∀ i, |m i| ≤ B) (k p r : Nat) :
    |walshSum m k p r| ≤ 2 ^ k * B := by
  have hterm : ∀ j ∈ Finset.range (2 ^ k), |walshSign k r j * m (2 ^ k * p + j)| ≤ B := fun j _ => by
    rw [abs_mul, walshSign, abs_neg_one_pow, one_mul]
    exact hm _
  refine (Finset.abs_sum_le_sum_abs _ _).trans ((Finset.sum_le_card_nsmul _ _ _ hterm).trans_eq ?_)
  simp

/-! ## Integers in binary32 -/

/-- The finite pattern `w` stands for the integer `z`. -/
def HoldsInt (w : Word) (z : Int) : Prop := f32IsFinite w = true ∧ f32Value w = z

theorem HoldsInt.neg {a : Word} {x : Int} (ha : HoldsInt a x) : HoldsInt (fneg a) (-x) :=
  ⟨by rw [f32IsFinite_fneg, ha.1], by rw [f32Value_fneg, ha.2]; push_cast; rfl⟩

/-- Every integer of magnitude at most 2^24 has a pattern. -/
theorem exists_holdsInt {z : Int} (hz : |z| ≤ 2 ^ 24) : ∃ w, HoldsInt w z := by
  have hnat : ∀ n : Nat, n ≤ 2 ^ 24 → ∃ w, HoldsInt w n := fun n hn => by
    rcases hn.lt_or_eq with hlt | rfl
    · exact ⟨i2f n, (i2f_exact hlt).imp_right fun h => by rw [h]; push_cast; rfl⟩
    · exact ⟨0x4B800000#32, by decide, by
        rw [f32Value_of_unpack_leadingBit (e := 1) (by decide)]; norm_num⟩
  obtain ⟨n, rfl | rfl⟩ := Int.eq_nat_or_neg z
  · exact hnat n (by simpa using hz)
  · obtain ⟨w, hw⟩ := hnat n (by simpa using hz)
    exact ⟨_, hw.neg⟩

theorem HoldsInt.sub {a b : Word} {x y : Int} (ha : HoldsInt a x) (hb : HoldsInt b y) (h : |x - y| ≤ 2 ^ 24) :
    HoldsInt (fsub a b) (x - y) := by
  obtain ⟨c, hc, hcv⟩ := exists_holdsInt h
  obtain ⟨hfin, hval⟩ := fsub_exact ha.1 hb.1 hc (by rw [hcv, ha.2, hb.2]; push_cast; rfl)
  exact ⟨hfin, by rw [hval, ha.2, hb.2]; push_cast; rfl⟩

theorem HoldsInt.add {a b : Word} {x y : Int} (ha : HoldsInt a x) (hb : HoldsInt b y) (h : |x + y| ≤ 2 ^ 24) :
    HoldsInt (fadd a b) (x + y) := by
  rw [← sub_neg_eq_add] at h ⊢
  rw [← fneg_fneg b, ← fsub_eq_fadd_fneg]
  exact ha.sub hb.neg h

/-- A quarter of an integer is exact (41_arith.md R163). -/
theorem HoldsInt.fmul_quarter {a : Word} {x : Int} (ha : HoldsInt a x) (h : |x| ≤ 2 ^ 24) :
    f32IsFinite (fmul a fQuarter) = true ∧ f32Value (fmul a fQuarter) = (1 / 4 : ℚ) * x := by
  obtain ⟨hfin, hval⟩ := ha
  have hq : f32Value fQuarter = 2 ^ (-2 : ℤ) := f32Value_of_unpack_leadingBit (e := -25) (by decide)
  have hprod : f32Value a * f32Value fQuarter = (1 / 4 : ℚ) * x := by rw [hval, hq]; norm_num; ring
  have hrange : f32Value a * f32Value fQuarter = 0 ∨
      (1 / 2 ^ 126 ≤ |f32Value a * f32Value fQuarter| ∧ |f32Value a * f32Value fQuarter| < 2 ^ 128) := by
    rw [hprod, abs_mul]
    rcases eq_or_ne x 0 with rfl | hx
    · simp
    · have hlo : 1 ≤ |(x : ℚ)| := by exact_mod_cast Int.one_le_abs hx
      have hhi : |(x : ℚ)| ≤ 2 ^ 24 := by exact_mod_cast h
      exact .inr (by norm_num; constructor <;> linarith)
  obtain ⟨hfin', hval'⟩ := fmul_zpow_exact hfin (by decide) hq hrange
  exact ⟨hfin', hval'.trans hprod⟩

/-! ## HAD16 on integers -/

/-- The stages compute the matrix exactly: no sum leaves 24 bits. -/
theorem holdsInt_hadStages {v : Nat → Word} {m : Nat → Int} (hv : ∀ i, HoldsInt (v i) (m i))
    (hm : ∀ i, |m i| ≤ 2 ^ 20) {k : Nat} (hk : k ≤ 4) (p : Nat) {b : Nat} (hb : b < 2 ^ k) :
    HoldsInt (hadStages v k (2 ^ k * p + b)) (walshSum m k p b) := by
  induction k generalizing p b with
  | zero =>
    obtain rfl : b = 0 := by omega
    simpa [hadStages, walshSum, walshSign] using hv p
  | succ k ih =>
    have hbound : |walshSum m (k + 1) p b| ≤ 2 ^ 24 :=
      calc |walshSum m (k + 1) p b| ≤ 2 ^ (k + 1) * 2 ^ 20 := abs_walshSum_le hm _ _ _
        _ ≤ 2 ^ 4 * 2 ^ 20 := by gcongr; norm_num
        _ = 2 ^ 24 := by norm_num
    have ih' := ih (by omega)
    rcases lt_two_pow_succ_iff.1 hb with ha | ⟨a, ha, rfl⟩
    · rw [walshSum_left_half m p ha] at hbound ⊢
      rw [hadStages_left_half ha]
      exact (ih' _ ha).add (ih' _ ha) hbound
    · rw [walshSum_right_half m p ha] at hbound ⊢
      rw [hadStages_right_half ha]
      exact (ih' _ ha).sub (ih' _ ha) hbound

/-- HAD16 on integers: a quarter of the matrix's row (46_hadamard.md R220). -/
theorem hadamard_of_holdsInt {v : Nat → Word} {m : Nat → Int} (hv : ∀ i, HoldsInt (v i) (m i))
    (hm : ∀ i, |m i| ≤ 2 ^ 20) {r : Nat} (hr : r < 16) :
    f32IsFinite (hadamard v r) = true ∧ f32Value (hadamard v r) = (1 / 4 : ℚ) * walshSum m 4 0 r := by
  have hholds := holdsInt_hadStages hv hm le_rfl 0 hr
  rw [Nat.mul_zero, Nat.zero_add] at hholds
  exact hholds.fmul_quarter (abs_walshSum_le hm 4 0 r)

/-- The row of the matrix, with the sign of an element written as a choice. -/
theorem walshSum_eq_sum_ite {m n : Nat → Int} (k r : Nat) (h : ∀ j, j < 2 ^ k → m j = n j) :
    walshSum m k 0 r = ((List.range (2 ^ k)).map fun j =>
      if (List.range k).countP (fun b => (r &&& j).testBit b) % 2 = 0 then n j else -n j).sum := by
  have hsum : walshSum m k 0 r = ∑ j ∈ Finset.range (2 ^ k),
      if (List.range k).countP (fun b => (r &&& j).testBit b) % 2 = 0 then n j else -n j := by
    refine Finset.sum_congr rfl fun j hj => ?_
    rw [Nat.mul_zero, Nat.zero_add, h j (Finset.mem_range.1 hj), walshSign, neg_one_pow_eq_pow_mod_two]
    rcases Nat.mod_two_eq_zero_or_one ((List.range k).countP fun b => (r &&& j).testBit b) with hc | hc
    · rw [hc, if_pos rfl, pow_zero, one_mul]
    · rw [hc, if_neg one_ne_zero, pow_one, neg_one_mul]
  exact hsum

/-- Settles O49: the stages hold the integer sums exactly, and the last multiplication quarters them. -/
theorem hadamardIsSylvester : Obligations.HadamardIsSylvester := by
  intro s t n hs hn h r
  have hv : ∀ i, HoldsInt (s.getX (BitVec.ofNat 4 i)) (n (i % 16)) := fun i => hs (BitVec.ofNat 4 i)
  have hm : ∀ i, |n (i % 16)| ≤ 2 ^ 20 := fun i => hn _ (Nat.mod_lt i (by decide))
  have hrow := walshSum_eq_sum_ite (m := fun i => n (i % 16)) (n := n) 4 r.toNat fun j hj =>
    congrArg n (Nat.mod_eq_of_lt hj)
  obtain ⟨hfin, hval⟩ := hadamard_of_holdsInt hv hm r.isLt
  rw [getX_of_exec_had16 h]
  exact ⟨hfin, hval.trans (congrArg (fun z : Int => (1 / 4 : ℚ) * z) hrow)⟩

end Sys2Proof.Machine
end

section
/-! SUPPORT. Reset and PREPARE: the reset channels and their rings, the reset values, and what PREPARE clears
(70_reset_and_hazards.md R300, R301, R303). -/

namespace Sys2Proof.Machine

/-! ## The reset channels -/

@[simp] theorem State.getCh_resetWith (k : Nat) (j : Chan) : (State.resetWith k).getCh j = Channel.reset k j.toNat := by
  simp [State.getCh, State.resetWith]

@[simp] theorem State.getCh_resetEvent (s : State) (j : Chan) :
    s.resetEvent.getCh j = Channel.reset s.sramLog2 j.toNat := State.getCh_resetWith s.sramLog2 j

@[simp] theorem State.getX_resetEvent (s : State) (r : XReg) : s.resetEvent.getX r = 0#32 := by
  simp [State.getX, State.resetEvent, State.resetWith]

@[simp] theorem State.getDmp_resetEvent (s : State) (u : DampIx) : s.resetEvent.getDmp u = Damper.reset := by
  simp [State.getDmp, State.resetEvent, State.resetWith]

@[simp] theorem State.getDcb_resetEvent (s : State) (u : DcbIx) : s.resetEvent.getDcb u = DcBlocker.reset := by
  simp [State.getDcb, State.resetEvent, State.resetWith]

/-- A sample RAM of at least 2^5 words is 32 times a ring of the reset layout. -/
theorem two_pow_eq_mul_ring {k : Nat} (hk : 10 ≤ k) : 2 ^ k = 32 * 2 ^ (k - 5) :=
  calc 2 ^ k = 2 ^ (5 + (k - 5)) := by congr 1; omega
    _ = 32 * 2 ^ (k - 5) := Nat.pow_add 2 5 (k - 5)

theorem Channel.reset_dlLog2_toNat {k : Nat} (hk : k ≤ 24) (j : Nat) : (Channel.reset k j).dlLog2.toNat = k - 5 := by
  rw [Channel.reset, BitVec.toNat_ofNat]
  omega

/-- The start of a reset ring fits in its register (70_reset_and_hazards.md R301). -/
theorem Channel.reset_dlBase_toNat {k : Nat} (hk : 10 ≤ k) (hk' : k ≤ 24) (j : Chan) :
    (Channel.reset k j.toNat).dlBase.toNat = j.toNat * 2 ^ (k - 5) := by
  have hbase : j.toNat * 2 ^ (k - 5) < 2 ^ k := by
    rw [two_pow_eq_mul_ring hk]
    exact Nat.mul_lt_mul_of_pos_right j.isLt (Nat.two_pow_pos _)
  have hword : 2 ^ k < 2 ^ 32 := Nat.pow_lt_pow_right (by decide) (by omega)
  rw [Channel.reset, BitVec.toNat_ofNat, Nat.mod_eq_of_lt (hbase.trans hword)]

/-- Word `w` belongs to the reset ring whose number is the quotient of `w` by the ring size. -/
theorem Channel.inRing_reset_iff {k : Nat} (hk : 10 ≤ k) (hk' : k ≤ 24) (j : Chan) (w : Nat) :
    (Channel.reset k j.toNat).InRing k w ↔ w / 2 ^ (k - 5) = j.toNat := by
  have hpos : 0 < 2 ^ (k - 5) := Nat.two_pow_pos _
  have hnowrap : ∀ m, m < 2 ^ (k - 5) → (j.toNat * 2 ^ (k - 5) + m) % 2 ^ k = j.toNat * 2 ^ (k - 5) + m := fun m hm => by
    have hj : (j.toNat + 1) * 2 ^ (k - 5) ≤ 32 * 2 ^ (k - 5) := Nat.mul_le_mul_right _ j.isLt
    rw [Nat.add_mul] at hj
    exact Nat.mod_eq_of_lt (by rw [two_pow_eq_mul_ring hk]; omega)
  rw [Channel.InRing, Channel.reset_dlLog2_toNat hk', Channel.reset_dlBase_toNat hk hk']
  constructor
  · rintro ⟨m, hm, rfl⟩
    rw [hnowrap m hm, Nat.add_comm, Nat.add_mul_div_right _ _ hpos, Nat.div_eq_of_lt hm, Nat.zero_add]
  · intro hw
    refine ⟨w % 2 ^ (k - 5), Nat.mod_lt w hpos, ?_⟩
    rw [hnowrap _ (Nat.mod_lt w hpos), ← hw, Nat.mul_comm, Nat.div_add_mod]

/-- Settles O21: the ring of a word is the word's quotient by the ring size. -/
theorem resetRingsPartitionTheSampleRam : Obligations.ResetRingsPartitionTheSampleRam := by
  intro k hk hk'
  simp only [State.getCh_resetWith, Channel.inRing_reset_iff hk hk']
  refine ⟨fun j => ⟨?_, Channel.reset_dlBase_toNat hk hk' j⟩, fun w hw => ?_, fun i j w hi hj => ?_⟩
  · rw [Channel.size, Channel.reset_dlLog2_toNat hk']
  · have hring : w / 2 ^ (k - 5) < 32 :=
      Nat.div_lt_of_lt_mul (by rwa [Nat.mul_comm, ← two_pow_eq_mul_ring hk])
    exact ⟨BitVec.ofNat 5 (w / 2 ^ (k - 5)), (Nat.mod_eq_of_lt hring).symm⟩
  · exact BitVec.eq_of_toNat_eq (hi.symm.trans hj)

/-! ## The reset state -/

/-- Settles O56: the invariant does not speak of the counter of resets, by which a reset differs from the reset state. -/
theorem invariantHoldsAtReset : Obligations.InvariantHoldsAtReset := by
  have hreset : ∀ k, 10 ≤ k → k ≤ 24 → (State.resetWith k).Inv := fun k hk hk' => by
    have h := (State.resetWith k).resetEvent_inv ⟨hk, hk'⟩
    exact .of_dataInv h.size h.pcRange h.ready h.dataInv
  exact ⟨hreset _ (by decide) (by decide), hreset⟩

/-- Settles O20: each register's reset value, and the GO that finds PREPARED = 0. -/
theorem resetValues : Obligations.ResetValues := by
  intro s rest hk hk' hi
  have hparams : BitVec.ofNat 32 (0x01050800 + s.sramLog2) =
      BitVec.ofNat 32 (2 ^ 24 * 1 + 2 ^ 16 * 5 + 2 ^ 8 * 8 + s.sramLog2 % 2 ^ 5) :=
    congrArg _ (by omega)
  have hch : ∀ j : Chan, ({ s with inbox := rest } : State).resetEvent.getCh j = Channel.reset s.sramLog2 j.toNat :=
    State.getCh_resetEvent _
  refine ⟨_, step_reset hi, State.getX_resetEvent _, rfl, rfl, rfl, rfl, rfl, rfl, rfl, rfl, rfl, rfl, rfl, rfl, rfl,
    rfl, ?_, ?_, rfl, rfl, rfl, rfl, rfl, rfl, rfl, fun j => ?_, State.getDmp_resetEvent _, State.getDcb_resetEvent _,
    rfl, rfl, ?_⟩
  · simp [BusValue]
  · rw [hparams]
    simp [BusValue, State.resetEvent, State.resetWith]
  · rw [hch]
    exact ⟨Channel.reset_dlBase_toNat hk hk' j, Channel.reset_dlLog2_toNat hk' _, rfl, rfl, rfl, rfl, rfl, rfl⟩
  · rw [step_write_idle (T := .ctrl) rfl rfl rfl rfl]
    rfl

/-! ## PREPARE -/

/-- After PREPARE every sample word is 0 (70_reset_and_hazards.md R303). -/
theorem State.readWord_clearAudio_sample (s : State) {a : Nat} (h : Config.sramBase ≤ a) :
    s.clearAudio.readWord a = some 0#32 := by
  have hbyte : ∀ k, s.clearAudio.readByte (a + k) = some 0#8 := fun k => s.readByte_clearAudio_sample _ (by omega)
  exact State.readWord_of_bytes (hbyte 0) (hbyte 1) (hbyte 2) (hbyte 3)

theorem State.getX_clearAudio (s : State) (r : XReg) : s.clearAudio.getX r = 0#32 := by
  simp [State.getX, State.clearAudio]

/-- Settles O19: the CTRL write of bit 1, and the sequence field by field. -/
theorem prepareClearsTheAudioState : Obligations.PrepareClearsTheAudioState := by
  refine ⟨fun s v rest hs hi hprep => ?_, fun s hi hs => ?_⟩
  · rw [ctrlWriteStartsSequences.1 s v rest hs hi, if_pos hprep]
  · have hstep : step s = .next (s.finishPrepare false) := by
      rw [step_inbox_nil hi, State.sequence, hs]
      rfl
    refine ⟨_, hstep, rfl, rfl, fun w _ => ?_, s.getCh_clearAudio, s.getDmp_clearAudio, s.getDcb_clearAudio,
      s.getX_clearAudio, rfl, s.readByte_clearAudio_program, rfl⟩
    exact s.readWord_clearAudio_sample (Nat.le_add_right _ _)

end Sys2Proof.Machine
end

section
/-! SUPPORT. What ends a frame and what does not: an illegal word, which aborts it, and the legal instructions, which
complete and, END apart, go on (60_exceptions.md R271 to R275). -/

namespace Sys2Proof.Machine

/-- A step other than a reset that clears ILL takes the host's write of 1 to it (60_exceptions.md R276). -/
theorem StepEffect.write_of_ill_cleared {s t : State} (h : StepEffect s t) (hs : s.ill = true) (ht : t.ill = false) :
    ∃ v rest, s.seq = .idle ∧ s.inbox = .write 4#32 32 v :: rest ∧ v.getLsbD 3 = true := by
  cases h
  case write a bits v T rest hi hidle hT =>
    by_cases hst : T = .status
    · subst hst
      obtain ⟨rfl, rfl⟩ := State.busTarget_eq_status hT
      refine ⟨v, rest, hidle, hi, ?_⟩
      simpa [State.writeTarget, State.writeStatus, hs] using ht
    · obtain ⟨-, hill, -⟩ := State.writeTarget_statusBits { s with inbox := rest } v hst
      cases hs.symm.trans (hill.symm.trans ht)
  case run i rest _ _ hw he hx =>
    obtain ⟨_, _, _, _, _, _, _, rfl⟩ := (keeps_of_exec hw he hx).1.exists_eq
    cases hs.symm.trans ht
  all_goals simp [hs] at ht

/-- Settles O6: the abort, the CTRL write that starts the next frame, and the effects of a step that clear ILL. -/
theorem illegalWordAbortsTheFrame : Obligations.IllegalWordAbortsTheFrame := by
  refine ⟨fun s w hi hs hp hw hl => ?_, fun s v rest hs hp hi hprep hgo => ?_, fun s t h hs ht => ?_⟩
  · exact (step_inbox_nil hi).trans (State.sequence_illegal hs hp hw hl)
  · rw [ctrlWriteStartsSequences.1 s v rest hs hi, if_neg (Bool.eq_false_iff.1 hprep), if_pos ⟨hgo, hp⟩]
  · obtain ⟨rest, hi, -⟩ | he := step_effect h
    · exact .inl ⟨rest, hi⟩
    · exact .inr (he.write_of_ill_cleared hs ht)

/-- Settles O60: END leaves the record of errors, and every other instruction keeps what `Keeps` names. -/
theorem legalInstructionsAlwaysComplete : Obligations.LegalInstructionsAlwaysComplete := by
  intro i s hw
  by_cases he : i = .endFrame
  · subst he
    exact ⟨s.endFrame, rfl, rfl, rfl, rfl, rfl, rfl, rfl, rfl, fun h => absurd rfl h⟩
  · obtain ⟨t, hx, hk, hlo, hhi⟩ := exec_keeps i s hw he
    obtain ⟨_, _, _, _, _, _, _, rfl⟩ := hk.exists_eq
    exact ⟨_, hx, rfl, rfl, rfl, rfl, rfl, rfl, rfl, fun _ => ⟨rfl, rfl, rfl, hlo, hhi⟩⟩

end Sys2Proof.Machine
end

section
/-! SUPPORT. The word of DCB (30_encoding.md R111, R115). -/

namespace Sys2Proof

/-- The DC-blocker index fills the low bit of the field ch, whose other bits are 0. -/
theorem encode_dcb (xd : XReg) (u : DcbIx) (xs : XReg) : encode (.dcb xd u xs) =
    0x48000000#32 ||| xd.setWidth 32 <<< 22 ||| xs.setWidth 32 <<< 18 ||| u.setWidth 32 <<< 9 := by
  have hfield : (0#4 ++ u).setWidth 32 = u.setWidth 32 := by
    rw [setWidth_append_eq_or]
    simp
  simp [encode, formatA_eq_or, hfield]

end Sys2Proof
end

section
/-! SUPPORT. A change of sign through the operations: rounding, products and quotients (00_scope.md R11). -/

namespace Sys2Proof.Machine

theorem f32IsNaN_fneg (a : Word) : f32IsNaN (fneg a) = f32IsNaN a := by
  unfold f32IsNaN
  rw [f32Mag_fneg]

theorem f32Key_fneg (a : Word) : f32Key (fneg a) = -f32Key a := by
  unfold f32Key
  rw [f32Mag_fneg, f32Sign_fneg]
  cases f32Sign a <;> simp

/-- A change of both signs turns the comparison round. -/
theorem flt_fneg_fneg (a b : Word) : flt (fneg a) (fneg b) = flt b a := by
  simp only [flt, f32IsNaN_fneg, f32Key_fneg, neg_lt_neg_iff, Bool.and_comm (!f32IsNaN a)]

theorem fneg_f32OfMag (neg : Bool) {p : Nat} (hp : p < 2 ^ 31) : fneg (f32OfMag neg p) = f32OfMag (!neg) p := by
  rw [← f32OfMag_sign_mag (fneg (f32OfMag neg p)), f32Sign_fneg, f32Mag_fneg, f32Sign_f32OfMag neg p hp,
    f32Mag_f32OfMag neg p hp]

theorem fneg_f32Inf (neg : Bool) : fneg (f32Inf neg) = f32Inf (!neg) := fneg_f32OfMag neg (by decide)

/-- Rounding does not look at the sign. -/
theorem fneg_f32Round (neg : Bool) (m : Nat) (e : Int) : fneg (f32Round neg m e) = f32Round (!neg) m e := by
  have hmag : (if m = 0 then 0 else roundMag m e) ≤ 0x7F800000 := by
    split
    · exact Nat.zero_le _
    · exact min_le_right _ _
  exact fneg_f32OfMag neg (by omega)

theorem mulVal_neg_left {x y : FVal} (h : f32IsNaN (mulVal x y) = false) : mulVal x.neg y = fneg (mulVal x y) := by
  cases x with
  | nan => cases h
  | inf s =>
    cases y with
    | nan => cases h
    | inf t => simp only [FVal.neg, mulVal, fneg_f32Inf, Bool.not_bne]
    | fin t n f =>
      by_cases hn : n = 0
      · simp only [mulVal, if_pos hn] at h
        cases h
      · simp only [FVal.neg, mulVal, if_neg hn, fneg_f32Inf, Bool.not_bne]
  | fin s m e =>
    cases y with
    | nan => cases h
    | inf t =>
      by_cases hm : m = 0
      · simp only [mulVal, if_pos hm] at h
        cases h
      · simp only [FVal.neg, mulVal, if_neg hm, fneg_f32Inf, Bool.not_bne]
    | fin t n f => simp only [FVal.neg, mulVal, fneg_f32Round, Bool.not_bne]

theorem divFin_neg_left {s : Bool} {m : Nat} {e : Int} {t : Bool} {n : Nat} {f : Int}
    (h : f32IsNaN (divFin s m e t n f) = false) : divFin (!s) m e t n f = fneg (divFin s m e t n f) := by
  unfold divFin at h ⊢
  by_cases hn : n = 0
  · by_cases hm : m = 0
    · rw [if_pos hn, if_pos hm] at h
      cases h
    · simp only [if_pos hn, if_neg hm, fneg_f32Inf, Bool.not_bne]
  · simp only [if_neg hn, fneg_f32Round, Bool.not_bne]

theorem divVal_neg_left {x y : FVal} (h : f32IsNaN (divVal x y) = false) : divVal x.neg y = fneg (divVal x y) := by
  cases x with
  | nan => cases h
  | inf s =>
    cases y with
    | nan | inf t => cases h
    | fin t n f => simp only [FVal.neg, divVal, fneg_f32Inf, Bool.not_bne]
  | fin s m e =>
    cases y with
    | nan => cases h
    | inf t => simp only [FVal.neg, divVal, fneg_f32OfMag _ (Nat.two_pow_pos 31), Bool.not_bne]
    | fin t n f => exact divFin_neg_left h

/-- A product that is a number changes its sign with its first factor. -/
theorem fmul_fneg_left {a b : Word} (h : f32IsNaN (fmul a b) = false) : fmul (fneg a) b = fneg (fmul a b) := by
  rw [fmul, f32Unpack_fneg]
  exact mulVal_neg_left h

/-- A quotient that is a number changes its sign with its dividend. -/
theorem fdiv_fneg_left {a b : Word} (h : f32IsNaN (fdiv a b) = false) : fdiv (fneg a) b = fneg (fdiv a b) := by
  rw [fdiv, f32Unpack_fneg]
  exact divVal_neg_left h

end Sys2Proof.Machine
end

section
/-! SUPPORT. Bounds: a result rounded from between two patterns is between them (00_scope.md R11). -/

namespace Sys2Proof.Machine

/-- A finite pattern of a value from `lo` to `hi`. -/
def FiniteIn (lo hi : ℚ) (a : Word) : Prop := f32IsFinite a = true ∧ lo ≤ f32Value a ∧ f32Value a ≤ hi

/-- Rounding to nearest does not cross a pattern. -/
theorem F32RoundsTo.finiteIn {r lo hi : Word} {v : ℚ} (h : F32RoundsTo r v) (hlo : f32IsFinite lo = true)
    (hhi : f32IsFinite hi = true) (hv : f32Value lo ≤ v ∧ v ≤ f32Value hi) : FiniteIn (f32Value lo) (f32Value hi) r := by
  have hlt : |v| < 2 ^ 128 - 2 ^ 103 := by
    have hl := abs_lt.1 (f32Value_abs_lt hlo)
    have hh := abs_lt.1 (f32Value_abs_lt hhi)
    exact abs_lt.2 ⟨by linarith, by linarith⟩
  rw [F32RoundsTo, if_pos hlt] at h
  obtain ⟨hfin, -, hnear⟩ := h
  refine ⟨hfin, ?_, ?_⟩
  · by_contra hc
    have hdist := (hnear lo hlo).1
    rw [abs_of_nonpos (by linarith), abs_of_nonpos (by linarith)] at hdist
    linarith
  · by_contra hc
    have hdist := (hnear hi hhi).1
    rw [abs_of_nonneg (by linarith), abs_of_nonneg (by linarith)] at hdist
    linarith

/-- A result that is rounded from `v`, or a zero when `v` is zero, is between the integers that `v` is between. -/
theorem finiteIn_of_spec {r : Word} {v : ℚ} {z : Bool} {lo hi : Int}
    (h : (v ≠ 0 → F32RoundsTo r v) ∧ (v = 0 → r = f32OfMag z 0)) (hlo : |lo| ≤ 2 ^ 24) (hhi : |hi| ≤ 2 ^ 24)
    (hv : lo ≤ v ∧ v ≤ hi) : FiniteIn lo hi r := by
  by_cases h0 : v = 0
  · obtain ⟨hfin, hval⟩ := f32OfMag_zero_exact z
    rw [h.2 h0]
    exact ⟨hfin, by rw [hval, ← h0]; exact hv.1, by rw [hval, ← h0]; exact hv.2⟩
  · obtain ⟨a, haf, hav⟩ := exists_holdsInt hlo
    obtain ⟨b, hbf, hbv⟩ := exists_holdsInt hhi
    rw [← hav, ← hbv] at hv ⊢
    exact (h.1 h0).finiteIn haf hbf hv

/-- A product of numbers is a number. -/
theorem f32IsNaN_fmul {a b : Word} (ha : f32IsFinite a = true) (hb : f32IsFinite b = true) :
    f32IsNaN (fmul a b) = false := by
  obtain ⟨m, e, hua, -⟩ := f32Unpack_of_finite ha
  obtain ⟨n, f, hub, -⟩ := f32Unpack_of_finite hb
  rw [fmul, hua, hub]
  exact f32IsNaN_f32Round _ _ _

/-- A quotient by a nonzero finite number is a number. -/
theorem f32IsNaN_fdiv {a b : Word} (ha : f32IsNaN a = false) (hb : f32IsFinite b = true) (hb0 : f32Value b ≠ 0) :
    f32IsNaN (fdiv a b) = false := by
  rw [Ne, f32Value_eq_zero_iff hb] at hb0
  have hb' : f32Mag b < 0x7F800000 := by simpa [f32IsFinite] using hb
  rw [← Bool.not_eq_true, (fdiv_nanExactly a b).isNaN_iff, ha, not_nan_of_finite hb]
  simp [hb0, hb'.ne]

theorem holdsInt_i2f {n : Nat} (hn : n < 2 ^ 24) : HoldsInt (i2f n) n := by
  obtain ⟨hfin, hval⟩ := i2f_exact hn
  exact ⟨hfin, hval.trans (Int.cast_natCast n).symm⟩

/-- Two patterns of one nonzero key are the same pattern. -/
theorem eq_of_f32Key_eq {a b : Word} (h : f32Key a = f32Key b) (h0 : f32Key b ≠ 0) : a = b := by
  have hparts : f32Sign a = f32Sign b ∧ f32Mag a = f32Mag b := by
    unfold f32Key at h h0
    revert h h0
    cases f32Sign a <;> cases f32Sign b <;> simp <;> omega
  rw [← f32OfMag_sign_mag a, ← f32OfMag_sign_mag b, hparts.1, hparts.2]

theorem flt_trans {a b c : Word} (hab : flt a b = true) (hbc : flt b c = true) : flt a c = true := by
  rw [flt_eq_true_iff] at *
  obtain ⟨ha, -, hlt⟩ := hab
  obtain ⟨-, hc, hlt'⟩ := hbc
  exact ⟨ha, hc, hlt.trans hlt'⟩

/-- Numbers of which neither is below the other have one key. -/
theorem f32Key_eq_of_not_flt {a b : Word} (ha : f32IsNaN a = false) (hb : f32IsNaN b = false) (hab : flt a b = false)
    (hba : flt b a = false) : f32Key a = f32Key b := by
  rw [← Bool.not_eq_true, flt_eq_true_iff] at hab hba
  simp only [ha, hb, true_and, not_lt] at hab hba
  exact le_antisymm hba hab

end Sys2Proof.Machine
end

section
/-! SUPPORT. The output stage: SCLIP, WIDTH and DCB (47_output.md R230 to R241). -/

namespace Sys2Proof.Machine

/-! ## The clamp of the soft clipper -/

theorem fThree_holdsInt : HoldsInt fThree 3 := holdsInt_i2f (n := 3) (by decide)

theorem fNegThree_holdsInt : HoldsInt fNegThree (-3) := fThree_holdsInt.neg

/-- A number is clamped to [-3, 3], by the kinds of patterns. -/
theorem clipInput_finiteIn {x : Word} (hx : f32IsNaN x = false) : FiniteIn (-3) 3 (clipInput x) := by
  obtain ⟨hpf, hpv⟩ := fThree_holdsInt
  obtain ⟨hnf, hnv⟩ := fNegThree_holdsInt
  push_cast at hpv hnv
  have hpos : FiniteIn (-3) 3 fThree := ⟨hpf, by rw [hpv]; norm_num, hpv.le⟩
  have hneg : FiniteIn (-3) 3 fNegThree := ⟨hnf, hnv.ge, by rw [hnv]; norm_num⟩
  unfold clipInput
  rcases f32_nan_or_inf_or_finite x with hn | hi | hf
  · cases hx.symm.trans hn
  · obtain ⟨hbelow, -, -, habove⟩ := flt_infinities hpf
    obtain ⟨-, -, hneginf, -⟩ := flt_infinities hnf
    rcases eq_infinity_of_mag hi with rfl | rfl
    · rwa [if_pos hbelow]
    · rwa [if_neg (Bool.eq_false_iff.1 habove), if_pos hneginf]
  · simp only [flt_iff_value_lt hpf hf, flt_iff_value_lt hf hnf, hpv, hnv]
    split
    · exact hpos
    · next hhi =>
      split
      · exact hneg
      · next hlo => exact ⟨hf, not_lt.1 hlo, not_lt.1 hhi⟩

theorem clipInput_of_nan {x : Word} (hx : f32IsNaN x = true) : clipInput x = x := by
  rw [clipInput, flt_of_nan (.inr hx), flt_of_nan (.inl hx)]
  rfl

/-- The clamp is odd: what is above 3 has its opposite below -3. -/
theorem clipInput_fneg (x : Word) : clipInput (fneg x) = fneg (clipInput x) := by
  have hhi : flt fThree (fneg x) = flt x fNegThree := flt_fneg_fneg fNegThree x
  have hlo : flt (fneg x) fNegThree = flt fThree x := flt_fneg_fneg x fThree
  have hboth : ¬ (flt fThree x = true ∧ flt x fNegThree = true) := fun ⟨h, k⟩ =>
    absurd (flt_trans h k) (by decide)
  unfold clipInput
  rw [hhi, hlo]
  by_cases h : flt fThree x = true
  · have hn : ¬ flt x fNegThree = true := fun k => hboth ⟨h, k⟩
    rw [if_neg hn, if_pos h, if_pos h]
    rfl
  · rw [if_neg h, if_neg h]
    split <;> rfl

/-- From 3 on the clamp answers 3. -/
theorem clipInput_of_not_lt_three {x : Word} (h : flt x fThree = false) (hx : f32IsNaN x = false) :
    clipInput x = fThree := by
  unfold clipInput
  split
  · rfl
  · next hgt =>
    have hkey := f32Key_eq_of_not_flt hx (by decide) h (Bool.eq_false_iff.2 hgt)
    obtain rfl := eq_of_f32Key_eq hkey (by decide)
    rfl

/-! ## SCLIP -/

/-- The quotient of SoftClip at the clamped input (47_output.md R230). -/
def clipQuotient (c : Word) : Word :=
  fdiv (fmul c (fadd f27 (fmul c c))) (fadd f27 (fmul fNine (fmul c c)))

theorem softClip_eq_clipQuotient (x : Word) : softClip x = clipQuotient (clipInput x) := rfl

theorem clipQuotient_of_nan {c : Word} (hc : f32IsNaN c = true) : clipQuotient c = 0x7FC00000#32 := by
  have hnum : fmul c (fadd f27 (fmul c c)) = 0x7FC00000#32 := (fmul_nanExactly _ _).eq_of_invalid (.inl hc)
  rw [clipQuotient, hnum]
  exact (fdiv_nanExactly _ _).eq_of_invalid (.inl (by decide))

/-- The quotient is odd on [-3, 3]: the square loses the sign, and neither the numerator nor the quotient is a NaN, since
the numerator's second factor and the denominator are at least 27. -/
theorem clipQuotient_fneg {c : Word} (h : FiniteIn (-3) 3 c) : clipQuotient (fneg c) = fneg (clipQuotient c) := by
  obtain ⟨hc, hlo, hhi⟩ := h
  have hsquare : fmul (fneg c) (fneg c) = fmul c c := by
    have hnan := f32IsNaN_fmul hc hc
    rw [fmul_fneg_left, fmul_comm, fmul_fneg_left hnan, fneg_fneg]
    rwa [fmul_comm, fmul_fneg_left hnan, f32IsNaN_fneg]
  obtain ⟨h27f, h27v⟩ : HoldsInt f27 27 := holdsInt_i2f (n := 27) (by decide)
  obtain ⟨h9f, h9v⟩ : HoldsInt fNine 9 := holdsInt_i2f (n := 9) (by decide)
  obtain ⟨hx2f, hx2lo, hx2hi⟩ : FiniteIn (0 : Int) (9 : Int) (fmul c c) :=
    finiteIn_of_spec (fmul_spec hc hc) (by decide) (by decide) (by push_cast; constructor <;> nlinarith)
  push_cast at h27v h9v hx2lo hx2hi
  have hsum : FiniteIn (27 : Int) (36 : Int) (fadd f27 (fmul c c)) :=
    finiteIn_of_spec (fadd_spec h27f hx2f) (by decide) (by decide) (by push_cast; constructor <;> linarith)
  obtain ⟨hninef, hninelo, hninehi⟩ : FiniteIn (0 : Int) (81 : Int) (fmul fNine (fmul c c)) :=
    finiteIn_of_spec (fmul_spec h9f hx2f) (by decide) (by decide)
      (by rw [h9v]; push_cast; constructor <;> linarith)
  push_cast at hninelo hninehi
  obtain ⟨hdenf, hdenlo, -⟩ : FiniteIn (27 : Int) (108 : Int) (fadd f27 (fmul fNine (fmul c c))) :=
    finiteIn_of_spec (fadd_spec h27f hninef) (by decide) (by decide) (by push_cast; constructor <;> linarith)
  push_cast at hdenlo
  have hnum := f32IsNaN_fmul hc hsum.1
  rw [clipQuotient, clipQuotient, hsquare, fmul_fneg_left hnum, fdiv_fneg_left (f32IsNaN_fdiv hnum hdenf (by linarith))]

theorem softClip_fneg {x : Word} (hx : f32IsNaN x = false) : softClip (fneg x) = fneg (softClip x) := by
  rw [softClip_eq_clipQuotient, clipInput_fneg, clipQuotient_fneg (clipInput_finiteIn hx), softClip_eq_clipQuotient]

/-- From 3 on the soft clipper answers 1. -/
theorem softClip_of_not_lt_three {x : Word} (h : flt x fThree = false) (hx : f32IsNaN x = false) :
    softClip x = 0x3F800000#32 := by
  rw [softClip_eq_clipQuotient, clipInput_of_not_lt_three h hx]
  decide

/-- Settles O50: the clamp and the quotient are odd, and at 3 the quotient is exactly 1. -/
theorem sclipClipsSoftly : Obligations.SclipClipsSoftly := by
  refine ⟨fun xd xs s => ⟨_, rfl, writesOnlyX_setX_advance s xd _⟩, fun x => rfl, fun x => softClip_fneg,
    fun x hx => ?_, fun x => softClip_of_not_lt_three, fun x h hx => ?_, by decide, by decide⟩
  · rw [softClip_eq_clipQuotient, clipInput_of_nan hx, clipQuotient_of_nan hx]
  · have hflip : flt (fneg x) fThree = false := (flt_fneg_fneg x fNegThree).trans h
    have hone := softClip_of_not_lt_three hflip (by rwa [f32IsNaN_fneg])
    rw [softClip_fneg hx] at hone
    exact fneg_eq_iff.1 hone

/-! ## WIDTH -/

/-- Anything times +0 is a NaN or a zero. -/
theorem fmul_zero_right (x : Word) : f32IsNaN (fmul x 0#32) = true ∨ f32Mag (fmul x 0#32) = 0 := by
  rcases f32_nan_or_inf_or_finite x with hn | hi | hf
  · exact .inl ((fmul_nanExactly x 0#32).isNaN_iff.2 (.inl hn))
  · exact .inl ((fmul_nanExactly x 0#32).isNaN_iff.2 (.inr (.inr (.inl ⟨hi, by decide⟩))))
  · have hz : f32Value 0#32 = 0 := (f32Value_eq_zero_iff (by decide)).2 (by decide)
    rw [(fmul_spec hf (by decide)).2 (by rw [hz, mul_zero])]
    exact .inr (f32Mag_f32OfMag _ 0 (by decide))

/-- Zeros added to one pattern give one sum, or zeros. -/
theorem fadd_zeros {y z : Word} (hy : f32Mag y = 0) (hz : f32Mag z = 0) (m : Word) :
    fadd m y = fadd m z ∨ f32Mag (fadd m y) = 0 ∧ f32Mag (fadd m z) = 0 := by
  have hfin : ∀ {w}, f32Mag w = 0 → f32IsFinite w = true := fun h => by simp [f32IsFinite, h]
  have hval : ∀ {w}, f32Mag w = 0 → f32Value w = 0 := fun h => (f32Value_eq_zero_iff (hfin h)).2 h
  rcases f32_nan_or_inf_or_finite m with hn | hi | hf
  · exact .inl (by rw [fadd_nan_left hn, fadd_nan_left hn])
  · exact .inl (by rw [fadd_inf_finite hi (hfin hy), fadd_inf_finite hi (hfin hz)])
  · by_cases h0 : f32Value m = 0
    · have hsum : ∀ {w}, f32Mag w = 0 → f32Mag (fadd m w) = 0 := fun h => by
        rw [(fadd_spec hf (hfin h)).2 (by rw [h0, hval h, add_zero])]
        exact f32Mag_f32OfMag _ 0 (by decide)
      exact .inr ⟨hsum hy, hsum hz⟩
    · have hneg : m ≠ 0x80000000#32 := fun h => h0 (hval (eq_negZero_iff.1 h).2)
      exact .inl (by rw [fadd_zero_value hf (hfin hy) (hval hy) hneg, fadd_zero_value hf (hfin hz) (hval hz) hneg])

/-- A side signal that is a NaN or a zero gives both channels the mid signal, or zeros. -/
theorem fadd_fsub_collapse {d : Word} (hd : f32IsNaN d = true ∨ f32Mag d = 0) (m : Word) :
    fadd m d = fsub m d ∨ f32Mag (fadd m d) = 0 ∧ f32Mag (fsub m d) = 0 := by
  rcases hd with hn | h0
  · left
    rw [(fadd_nanExactly m d).eq_of_invalid (.inr (.inl hn)), (fsub_nanExactly m d).eq_of_invalid (.inr (.inl hn))]
  · rw [fsub_eq_fadd_fneg]
    exact fadd_zeros h0 (by rwa [f32Mag_fneg]) m

theorem exec_width (xl xr : XReg) (s : State) : exec (.width xl xr) s = .next
    ((s.setX xl (fadd (widthMid (s.getX xl) (s.getX xr)) (widthSide s.width (s.getX xl) (s.getX xr)))).setX xr
      (fsub (widthMid (s.getX xl) (s.getX xr)) (widthSide s.width (s.getX xl) (s.getX xr)))).advance := rfl

/-- Settles O51: two register writes, and a side signal times +0 is a NaN or a zero. -/
theorem widthScalesTheSide : Obligations.WidthScalesTheSide := by
  refine ⟨fun xl xr s => ⟨_, exec_width xl xr s, fun q => ?_, rfl, rfl, fun a => rfl⟩, fun xl xr s t hw h => ?_⟩
  · rw [State.getX_advance, State.getX_setX, State.getX_setX]
    rfl
  · have hside : f32IsNaN (widthSide s.width (s.getX xl) (s.getX xr)) = true ∨
        f32Mag (widthSide s.width (s.getX xl) (s.getX xr)) = 0 := hw ▸ fmul_zero_right _
    rw [exec_width] at h
    injection h with ht
    by_cases hx : xl = xr
    · exact .inl (congrArg t.getX hx)
    · rw [← ht, State.getX_advance, State.getX_advance, State.getX_setX_self, State.getX_setX, if_neg hx,
        State.getX_setX_self]
      exact fadd_fsub_collapse hside _

/-! ## DCB -/

/-- Settles O52: a DC-blocker write and then one register write, and the word is the one encoding gives. -/
theorem dcbBlocksDc : Obligations.DcbBlocksDc := by
  refine ⟨fun xd u xs s => ?_, fun xd u xs => ?_⟩
  · obtain ⟨hxd, hother, hpc, -, hmem⟩ := writesOnlyX_setX_advance
      (s.setDcb u ((s.getDcb u).step (s.getX xs))) xd ((s.getDcb u).out (s.getX xs))
    exact ⟨_, rfl, hxd, hother, fun w => s.getDcb_setDcb u w _, hmem, hpc, rfl⟩
  · rw [← encode_dcb]
    exact decodeWord_encode rfl

end Sys2Proof.Machine
end

section
/-! SUPPORT. FDN: the state after its reads and writes, its outputs, its write-back, and what these do not depend on
(48_fdn.md R250 to R255). -/

namespace Sys2Proof.Machine

/-! ## The reads -/

theorem lineChan_eq_ofNat (i : Line) : lineChan i = BitVec.ofNat 5 i.toNat :=
  BitVec.eq_of_toNat_eq (by simp [lineChan])

/-- The lines' channels are channels 0..15. -/
theorem exists_eq_lineChan_iff (j : Chan) : (∃ i, j = lineChan i) ↔ j.toNat < 16 := by
  revert j
  decide

/-- A state that agrees with another but for the channels. (Stated of any state, so that no proof computes FDN's.) -/
theorem State.exists_eq_withCh {s t : State} (h : { t with ch := s.ch } = s) : ∃ c, t = { s with ch := c } :=
  ⟨t.ch, congrArg (fun u : State => { u with ch := t.ch }) h⟩

theorem State.fdnReads_eq (s : State) : ∃ c, s.fdnReads.2 = { s with ch := c } :=
  State.exists_eq_withCh s.fdnReads_frame

/-- A phase step moves no cursor, so the reads leave the word a line writes to. -/
theorem State.fdnReads_ringAddr (s : State) (j : Chan) :
    s.fdnReads.2.sramAddr (s.fdnReads.2.ringWord j) = s.sramAddr (s.ringWord j) := by
  have hsame : s.fdnReads.2.ringWord j = s.ringWord j := by
    unfold State.ringWord
    rw [State.fdnReads_getCh]
    split <;> rfl
  obtain ⟨c, hc⟩ := s.fdnReads_eq
  rw [hsame, hc]
  rfl

/-! ## The outputs -/

/-- An output in terms of the reads as a function of the line (48_fdn.md R254). -/
theorem State.fdnOutput_fdnReads (s : State) (taps : Word) (base : Nat) :
    s.fdnOutput s.fdnReads.1 taps base =
      fmul (softClip (fmul ((List.range 8).foldl (fun acc k =>
        if s.tapSgn.getLsbD (base + k) = true then
          fsub acc (s.modRead (BitVec.ofNat 5 (taps.extractLsb' (4 * k) 4).toNat))
        else fadd acc (s.modRead (BitVec.ofNat 5 (taps.extractLsb' (4 * k) 4).toNat))) 0#32) 0x3EB504F3#32))
        s.makeup := by
  have htap : s.tapAdd s.fdnReads.1 taps base = fun acc k =>
      if s.tapSgn.getLsbD (base + k) = true then
        fsub acc (s.modRead (BitVec.ofNat 5 (taps.extractLsb' (4 * k) 4).toNat))
      else fadd acc (s.modRead (BitVec.ofNat 5 (taps.extractLsb' (4 * k) 4).toNat)) := by
    funext acc k
    rw [State.tapAdd, State.fdnReads_get, lineChan_eq_ofNat]
    rfl
  rw [State.fdnOutput, htap]
  rfl

/-! ## The writes -/

/-- The state after FDN's steps 1 to 3: reads, mixing and write-back (48_fdn.md R250). -/
def State.fdnWritten (s : State) (xs : XReg) : State :=
  s.fdnReads.2.fdnWrites (fmul (s.getX xs) fQuarter) (fwht16 s.fdnReads.1)

theorem exec_fdn (xd xs : XReg) (s : State) : exec (.fdn xd xs) s = .next
    { (((s.fdnWritten xs).setX xd (s.fdnOutput s.fdnReads.1 s.tapIdxL 0)).setX (xd + 1#4)
        (s.fdnOutput s.fdnReads.1 s.tapIdxR 8)) with bsign := !s.bsign }.advance := rfl

/-- FDN's two output registers are different (48_fdn.md R250). -/
theorem xReg_ne_add_one (xd : XReg) : xd ≠ xd + 1#4 := by
  revert xd
  decide

/-- What the two output registers are left with. -/
theorem getX_of_exec_fdn {xd xs : XReg} {s t : State} (h : exec (.fdn xd xs) s = .next t) :
    t.getX xd = s.fdnOutput s.fdnReads.1 s.tapIdxL 0 ∧ t.getX (xd + 1#4) = s.fdnOutput s.fdnReads.1 s.tapIdxR 8 := by
  rw [exec_fdn] at h
  generalize s.fdnWritten xs = w at h
  generalize s.fdnOutput s.fdnReads.1 s.tapIdxL 0 = l, s.fdnOutput s.fdnReads.1 s.tapIdxR 8 = r at h ⊢
  cases h
  exact ⟨((w.setX xd l).getX_setX _ _ _).trans ((if_neg (xReg_ne_add_one xd)).trans (w.getX_setX_self _ _)),
    (w.setX xd l).getX_setX_self _ _⟩

/-- A state that agrees with another but for the channels, the dampers and the memory. -/
theorem State.exists_eq_withChDmpMem {s t : State} (h : { t with ch := s.ch, dmp := s.dmp, mem := s.mem } = s) :
    ∃ c d m, t = { s with ch := c, dmp := d, mem := m } :=
  ⟨t.ch, t.dmp, t.mem, congrArg (fun u : State => { u with ch := t.ch, dmp := t.dmp, mem := t.mem }) h⟩

/-- Reads and writes change channels, dampers and memory only. -/
theorem State.fdnWritten_eq (s : State) (xs : XReg) :
    ∃ c d m, s.fdnWritten xs = { s with ch := c, dmp := d, mem := m } := by
  obtain ⟨c, hreads⟩ := s.fdnReads_eq
  obtain ⟨c', d, m, hwrites⟩ := State.exists_eq_withChDmpMem (fdnWrite_foldl (fmul (s.getX xs) fQuarter)
    (fwht16 s.fdnReads.1) fdnLines fdnLines_nodup s.fdnReads.2).1
  refine ⟨c', d, m, hwrites.trans ?_⟩
  rw [hreads]

/-- Each of channels 0..15 has its phase and then its cursor moved on. -/
theorem State.getCh_fdnWritten (s : State) (xs : XReg) (j : Chan) :
    (s.fdnWritten xs).getCh j = if j.toNat < 16 then (s.getCh j).phaseAdvanced.stepCursor else s.getCh j := by
  obtain ⟨-, hwrites, -, -⟩ := fdnWrite_foldl (fmul (s.getX xs) fQuarter) (fwht16 s.fdnReads.1) fdnLines fdnLines_nodup
    s.fdnReads.2
  simp only [mem_fdnLines, true_and, State.fdnReads_getCh, exists_eq_lineChan_iff] at hwrites
  refine (hwrites j).trans ?_
  split <;> rfl

/-- Settles O53: the outputs are clipped tap sums of the reads, written after the write-back, which leaves the registers
alone. -/
theorem fdnOutputs : Obligations.FdnOutputs := by
  intro xd xs s
  have hch := s.getCh_fdnWritten xs
  have hx := exec_fdn xd xs s
  obtain ⟨hl, hr⟩ := getX_of_exec_fdn hx
  obtain ⟨c, d, m, hw⟩ := s.fdnWritten_eq xs
  rw [hw] at hch hx hl hr
  refine ⟨_, hx, hl.trans (s.fdnOutput_fdnReads _ _), hr.trans (s.fdnOutput_fdnReads _ _), fun q hq hq' => ?_, hch,
    rfl, rfl, rfl⟩
  exact (State.getX_setX _ _ _ _).trans ((if_neg hq').trans ((State.getX_setX _ _ _ _).trans (if_neg hq)))

/-! ## The write-back -/

/-- The mixed values are the transform of the reads (48_fdn.md R250). -/
theorem State.fdnMixed_get (s : State) (u : Line) :
    (fwht16 s.fdnReads.1)[u.toNat] = hadamard (fun i => s.modRead (BitVec.ofNat 5 i)) u.toNat := by
  have hat : ∀ x : Vector Word 16, at16 x u.toNat = x[u.toNat] := fun x => by
    simp only [at16, Nat.mod_eq_of_lt u.isLt]
  have hin : ∀ i, i < 16 → at16 s.fdnReads.1 i = s.modRead (BitVec.ofNat 5 i) := fun i hi => by
    have hget := s.fdnReads_get (BitVec.ofNat 4 i)
    rw [lineChan_eq_ofNat] at hget
    simpa only [at16, BitVec.toNat_ofNat, Nat.reducePow, Nat.mod_eq_of_lt hi] using hget
  rw [← hat]
  exact fwht16_get _ _ hin _ u.isLt

/-- Each damper takes its step, or none when frozen (48_fdn.md R252). -/
theorem State.getDmp_fdnWritten (s : State) (xs : XReg) (u : DampIx) :
    (s.fdnWritten xs).getDmp u =
      if s.freeze = true then s.getDmp u else (s.getDmp u).step (fwht16 s.fdnReads.1)[u.toNat] := by
  obtain ⟨-, -, hwrites, -⟩ := fdnWrite_foldl (fmul (s.getX xs) fQuarter) (fwht16 s.fdnReads.1) fdnLines fdnLines_nodup
    s.fdnReads.2
  obtain ⟨c, hc⟩ := s.fdnReads_eq
  refine (hwrites u).trans ?_
  rw [hc]
  simp only [mem_fdnLines, true_and, State.getDmp]
  cases s.freeze <;> rfl

/-- No byte outside the sixteen words written changes. -/
theorem State.readByte_fdnWritten (s : State) (xs : XReg) {b : Nat}
    (hb : ∀ i, b < s.sramAddr (s.ringWord (lineChan i)) ∨ s.sramAddr (s.ringWord (lineChan i)) + 4 ≤ b) :
    (s.fdnWritten xs).readByte b = s.readByte b := by
  obtain ⟨-, -, -, hwrites⟩ := fdnWrite_foldl (fmul (s.getX xs) fQuarter) (fwht16 s.fdnReads.1) fdnLines fdnLines_nodup
    s.fdnReads.2
  obtain ⟨c, hc⟩ := s.fdnReads_eq
  refine (hwrites b fun i _ => ?_).trans ?_
  · rw [State.fdnReads_ringAddr]
    exact hb i
  rw [hc]
  rfl

/-- The lines after line `i` in the order of the writes are those of a greater number. -/
theorem exists_fdnLines_eq_append (i : Line) :
    ∃ L R, fdnLines = L ++ i :: R ∧ ∀ l ∈ R, i.toNat < l.toNat := by
  have hsorted : fdnLines.Pairwise fun i j => i.toNat < j.toNat := by decide
  obtain ⟨L, R, hsplit⟩ := List.append_of_mem (mem_fdnLines i)
  rw [hsplit, List.pairwise_append, List.pairwise_cons] at hsorted
  obtain ⟨-, ⟨hlater, -⟩, -⟩ := hsorted
  exact ⟨L, R, hsplit, hlater⟩

/-- A word that no line of a greater number writes to holds what its line wrote. -/
theorem State.readWord_fdnWritten (s : State) (xs : XReg) (i : Line)
    (hlater : ∀ l : Line, i.toNat < l.toNat →
      s.sramAddr (s.ringWord (lineChan l)) ≠ s.sramAddr (s.ringWord (lineChan i))) :
    (s.fdnWritten xs).readWord (s.sramAddr (s.ringWord (lineChan i))) =
      some (fadd (s.fdnFeedback (fmul (s.getX xs) fQuarter) (fwht16 s.fdnReads.1) i) (s.fdnBias i)) := by
  obtain ⟨L, R, hsplit, hR⟩ := exists_fdnLines_eq_append i
  have hvalue := fdnWrite_foldl_value (fmul (s.getX xs) fQuarter) (fwht16 s.fdnReads.1) L R i
    (hsplit ▸ fdnLines_nodup) s.fdnReads.2 fun l hl => by
      rw [State.fdnReads_ringAddr, State.fdnReads_ringAddr]
      exact hlater l (hR l hl)
  rw [← hsplit, State.fdnReads_ringAddr] at hvalue
  obtain ⟨c, hc⟩ := s.fdnReads_eq
  refine hvalue.trans ?_
  rw [hc]
  rfl

theorem getLsbD_zero_eq_decide {n : Nat} (u : BitVec n) : u.getLsbD 0 = decide (u.toNat % 2 = 1) :=
  Nat.testBit_zero _

/-- The sign of a line's bias is the parity of its number against BSIGN (48_fdn.md R253). -/
theorem State.fdnBias_eq (s : State) (u : Line) :
    s.fdnBias u = if (u.toNat % 2 = 1) = (s.bsign = true) then s.bias else fneg s.bias := by
  have hsign : (u.getLsbD 0 = s.bsign) ↔ ((u.toNat % 2 = 1) = (s.bsign = true)) := by
    rw [getLsbD_zero_eq_decide, Bool.eq_iff_iff, decide_eq_true_eq, eq_iff_iff]
  simp only [State.fdnBias, hsign]

/-- The injection is added on even lines and subtracted on odd ones (48_fdn.md R252). -/
theorem State.fdnFeedback_eq (s : State) (inj : Word) (m : Vector Word 16) (u : Line) :
    s.fdnFeedback inj m u = if s.freeze = true then m[u.toNat]
      else if u.toNat % 2 = 0 then fadd ((s.getDmp u).out m[u.toNat]) inj
      else fsub ((s.getDmp u).out m[u.toNat]) inj := by
  rw [State.fdnFeedback, getLsbD_zero_eq_decide]
  rcases Nat.mod_two_eq_zero_or_one u.toNat with h | h <;> simp [h]

/-- Settles O54: the sixteen writes in order, each with the mixed value of its line; the outputs and BSIGN written after
them change no damper and no byte. -/
theorem fdnWriteBack : Obligations.FdnWriteBack := by
  intro xd xs s
  have hdmp := s.getDmp_fdnWritten xs
  have hword := s.readWord_fdnWritten xs
  have hbyte := fun b => s.readByte_fdnWritten xs (b := b)
  have hx := exec_fdn xd xs s
  simp only [State.fdnMixed_get, State.fdnFeedback_eq, State.fdnBias_eq, lineChan_eq_ofNat] at hdmp hword hbyte
  generalize s.fdnWritten xs = w at hdmp hword hbyte hx
  exact ⟨_, hx, hdmp, hword, hbyte⟩

/-! ## Noninterference -/

/-- The state with another register file and other dampers. -/
def State.withXDmp (s : State) (x : Vector Word 16) (d : Vector Damper 16) : State := { s with x := x, dmp := d }

/-- The outputs depend on the reads, the signs of the taps and the makeup gain only (48_fdn.md R255 c). -/
theorem State.fdnOutput_congr {s t : State} (h : ∀ j, t.modRead j = s.modRead j) (hs : t.tapSgn = s.tapSgn)
    (hm : t.makeup = s.makeup) (taps : Word) (base : Nat) :
    t.fdnOutput t.fdnReads.1 taps base = s.fdnOutput s.fdnReads.1 taps base := by
  rw [State.fdnOutput_fdnReads, State.fdnOutput_fdnReads, hs, hm]
  simp only [h]

/-- One line's read sees neither the registers nor the dampers. -/
theorem fdnRead_withXDmp (p : Vector Word 16 × State) (x : Vector Word 16) (d : Vector Damper 16) (i : Line) :
    fdnRead (p.1, p.2.withXDmp x d) i = ((fdnRead p i).1, (fdnRead p i).2.withXDmp x d) := by
  have hread : (p.2.withXDmp x d).modRead (lineChan i) = p.2.modRead (lineChan i) :=
    State.modRead_congr rfl rfl rfl rfl rfl
  rw [fdnRead, hread]
  rfl

/-- The reads of FDN see neither the registers nor the dampers. -/
theorem State.fdnReads_withXDmp (s : State) (x : Vector Word 16) (d : Vector Damper 16) :
    (s.withXDmp x d).fdnReads = (s.fdnReads.1, s.fdnReads.2.withXDmp x d) := by
  rw [State.fdnReads, State.fdnReads]
  exact List.foldl_hom (fun p : Vector Word 16 × State => (p.1, p.2.withXDmp x d))
    (init := (Vector.replicate 16 0#32, s)) fun p i => fdnRead_withXDmp p x d i

/-- Frozen, a line writes back the mixed value with its bias, and its damper stays (48_fdn.md R252). -/
theorem fdnWrite_frozen {s : State} (h : s.freeze = true) (inj : Word) (m : Vector Word 16) (i : Line) :
    fdnWrite inj m s i = s.dlWrite (lineChan i) (fadd m[i.toNat] (s.fdnBias i)) := by
  rw [fdnWrite, State.fdnDamp, State.fdnFeedback, if_pos h, if_pos h]

/-- Frozen, the writes see neither the injection nor the dampers. -/
theorem fdnWrites_withXDmp_frozen {s : State} (h : s.freeze = true) (inj inj' : Word) (m x : Vector Word 16)
    (d : Vector Damper 16) (L : List Line) :
    L.foldl (fdnWrite inj' m) (s.withXDmp x d) = (L.foldl (fdnWrite inj m) s).withXDmp x d := by
  induction L generalizing s with
  | nil => rfl
  | cons i L ih =>
    have hfreeze : (s.withXDmp x d).freeze = true := h
    rw [List.foldl_cons, List.foldl_cons, fdnWrite_frozen h, fdnWrite_frozen hfreeze]
    exact ih (s := s.dlWrite (lineChan i) (fadd m[i.toNat] (s.fdnBias i))) h

theorem State.fdnWritten_withXDmp_frozen {s : State} (h : s.freeze = true) (xs : XReg) (x : Vector Word 16)
    (d : Vector Damper 16) : (s.withXDmp x d).fdnWritten xs = (s.fdnWritten xs).withXDmp x d := by
  have hfreeze : s.fdnReads.2.freeze = true := by
    obtain ⟨c, hc⟩ := s.fdnReads_eq
    rw [hc]
    exact h
  rw [State.fdnWritten, State.fdnReads_withXDmp]
  exact fdnWrites_withXDmp_frozen hfreeze _ _ _ x d fdnLines

/-- Frozen, the dampers stay. -/
theorem State.dmp_fdnWritten_frozen {s : State} (h : s.freeze = true) (xs : XReg) : (s.fdnWritten xs).dmp = s.dmp := by
  have hsame : s.fdnWritten xs = (s.fdnWritten xs).withXDmp s.x s.dmp :=
    State.fdnWritten_withXDmp_frozen h xs s.x s.dmp
  rw [hsame]
  rfl

/-- Settles O55: the outputs by what the reads see, and the frozen write-back by what it sees. -/
theorem fdnNoninterference : Obligations.FdnNoninterference := by
  refine ⟨fun xd xs ys s x d bias bsign freeze => ?_, fun xd xs s v d h => ?_⟩
  · have hread : ∀ j, State.modRead { s with x := x, dmp := d, bias := bias, bsign := bsign, freeze := freeze } j =
        s.modRead j := fun j => State.modRead_congr rfl rfl rfl rfl rfl
    obtain ⟨hsl, hsr⟩ := getX_of_exec_fdn (exec_fdn xd xs s)
    obtain ⟨htl, htr⟩ := getX_of_exec_fdn (exec_fdn xd ys
      { s with x := x, dmp := d, bias := bias, bsign := bsign, freeze := freeze })
    exact ⟨_, _, exec_fdn xd xs s, exec_fdn xd ys _,
      htl.trans ((State.fdnOutput_congr hread rfl rfl _ _).trans hsl.symm),
      htr.trans ((State.fdnOutput_congr hread rfl rfl _ _).trans hsr.symm)⟩
  · have hdmp := State.dmp_fdnWritten_frozen h xs
    have hwritten := State.fdnWritten_withXDmp_frozen h xs (s.x.set xs.toNat v) d
    have ht := exec_fdn xd xs s
    have hu := exec_fdn xd xs (s.withXDmp (s.x.set xs.toNat v) d)
    rw [hwritten] at hu
    -- The states the two runs leave are compared with the common write-back made opaque.
    generalize s.fdnWritten xs = w at hdmp ht hu
    exact ⟨_, _, ht, hu, hdmp, rfl, rfl⟩

end Sys2Proof.Machine
end
